-- ==== Sys2Proof/Word.lean ====
section
/-! DEFINITION. The unsigned integers of the spec: u8, u16 and u32 (00_scope.md R12). -/

namespace Sys2Proof

/-- u8 (R12). -/
abbrev Byte := BitVec 8

/-- u16 (R12). -/
abbrev Half := BitVec 16

/-- u32 (R12). -/
abbrev Word := BitVec 32

end Sys2Proof
end

