-- ==== Sys2Proof/Syntax.lean ====
section
/-! DEFINITION. The packet record, the status names and the instructions: one constructor of `Instr` for each row of
spec/opcode_table.json. -/

namespace Sys2Proof

/-- The decoded packet header (00_scope.md R16). The sync word is fixed, so it is no field. -/
structure Hdr where
  sequence : Byte
  channel : Byte
  flags : Byte
  opcode : Byte
  length : Half
  headerCrc : Half
  deriving DecidableEq, Repr

/-- The packet record (00_scope.md R16). -/
structure Pkt where
  hdr : Hdr
  payload : List Byte
  deriving DecidableEq, Repr

/-- A whole received packet: the record of R16 and the payload CRC field that stood behind the payload
(30_encoding.md R140). A packet without payload has no such field (R142); the value is then 0. -/
structure Rx where
  hdr : Hdr
  payload : List Byte
  payloadCrc : Word
  deriving DecidableEq, Repr

/-- The operands of every instruction: what a packet holds beside its dispatch key and its length
(30_encoding.md R140). -/
structure Frame where
  sequence : Byte
  channel : Byte
  headerCrc : Half
  payload : List Byte
  payloadCrc : Word
  deriving DecidableEq, Repr

/-- Bits 7..2 of the flags byte: RTX, ACK_REQUIRED, FRAGMENT, EVENT and the two unnamed bits, lowest first
(30_encoding.md R144). -/
abbrev UpperFlags := BitVec 6

/-- One received packet, classified by its dispatch key (30_encoding.md R151), one constructor for each row of
spec/opcode_table.json. A command or event row fixes ACK = NAK = 0 and the opcode; the ACK row fixes ACK = 1 (and NAK = 0,
since NAK takes precedence) and leaves the opcode free; the NAK row fixes NAK = 1 and leaves ACK and the opcode free. -/
inductive Instr where
  | sync (u : UpperFlags) (f : Frame)
  | getCaps (u : UpperFlags) (f : Frame)
  | setCaps (u : UpperFlags) (f : Frame)
  | stats (u : UpperFlags) (f : Frame)
  | version (u : UpperFlags) (f : Frame)
  | reset (u : UpperFlags) (f : Frame)
  | enterBootloader (u : UpperFlags) (f : Frame)
  | systemInfo (u : UpperFlags) (f : Frame)
  | systemEvent (u : UpperFlags) (f : Frame)
  | list (u : UpperFlags) (f : Frame)
  | poll (u : UpperFlags) (f : Frame)
  | lock (u : UpperFlags) (f : Frame)
  | unlock (u : UpperFlags) (f : Frame)
  | shape (u : UpperFlags) (f : Frame)
  | size (u : UpperFlags) (f : Frame)
  | read (u : UpperFlags) (f : Frame)
  | write (u : UpperFlags) (f : Frame)
  | ioctl (u : UpperFlags) (f : Frame)
  | event (u : UpperFlags) (f : Frame)
  | ack (opcode : Byte) (u : UpperFlags) (f : Frame)
  | nak (opcode : Byte) (ackBit : Bool) (u : UpperFlags) (f : Frame)
  deriving DecidableEq, Repr

/-- The ten wire statuses (30_encoding.md R160), in the listed order. PENDING is no wire status: see `SendResult`. -/
inductive Status where
  | success
  | failed
  | invalid
  | timeout
  | busy
  | checksum
  | sequence
  | overflow
  | fragment
  | unknown
  deriving DecidableEq, Repr

/-- What `send` returns: SUCCESS, FAILED, BUSY or PENDING (44_reliable_delivery.md R420, R425). -/
inductive SendResult where
  | success
  | failed
  | busy
  | pending
  deriving DecidableEq, Repr

end Sys2Proof
end

