-- ==== Sys2Proof/Config.lean ====
section
/-! DEFINITION. What an implementation fixes: the fixed sizes of 00_scope.md R8, the open parameters of
92_eei_decisions.md as plain data (`Params`, carried in State, log 1), and the free values, which have no body. -/

namespace Sys2Proof.Config

/-- HDR = 10 bytes (R8). -/
def headerSize : Nat := 10

/-- PCRC = 4 bytes (R8). -/
def payloadCrcSize : Nat := 4

/-- SYNC_WORD = 0xD5AA (R8). -/
def syncWord : Half := 0xD5AA#16

/-- The smallest `max_payload`, "64−14" (R8). -/
def minMaxPayload : Nat := 50

/-- FIRST_DYNAMIC_ID = 5 (R7). -/
def firstDynamicId : Nat := 5

/-- Free value (log 5): the environment's n-th unscripted answer (t_is_active, t_write, an init hook, the choice at the
deadline). 10_state.md R64, R68; 44_reliable_delivery.md R430. -/
opaque freeAnswer : Nat → Bool

/-- Free value (log 7): the byte drawn when a claimed byte that was never filled is committed (40_staging_buffer.md R209). -/
opaque freeByte : Nat → Byte

/-- Free value (log 7): what reading an unlisted byte of sb.B gives (10_state.md R48). No reachable step reads one. -/
opaque staleByte : Nat → Byte

/-- Free value (log 2): the CRC-16 primitives other than the reference one (00_scope.md R9), numbered. -/
opaque otherCrc16 : Nat → List Byte → Half

/-- Free value (log 2): the CRC-32 primitives other than the reference one (00_scope.md R9), numbered. -/
opaque otherCrc32 : Nat → List Byte → Word

/-- Free value (log 19): the STATS layouts other than the default one (30_encoding.md R168), numbered. The list holds the
seven counters in the order of 10_state.md R45. -/
opaque otherStatsLayout : Nat → List Word → List Byte

/-- What LIST_LAYOUT may use of a registered channel's descriptor (30_encoding.md R166, R169). -/
structure ListEntry where
  id : Byte
  name : List Byte
  flags : BitVec 6
  ops : BitVec 13
  deriving DecidableEq, Repr

/-- A payload that lists the entries: each its id, its name with a 1 before every byte, and a 0. It shows that legal layouts
exist; the block's own may be any. -/
def plainList (es : List ListEntry) : List Byte :=
  es.flatMap (fun e => e.id :: (e.name.flatMap (fun b => [1#8, b]) ++ [0#8]))

/-- The ids and names in such a payload; the first argument is the entry that is being read. -/
def readPlainList : Option (Byte × List Byte) → List Byte → List (Byte × List Byte)
  | none, id :: bs => readPlainList (some (id, [])) bs
  | some (id, name), 1#8 :: b :: bs => readPlainList (some (id, name ++ [b])) bs
  | some e, _ :: bs => e :: readPlainList none bs
  | _, [] => []

theorem readPlainList_name (id : Byte) (rest : List Byte) : ∀ name seen : List Byte,
    readPlainList (some (id, seen)) (name.flatMap (fun b => [1#8, b]) ++ 0#8 :: rest)
      = (id, seen ++ name) :: readPlainList none rest
  | [], seen => by simp [readPlainList]
  | b :: name, seen => by
    simp only [List.flatMap_cons, List.cons_append, List.nil_append, readPlainList]
    rw [readPlainList_name id rest name]; simp

/-- Reading gives back what was listed. -/
theorem readPlainList_plainList : ∀ es : List ListEntry, readPlainList none (plainList es) = es.map (fun e => (e.id, e.name))
  | [] => rfl
  | e :: es => by
    have ih := readPlainList_plainList es
    unfold plainList at ih ⊢
    simp only [List.flatMap_cons, List.cons_append, List.append_assoc, List.nil_append, readPlainList, readPlainList_name,
      List.map_cons, ih]

/-- A legal LIST_LAYOUT for names of up to `nameMax` bytes (30_encoding.md R169; 92_eei_decisions.md, "Open parameters"): the
payload of a LIST response includes an entry with the id and the name of each registered channel. The transport (id 0) may be
left out (45_opcodes.md R530). How an entry is laid out is open, so `shown` stands for what a reader of the layout finds. -/
structure ListLayout (nameMax : Nat) where
  /-- The payload, from one entry for each registered channel in ascending id order. -/
  payload : List ListEntry → List Byte := plainList
  /-- The ids and names that a payload includes. -/
  shown : List Byte → List (Byte × List Byte) := readPlainList none
  /-- Each channel's id and name are there. -/
  includes : ∀ es : List ListEntry, es.Pairwise (fun a b => a.id < b.id) → (∀ e ∈ es, e.name.length ≤ nameMax) →
    ∀ e ∈ es, e.id ≠ 0#8 → (e.id, e.name) ∈ shown (payload es) := by
      intro es _ _ e he _; rw [readPlainList_plainList]; exact List.mem_map_of_mem he
  /-- Nothing is there that is no registered channel's: the model's reading (DESIGN CHOICE, log 27). -/
  onlyRegistered : ∀ es : List ListEntry, es.Pairwise (fun a b => a.id < b.id) → (∀ e ∈ es, e.name.length ≤ nameMax) →
    ∀ x ∈ shown (payload es), ∃ e ∈ es, x = (e.id, e.name) := by
      intro es _ _ x hx; rw [readPlainList_plainList] at hx
      obtain ⟨e, he, h⟩ := List.mem_map.mp hx; exact ⟨e, he, h.symm⟩
  deriving Inhabited

/-- Free value (log 20): LIST_LAYOUT, any legal layout of the LIST response payload (30_encoding.md R169). DESIGN CHOICE
(log 27): a layout is a function of the entries alone, one for each registered channel in ascending id order, with its flags and
operations, which reach the wire here if anywhere (R166); a hooks reference and what the channel itself holds are no part
of it. -/
opaque listLayout : (nameMax : Nat) → ListLayout nameMax

/-- Free value (log 20): IOCTL_TABLE, the argument length of a command of a static channel (00_scope.md R11); none where the
table has no entry for the command (log 26). -/
opaque ioctlTable : Byte → List Byte → Option Nat

/-- Which `crc16` the block has (00_scope.md R9): the reference instantiation, or any other. -/
inductive Crc16 where
  | ccittFalse
  | other (k : Nat)
  deriving DecidableEq, Repr

/-- Which `crc32` the block has (00_scope.md R9): the reference instantiation, or any other. -/
inductive Crc32 where
  | isoHdlc
  | other (k : Nat)
  deriving DecidableEq, Repr

/-- Which STATS_LAYOUT the block has (30_encoding.md R168): the default, or any other. -/
inductive StatsLayout where
  | listed
  | other (k : Nat)
  deriving DecidableEq, Repr

/-- STATUS_CODE: the numeric value of each status (30_encoding.md R160). A legal table has ten distinct codes, none of them
PENDING (92_eei_decisions.md, "Open parameters"): `ParamsValid`. -/
structure StatusTable where
  success : Half := 0
  failed : Half := 1
  invalid : Half := 2
  timeout : Half := 3
  busy : Half := 4
  checksum : Half := 5
  sequence : Half := 6
  overflow : Half := 7
  fragment : Half := 8
  unknown : Half := 9
  deriving DecidableEq, Repr

/-- The open parameters (00_scope.md R6, R7, R9, R11). No step writes them. -/
structure Params where
  cap : Nat
  nch : Nat
  crc16 : Crc16
  crc32 : Crc32
  nameMax : Nat
  evtChannelRegistered : Half
  versionPayload : List Byte
  statsLayout : StatsLayout
  statusCode : StatusTable
  deriving DecidableEq, Repr

/-- The negotiated configuration record (10_state.md R40). -/
structure Cfg where
  crcEn : Bool
  seqEn : Bool
  ackEn : Bool
  evtEn : Bool
  maxPayload : Half
  retryCount : Byte
  baseTimeout : Word
  lockInterval : Word
  deriving DecidableEq, Repr

/-- Free value (log 20): SYSINFO_LAYOUT, the SYSTEM_INFO response (30_encoding.md R170). DESIGN CHOICE (log 29): it is a function
of the negotiated configuration, which its capability bitmap may show, and of nothing else in the block; R170 does not say
what it depends on. -/
opaque sysinfoPayload : Cfg → List Byte

/-- The parameters of the example configuration EX (00_scope.md after R10) and of the vectors of 95_test_vectors.md;
DESIGN CHOICE (log 1). -/
def exampleParams : Params where
  cap := 512
  nch := 8
  crc16 := .ccittFalse
  crc32 := .isoHdlc
  nameMax := 32
  evtChannelRegistered := 1#16
  versionPayload := [1#8, 0#8, 0#8]
  statsLayout := .listed
  statusCode := {}

/-- The configuration of EX (00_scope.md after R10), the spec's test choice. -/
def exampleCfg : Cfg where
  crcEn := true
  seqEn := true
  ackEn := true
  evtEn := true
  maxPayload := 242#16
  retryCount := 3#8
  baseTimeout := 100#32
  lockInterval := 10#32

end Sys2Proof.Config
end

