-- ==== Sys2Proof/WellFormed.lean ====
section
/-! DEFINITION. Which instructions a packet can spell: the checks a term of `Instr` needs that its type does not make. -/

namespace Sys2Proof

/-- The operands of an instruction. -/
def Instr.frame : Instr → Frame
  | .sync _ f => f
  | .getCaps _ f => f
  | .setCaps _ f => f
  | .stats _ f => f
  | .version _ f => f
  | .reset _ f => f
  | .enterBootloader _ f => f
  | .systemInfo _ f => f
  | .systemEvent _ f => f
  | .list _ f => f
  | .poll _ f => f
  | .lock _ f => f
  | .unlock _ f => f
  | .shape _ f => f
  | .size _ f => f
  | .read _ f => f
  | .write _ f => f
  | .ioctl _ f => f
  | .event _ f => f
  | .ack _ _ f => f
  | .nak _ _ _ f => f

/-- `length` is a u16, so a payload has at most 65535 bytes (30_encoding.md R140, R143). -/
def Frame.lengthFits (f : Frame) : Bool := decide (f.payload.length < 65536)

/-- The payload CRC field is present only if `length > 0` (30_encoding.md R142). -/
def Frame.crcPresence (f : Frame) : Bool := !f.payload.isEmpty || decide (f.payloadCrc = 0#32)

/-- A packet can spell the instruction. -/
def Instr.wellFormed (i : Instr) : Bool := i.frame.lengthFits && i.frame.crcPresence

end Sys2Proof
end

