-- ==== Sys2Proof/Decode.lean ====
section
/-! DEFINITION. Byte order, the wire format of 30_encoding.md R140, the classification of R151, the decoder and the encoder. -/

namespace Sys2Proof

/-! ### Byte sequences and little-endian assembly (00_scope.md R13, 20_memory.md R100) -/

/-- Byte `k` of a sequence. Callers give sequences that hold it; past the end the value 0 stands for no byte. -/
def byteOf (bs : List Byte) (k : Nat) : Byte := bs.getD k 0#8

/-- `le16(s, k)` (R13). -/
def le16 (bs : List Byte) (k : Nat) : Half := byteOf bs (k + 1) ++ byteOf bs k

/-- `le32(s, k)` (R13). -/
def le32 (bs : List Byte) (k : Nat) : Word :=
  byteOf bs (k + 3) ++ byteOf bs (k + 2) ++ byteOf bs (k + 1) ++ byteOf bs k

/-- `enc16(v)` (R13). -/
def enc16 (v : Half) : List Byte := [v.extractLsb' 0 8, v.extractLsb' 8 8]

/-- `enc32(v)` (R13). -/
def enc32 (v : Word) : List Byte :=
  [v.extractLsb' 0 8, v.extractLsb' 8 8, v.extractLsb' 16 8, v.extractLsb' 24 8]

/-! ### The packet format (R140-R142) -/

/-- `packet_total_size(length)` (30_encoding.md R142, 41_packet_codec.md R255): the payload CRC is present exactly when
`length > 0`. -/
def packetTotalSize (length : Half) : Nat :=
  Config.headerSize + length.toNat + (if length = 0#16 then 0 else Config.payloadCrcSize)

/-- The header fields of ten bytes (00_scope.md R16, 30_encoding.md R140, R141). The sync word is not checked here
(41_packet_codec.md R257). -/
def hdrOf (raw : List Byte) : Hdr where
  sequence := byteOf raw 2
  channel := byteOf raw 3
  flags := byteOf raw 4
  opcode := byteOf raw 5
  length := le16 raw 6
  headerCrc := le16 raw 8

/-- The packet that begins at the first byte (R140). -/
def rxOf (bs : List Byte) : Rx :=
  let h := hdrOf bs
  let rest := bs.drop Config.headerSize
  { hdr := h
    payload := rest.take h.length.toNat
    payloadCrc := if h.length = 0#16 then 0#32 else le32 rest h.length.toNat }

/-- The operands of a received packet. -/
def Rx.frame (p : Rx) : Frame where
  sequence := p.hdr.sequence
  channel := p.hdr.channel
  headerCrc := p.hdr.headerCrc
  payload := p.payload
  payloadCrc := p.payloadCrc

/-! ### Classification by the dispatch key (R147, R151) -/

/-- The row of a command or event packet: `key & 0x00FF` selects it (R151, codes of R147); none for the codes of R150. -/
def commandOf (opcode : Byte) (u : UpperFlags) (f : Frame) : Option Instr :=
  match opcode.toNat with
  | 0x00 => some (.sync u f)
  | 0x01 => some (.getCaps u f)
  | 0x02 => some (.setCaps u f)
  | 0x03 => some (.stats u f)
  | 0x04 => some (.version u f)
  | 0x10 => some (.reset u f)
  | 0x11 => some (.enterBootloader u f)
  | 0x12 => some (.systemInfo u f)
  | 0x13 => some (.systemEvent u f)
  | 0x20 => some (.list u f)
  | 0x21 => some (.poll u f)
  | 0x22 => some (.lock u f)
  | 0x23 => some (.unlock u f)
  | 0x24 => some (.shape u f)
  | 0x25 => some (.size u f)
  | 0x26 => some (.read u f)
  | 0x27 => some (.write u f)
  | 0x28 => some (.ioctl u f)
  | 0x29 => some (.event u f)
  | _ => none

/-- Classification of a received packet in the order of R151: NAK, then ACK, then the opcode. -/
def classify (p : Rx) : Option Instr :=
  let u := p.hdr.flags.extractLsb' 2 6
  if p.hdr.flags.getLsbD 1 then some (.nak p.hdr.opcode (p.hdr.flags.getLsbD 0) u p.frame)
  else if p.hdr.flags.getLsbD 0 then some (.ack p.hdr.opcode u p.frame)
  else commandOf p.hdr.opcode u p.frame

/-- Why bytes are not an instruction. -/
inductive DecodeError where
  /-- Fewer than the ten bytes of a header (R140). -/
  | shortHeader
  /-- Bytes 0 and 1 are not `AA D5` (20_memory.md R101). -/
  | noSyncWord
  /-- Fewer bytes than `packet_total_size` (R142). -/
  | incomplete
  /-- An opcode of R150 without ACK or NAK. -/
  | undefinedOpcode (opcode : Byte)
  deriving DecidableEq, Repr

/-- Read one instruction from the front of a byte sequence; also gives the bytes after it. Total on any bytes. -/
def decode (bs : List Byte) : Except DecodeError (Instr × List Byte) :=
  if bs.length < Config.headerSize then .error .shortHeader
  else if le16 bs 0 ≠ Config.syncWord then .error .noSyncWord
  else
    let p := rxOf bs
    let n := packetTotalSize p.hdr.length
    if bs.length < n then .error .incomplete
    else match classify p with
      | some i => .ok (i, bs.drop n)
      | none => .error (.undefinedOpcode p.hdr.opcode)

/-! ### The encoder -/

/-- The flags byte of a command or event packet: ACK = NAK = 0 (mask 0x03FF of the table's rows). -/
def commandFlags (u : UpperFlags) : Byte := u ++ 0b00#2

/-- The flags byte of an ACK response: ACK = 1, NAK = 0. -/
def ackFlags (u : UpperFlags) : Byte := u ++ 0b01#2

/-- The flags byte of a NAK response: NAK = 1, ACK as received. -/
def nakFlags (ackBit : Bool) (u : UpperFlags) : Byte := u ++ (if ackBit then 0b11#2 else 0b10#2)

/-- The packet with these operands and this key. -/
def Frame.rx (f : Frame) (flags opcode : Byte) : Rx where
  hdr :=
    { sequence := f.sequence
      channel := f.channel
      flags := flags
      opcode := opcode
      length := BitVec.ofNat 16 f.payload.length
      headerCrc := f.headerCrc }
  payload := f.payload
  payloadCrc := f.payloadCrc

/-- The packet an instruction stands for (key codes of R147). -/
def Instr.rx : Instr → Rx
  | .sync u f => f.rx (commandFlags u) 0x00#8
  | .getCaps u f => f.rx (commandFlags u) 0x01#8
  | .setCaps u f => f.rx (commandFlags u) 0x02#8
  | .stats u f => f.rx (commandFlags u) 0x03#8
  | .version u f => f.rx (commandFlags u) 0x04#8
  | .reset u f => f.rx (commandFlags u) 0x10#8
  | .enterBootloader u f => f.rx (commandFlags u) 0x11#8
  | .systemInfo u f => f.rx (commandFlags u) 0x12#8
  | .systemEvent u f => f.rx (commandFlags u) 0x13#8
  | .list u f => f.rx (commandFlags u) 0x20#8
  | .poll u f => f.rx (commandFlags u) 0x21#8
  | .lock u f => f.rx (commandFlags u) 0x22#8
  | .unlock u f => f.rx (commandFlags u) 0x23#8
  | .shape u f => f.rx (commandFlags u) 0x24#8
  | .size u f => f.rx (commandFlags u) 0x25#8
  | .read u f => f.rx (commandFlags u) 0x26#8
  | .write u f => f.rx (commandFlags u) 0x27#8
  | .ioctl u f => f.rx (commandFlags u) 0x28#8
  | .event u f => f.rx (commandFlags u) 0x29#8
  | .ack op u f => f.rx (ackFlags u) op
  | .nak op a u f => f.rx (nakFlags a u) op

/-- The ten header bytes of a packet as it stands on the wire (R140). -/
def headerBytes (h : Hdr) : List Byte :=
  [0xAA#8, 0xD5#8, h.sequence, h.channel, h.flags, h.opcode] ++ enc16 h.length ++ enc16 h.headerCrc

/-- The bytes behind the header: the payload and, when there is one, its CRC field (R140, R142). -/
def bodyBytes (payload : List Byte) (payloadCrc : Word) : List Byte :=
  if payload.isEmpty then [] else payload ++ enc32 payloadCrc

/-- The bytes of an instruction (R140). -/
def encode (i : Instr) : List Byte := headerBytes i.rx.hdr ++ bodyBytes i.rx.payload i.rx.payloadCrc

/-! ### The host's numbering of the opcode table -/

/-- The packet that has the dispatch key `w` and zeros elsewhere (log 11): key[7:0] is header byte 5 and key[15:8] header
byte 4, as spec/opcode_table.json says; the sync word is what makes it a packet. -/
def tableWordBytes (nbits w : Nat) : List Byte :=
  let key := BitVec.ofNat 16 (w % 2 ^ nbits)
  [0xAA#8, 0xD5#8, 0#8, 0#8, key.extractLsb' 8 8, key.extractLsb' 0 8, 0#8, 0#8, 0#8, 0#8]

/-- What the decoder reads from the packet with key `w`. -/
def decodeTableWord (nbits w : Nat) : Option Instr :=
  (decode (tableWordBytes nbits w)).toOption.map Prod.fst

end Sys2Proof
end

