-- ==== Sys2Proof/Machine/Crc.lean ====
section
/-! DEFINITION. The CRC primitives (00_scope.md R9). The reference instantiation is the one of 93_implementation_defined.md
section 6, which is not from the source: PRESUMED (log 2). -/

namespace Sys2Proof.Machine

/-- One bit of CRC-16/CCITT-FALSE: polynomial 0x1021, most significant bit first. -/
def crc16Bit (c : Half) : Half := if c.msb then (c <<< 1) ^^^ 0x1021#16 else c <<< 1

/-- One byte of CRC-16/CCITT-FALSE. -/
def crc16Byte (c : Half) (b : Byte) : Half :=
  crc16Bit (crc16Bit (crc16Bit (crc16Bit (crc16Bit (crc16Bit (crc16Bit (crc16Bit (c ^^^ (b ++ 0#8)))))))))

/-- CRC-16/CCITT-FALSE: initial value 0xFFFF, no reflection, no final XOR. -/
def crc16CcittFalse (bs : List Byte) : Half := bs.foldl crc16Byte 0xFFFF#16

/-- One bit of CRC-32/ISO-HDLC, reflected: polynomial 0x04C11DB7 written backwards. -/
def crc32Bit (c : Word) : Word := if c.getLsbD 0 then (c >>> 1) ^^^ 0xEDB88320#32 else c >>> 1

/-- One byte of CRC-32/ISO-HDLC. -/
def crc32Byte (c : Word) (b : Byte) : Word :=
  crc32Bit (crc32Bit (crc32Bit (crc32Bit (crc32Bit (crc32Bit (crc32Bit (crc32Bit (c ^^^ (0#24 ++ b)))))))))

/-- CRC-32/ISO-HDLC: initial value and final XOR 0xFFFFFFFF. -/
def crc32IsoHdlc (bs : List Byte) : Word := ~~~(bs.foldl crc32Byte 0xFFFFFFFF#32)

/-- `crc16` (R9). -/
def crc16 : Config.Crc16 → List Byte → Half
  | .ccittFalse, bs => crc16CcittFalse bs
  | .other k, bs => Config.otherCrc16 k bs

/-- `crc32` (R9). -/
def crc32 : Config.Crc32 → List Byte → Word
  | .isoHdlc, bs => crc32IsoHdlc bs
  | .other k, bs => Config.otherCrc32 k bs

/-- R9's second assumption on `crc16`: two 8-byte inputs that differ in exactly one byte have different results. A premise
of the statements that need it; the model itself assumes nothing. -/
def DetectsByteChange (c : Config.Crc16) : Prop :=
  ∀ bs : List Byte, bs.length = 8 → ∀ k, k < 8 → ∀ b : Byte, bs[k]? ≠ some b → crc16 c (bs.set k b) ≠ crc16 c bs

end Sys2Proof.Machine
end

