-- ==== Sys2Proof/Machine/State.lean ====
section
/-! DEFINITION. The state of the packet framing engine: the Protocol Context of 10_state.md (`ctx`, `sb`, `reg`), the
parameters it runs under (`par`) and the environment's pending actions, answers and outputs (`env`); the ways a step can stop;
the state at power-on. -/

namespace Sys2Proof.Machine

open Sys2Proof.Config (Params Cfg)

/-- The five framing states (10_state.md R33). -/
inductive FramingState where
  | sync
  | header
  | payload
  | syncRecovery
  | waitAck
  deriving DecidableEq, Repr

/-- The seven statistics counters (10_state.md R45). -/
structure Stats where
  sent : Word
  received : Word
  checksumErrors : Word
  sequenceErrors : Word
  retransmits : Word
  transportErrors : Word
  eventsSent : Word
  deriving DecidableEq, Repr

/-- A chunk still to be sent (10_state.md R57), which is also the operand of `send_one` (44_reliable_delivery.md R420). -/
structure Chunk where
  channel : Byte
  opcode : Byte
  flags : Byte
  payload : List Byte
  ackRequired : Bool
  echoSeq : Option Byte
  deriving DecidableEq, Repr

/-- The scalar fields of the Protocol Context (10_state.md R32-R47, R56, R57). -/
structure Ctx where
  /-- R32 -/
  initialised : Bool
  /-- R33 -/
  state : FramingState
  /-- R34 -/
  scanOffset : Nat
  /-- R35 -/
  seq : Byte
  /-- R36 -/
  waitForAck : Bool
  /-- R37 -/
  ackOpcode : Byte
  /-- R37 -/
  ackSequence : Byte
  /-- R38: a status code or PENDING (0xFFFF) -/
  ackStatus : Half
  /-- R39 -/
  retriesLeft : Byte
  /-- R40 -/
  cfg : Cfg
  /-- R41 -/
  defaultCfg : Cfg
  /-- R42 -/
  timeoutCur : Word
  /-- R43 -/
  elapsed : Word
  /-- R44: `none` is empty -/
  txHold : Option Pkt
  /-- R45 -/
  stats : Stats
  /-- R47 -/
  now : Word
  /-- R56 -/
  inDispatch : Bool
  /-- R57 -/
  fragRest : List Chunk
  deriving DecidableEq, Repr

/-- The bytes of `sb.B` to which the model gives a value, by absolute index, addresses strictly rising (`Memory.wf`): every
byte whose value is specified, and bytes that were until they were consumed or their claim ended, which stay listed until they
are forgotten (DESIGN CHOICE, log 7). An unlisted byte is unspecified (10_state.md R48). -/
abbrev Memory := List Host.Cell

/-- The staging buffer (10_state.md R48-R50). -/
structure StagingBuffer where
  bytes : Memory
  rd : Nat
  wr : Nat
  used : Nat
  claimLen : Nat
  deriving DecidableEq, Repr

/-- An opaque reference to a channel's external operations (10_state.md R51), with whether it has a teardown hook
(42_channel_registry.md R304); DESIGN CHOICE (log 15). -/
structure Hooks where
  ref : Nat
  teardown : Bool
  deriving DecidableEq, Repr

/-- A channel descriptor (10_state.md R51): `flags` as in R52, `ops` as in R53. -/
structure Descriptor where
  id : Byte
  flags : BitVec 6
  name : List Byte
  ops : BitVec 13
  hooks : Hooks
  deriving DecidableEq, Repr

/-- The descriptor a caller hands to `registry_register` (42_channel_registry.md R301). -/
structure DescriptorSpec where
  flags : BitVec 6
  staticId : Option Byte
  name : List Byte
  ops : BitVec 13
  hooks : Hooks
  deriving DecidableEq, Repr

/-- The channel registry (10_state.md R51, R54): `none` is EMPTY, respectively unset. -/
structure Registry where
  slots : List (Option Descriptor)
  lastLock : List (Option Word)
  deriving DecidableEq, Repr

/-- The port operations (10_state.md R60-R67). -/
inductive PortOp where
  | init (c : Cfg)
  | reset
  | deinit
  | sbAvailableToRead
  | sbAvailableToWrite
  | sbPeekU16
  | sbDataPtr
  | sbClaim (n : Nat)
  | sbFill (i : Nat) (v : List Byte)
  | sbCommit (n : Nat)
  | sbConsume (n : Nat)
  | sbPush (b : List Byte)
  | registryRegister (d : DescriptorSpec)
  | registryFind (id : Byte)
  | registryFindTransport
  | registryUnregister (id : Byte)
  | registryDeinitAll
  | send (c : Chunk)
  | sendAck (h : Hdr) (payload : List Byte)
  | sendStatus (h : Hdr) (st : Status)
  | tick
  | dispatchDone
  deriving DecidableEq, Repr

/-- One pending action of the environment (log 3): a port operation, a turn for one framing or delivery transition
(`step` of 30_encoding.md R175), transitions until the block is quiescent (`pump`), or a device restart, which is a power-on
for the block (70_reset_and_hazards.md R704, 45_opcodes.md R510). -/
inductive Input where
  | port (op : PortOp)
  | turn
  | pump
  | restart
  deriving DecidableEq, Repr

/-- What a port operation returns to its caller. -/
inductive Ret where
  | done
  | none
  | status (st : Status)
  | sent (r : SendResult)
  | count (n : Nat)
  | half (v : Half)
  | index (i : Nat)
  | region (start len : Nat)
  | channelId (id : Nat)
  | descriptor (d : Descriptor)
  deriving DecidableEq, Repr

/-- What the block puts on its ports (10_state.md R60): a transport write with the transport's answer (R64), a delivered
packet (R63), the result of a wait (R65), a hook call (R68; the init hook with the channel's answer), a returned value. -/
inductive Output where
  | tWrite (bytes : List Byte) (ok : Bool)
  | deliver (p : Pkt)
  | sendResult (code : Half)
  | hookInit (id : Nat) (ok : Bool)
  | hookUnlock (id : Nat)
  | hookTeardown (id : Nat)
  | returned (r : Ret)
  deriving DecidableEq, Repr

/-- The environment as the model holds it (log 3, 5, 14): pending actions, scripted answers, how many free values have been
drawn, and the outputs so far, each list oldest first. The MODEL's own fields. -/
structure Env where
  inputs : List Input
  answers : List Bool
  drawn : Nat
  outputs : List Output
  deriving DecidableEq, Repr

/-- The machine. -/
structure State where
  par : Params
  ctx : Ctx
  sb : StagingBuffer
  reg : Registry
  env : Env
  deriving DecidableEq, Repr

/-- The model faults of 60_exceptions.md R601. Each is safe: the machine stops where the spec gives no result. -/
inductive Fault where
  /-- `F_UNINIT`: any operation but `init` while `ctx.initialised = 0` (10_state.md R32). Safe. -/
  | uninit
  /-- `F_REINIT`: `init` while `ctx.initialised = 1` (70_reset_and_hazards.md R700). Safe. -/
  | reinit
  /-- `F_PEEK_SHORT`: `sb_peek_u16` with fewer than 2 readable bytes (40_staging_buffer.md R204). Safe. -/
  | peekShort
  /-- `F_FILL_RANGE`: a write outside the claimed region (40_staging_buffer.md R208). Safe. -/
  | fillRange
  /-- `F_COMMIT_OVER`: `sb_commit` beyond the live claim (40_staging_buffer.md R209). Safe. -/
  | commitOver
  /-- `F_CONSUME_OVER`: `sb_consume` beyond the used count (40_staging_buffer.md R210). Safe. -/
  | consumeOver
  /-- `F_UNREG_LIVE`: `registry_unregister` outside `registry_deinit_all` (42_channel_registry.md R304). Safe. -/
  | unregLive
  /-- `F_DISPATCH_DONE`: `dispatch_done` while `ctx.in_dispatch = 0` (10_state.md R63). Safe. -/
  | dispatchDone
  deriving DecidableEq, Repr

/-- Why there is no step. -/
inductive Refusal where
  /-- Raised by exec for an instruction whose meaning is not written. No arm raises it. Safe. -/
  | notModelled (mnemonic : String)
  /-- Raised by step when no action is pending and no transition is enabled: the block is quiescent, and the spec has no
  stuttering step (00_scope.md R17, log 4). Safe. -/
  | quiescent
  deriving DecidableEq, Repr

/-- Every configuration field zero: the power-on value the model names (log 8). -/
def zeroCfg : Cfg := ⟨false, false, false, false, 0#16, 0#8, 0#32, 0#32⟩

/-- Every counter zero (10_state.md R45). -/
def zeroStats : Stats := ⟨0#32, 0#32, 0#32, 0#32, 0#32, 0#32, 0#32⟩

/-- The context with its "after init" values (70_reset_and_hazards.md R705), given `initialised`, the configuration and the
code of SUCCESS. -/
def freshCtx (initialised : Bool) (c : Cfg) (success : Half) : Ctx where
  initialised := initialised
  state := .sync
  scanOffset := 0
  seq := 0#8
  waitForAck := false
  ackOpcode := 0#8
  ackSequence := 0#8
  ackStatus := success
  retriesLeft := 0#8
  cfg := c
  defaultCfg := c
  timeoutCur := 0#32
  elapsed := 0#32
  txHold := none
  stats := zeroStats
  now := 0#32
  inDispatch := false
  fragRest := []

/-- The buffer of R201: nothing readable, nothing claimed, every byte unspecified. -/
def freshBuffer : StagingBuffer := ⟨[], 0, 0, 0, 0⟩

/-- The registry with every slot EMPTY and every lock time unset (R51, R54). -/
def freshRegistry (nch : Nat) : Registry := ⟨List.replicate nch none, List.replicate nch none⟩

/-- The machine at power-on (70_reset_and_hazards.md R704): `ctx.initialised = 0`. Every other field is unspecified there;
its value here is the model's (log 8), the parameters' too (log 1). -/
def State.reset : State where
  par := Config.exampleParams
  ctx := freshCtx false zeroCfg 0#16
  sb := freshBuffer
  reg := freshRegistry Config.exampleParams.nch
  env := ⟨[], [], 0, []⟩

end Sys2Proof.Machine
end

