-- ==== Sys2Proof/Machine/Flags.lean ====
section
/-! DEFINITION. Every computation on the flags byte, the numeric codes of states and statuses, and the capability and
operation bits of a descriptor. The block has no arithmetic flags (10_state.md R46). -/

namespace Sys2Proof.Machine

open Sys2Proof.Config (StatusTable)

/-! ### The flags byte (30_encoding.md R144) -/

/-- Bit 0 -/
def flagAck : Byte := 0x01#8

/-- Bit 1 -/
def flagNak : Byte := 0x02#8

/-- Bit 2 -/
def flagRtx : Byte := 0x04#8

/-- Bit 3 -/
def flagAckRequired : Byte := 0x08#8

/-- Bit 4 -/
def flagFragment : Byte := 0x10#8

/-- Bit 5 -/
def flagEvent : Byte := 0x20#8

/-- `flags & mask != 0`. -/
def hasFlag (flags mask : Byte) : Bool := flags &&& mask != 0#8

/-- `flags & (ACK | NAK) != 0`: the packet is a response (30_encoding.md R151). -/
def isResponse (flags : Byte) : Bool := hasFlag flags (flagAck ||| flagNak)

/-- `flags & (ACK | NAK | EVENT) != 0`, mask 0x23 (43_framing_fsm.md R355). -/
def isUnsequenced (flags : Byte) : Bool := hasFlag flags (flagAck ||| flagNak ||| flagEvent)

/-- The exempt opcodes SYNC, SYSTEM_EVENT and EVENT (30_encoding.md R149). -/
def isExemptOpcode (opcode : Byte) : Bool := opcode == 0x00#8 || opcode == 0x13#8 || opcode == 0x29#8

/-- `exempt(h)` (43_framing_fsm.md R355). -/
def exempt (h : Hdr) : Bool := isUnsequenced h.flags || isExemptOpcode h.opcode

/-- Bits 6 and 7 are written as 0 (30_encoding.md R145, 41_packet_codec.md R251). -/
def wireFlags (flags : Byte) : Byte := flags &&& 0x3F#8

/-- `eff_ack_required(fl, ar)` (44_reliable_delivery.md R422). -/
def effAckRequired (ackEn : Bool) (flags : Byte) (ackRequired : Bool) : Bool :=
  ackRequired && ackEn && !isUnsequenced flags

/-- The outgoing flags: bits 6 and 7 cleared, ACK_REQUIRED replaced by its effective value (44_reliable_delivery.md R420). -/
def outgoingFlags (flags : Byte) (effective : Bool) : Byte :=
  (flags &&& 0x37#8) ||| (if effective then flagAckRequired else 0#8)

/-- RTX set, every other bit kept (41_packet_codec.md R256). -/
def rtxFlags (flags : Byte) : Byte := flags ||| flagRtx

/-- FRAGMENT set on every chunk but the last and cleared on the last (44_reliable_delivery.md R440). -/
def fragmentFlags (flags : Byte) (last : Bool) : Byte :=
  if last then flags &&& ~~~flagFragment else flags ||| flagFragment

/-! ### Numeric codes -/

/-- The encoding of `ctx.state` (10_state.md R33). -/
def stateCode : FramingState → BitVec 3
  | .sync => 0#3
  | .header => 1#3
  | .payload => 2#3
  | .syncRecovery => 3#3
  | .waitAck => 4#3

/-- The code of a status (30_encoding.md R160). -/
def statusCode (t : StatusTable) : Status → Half
  | .success => t.success
  | .failed => t.failed
  | .invalid => t.invalid
  | .timeout => t.timeout
  | .busy => t.busy
  | .checksum => t.checksum
  | .sequence => t.sequence
  | .overflow => t.overflow
  | .fragment => t.fragment
  | .unknown => t.unknown

/-- PENDING, internal only (30_encoding.md R160). -/
def pendingCode : Half := 0xFFFF#16

/-- The codes of the statuses other than SUCCESS (44_reliable_delivery.md R432). -/
def failureCodes (t : StatusTable) : List Half :=
  [t.failed, t.invalid, t.timeout, t.busy, t.checksum, t.sequence, t.overflow, t.fragment, t.unknown]

/-- The ten codes of a STATUS_CODE table (30_encoding.md R160). -/
def statusCodes (t : StatusTable) : List Half := t.success :: failureCodes t

/-! ### Descriptors (10_state.md R52, R53) -/

/-- The six capability bits (R52). -/
inductive Capability where
  | read
  | write
  | lockable
  | streaming
  | physical
  | dynamic
  deriving DecidableEq, Repr

/-- The bit of a capability (R52). -/
def capabilityBit : Capability → Nat
  | .read => 0
  | .write => 1
  | .lockable => 2
  | .streaming => 3
  | .physical => 4
  | .dynamic => 5

/-- The thirteen operations of a descriptor (R53). -/
inductive ChannelOp where
  | init
  | poll
  | lock
  | unlock
  | size
  | shape
  | read
  | write
  | readPointer
  | flush
  | ioctl
  | isActive
  | exec
  deriving DecidableEq, Repr

/-- The bit of an operation (R53). -/
def channelOpBit : ChannelOp → Nat
  | .init => 0
  | .poll => 1
  | .lock => 2
  | .unlock => 3
  | .size => 4
  | .shape => 5
  | .read => 6
  | .write => 7
  | .readPointer => 8
  | .flush => 9
  | .ioctl => 10
  | .isActive => 11
  | .exec => 12

/-- The descriptor's capability bit (R52). -/
def hasCapability (flags : BitVec 6) (c : Capability) : Bool := flags.getLsbD (capabilityBit c)

/-- `has_op(d, op)` (42_channel_registry.md R308). -/
def hasOp (ops : BitVec 13) (op : ChannelOp) : Bool := ops.getLsbD (channelOpBit op)

/-- `flags.DYNAMIC := dyn` (42_channel_registry.md R301). -/
def setDynamic (flags : BitVec 6) (dyn : Bool) : BitVec 6 :=
  (flags &&& 0b011111#6) ||| (if dyn then 0b100000#6 else 0b000000#6)

end Sys2Proof.Machine
end

