-- ==== Sys2Proof/Machine/Codec.lean ====
section
/-! DEFINITION. The packet codec (41_packet_codec.md): pure functions of their operands, the parameters and `crc_en` (R250). -/

namespace Sys2Proof.Machine

open Sys2Proof.Config (Params)

/-- `build_header` (R251): the header CRC is filled whatever `crc_en` is (R259). -/
def buildHeader (par : Params) (seq channel flags opcode : Byte) (length : Half) : List Byte :=
  let h := [0xAA#8, 0xD5#8, seq, channel, wireFlags flags, opcode] ++ enc16 length
  h ++ enc16 (crc16 par.crc16 h)

/-- `build_packet` (R252): the payload CRC is appended exactly when there is a payload (R259). -/
def buildPacket (par : Params) (seq channel flags opcode : Byte) (payload : List Byte) : List Byte :=
  buildHeader par seq channel flags opcode (BitVec.ofNat 16 payload.length)
    ++ bodyBytes payload (crc32 par.crc32 payload)

/-- `verify_header_crc` (R253), on ten bytes. -/
def verifyHeaderCrc (par : Params) (crcEn : Bool) (raw : List Byte) : Bool :=
  !crcEn || le16 raw 8 == crc16 par.crc16 (raw.take 8)

/-- The payload CRC check on the fields it compares (R254). -/
def payloadCrcMatches (par : Params) (crcEn : Bool) (payload : List Byte) (field : Word) : Bool :=
  !crcEn || payload.isEmpty || field == crc32 par.crc32 payload

/-- `verify_payload_crc` (R254), on the ten header bytes and the `L + 4` bytes behind them. -/
def verifyPayloadCrc (par : Params) (crcEn : Bool) (raw body : List Byte) : Bool :=
  let n := (le16 raw 6).toNat
  !crcEn || n == 0 || le32 body n == crc32 par.crc32 (body.take n)

/-- `mark_rtx` (R256): the retransmission header. -/
def markRtx (par : Params) (raw : List Byte) : List Byte :=
  buildHeader par (byteOf raw 2) (byteOf raw 3) (rtxFlags (byteOf raw 4)) (byteOf raw 5) (le16 raw 6)

/-- The record of a packet the block builds. Its CRC field is what `build_header` writes (log 16). -/
def makePkt (par : Params) (seq channel flags opcode : Byte) (payload : List Byte) : Pkt where
  hdr :=
    { sequence := seq
      channel := channel
      flags := flags
      opcode := opcode
      length := BitVec.ofNat 16 payload.length
      headerCrc := le16 (buildHeader par seq channel flags opcode (BitVec.ofNat 16 payload.length)) 8 }
  payload := payload

/-- The bytes `transmit_once` hands to the transport (44_reliable_delivery.md R423). -/
def pktBytes (par : Params) (p : Pkt) : List Byte :=
  buildPacket par p.hdr.sequence p.hdr.channel p.hdr.flags p.hdr.opcode p.payload

/-- The outstanding packet with RTX set and its header CRC recomputed (44_reliable_delivery.md R433). -/
def rtxPkt (par : Params) (p : Pkt) : Pkt :=
  makePkt par p.hdr.sequence p.hdr.channel (rtxFlags p.hdr.flags) p.hdr.opcode p.payload

end Sys2Proof.Machine
end

