-- ==== Sys2Proof/Machine/Ops.lean ====
section
/-! DEFINITION. The named operations over the staging buffer, the registry, the context and the environment that every port
operation, transition and meaning is built from. The block has no exception to take and none to return from
(60_exceptions.md R610): an error is answered inline (Delivery.lean, `sendStatus`), and the nearest thing to an entry is the
protocol reset (`protocolReset`). -/

namespace Sys2Proof.Machine

/-! ### Replacing a part of the state -/

/-- `s` with another context. -/
def State.withCtx (s : State) (c : Ctx) : State := { s with ctx := c }

/-- `s` with another staging buffer. -/
def State.withSb (s : State) (b : StagingBuffer) : State := { s with sb := b }

/-- `s` with another registry. -/
def State.withReg (s : State) (r : Registry) : State := { s with reg := r }

/-- `s` with another environment. -/
def State.withEnv (s : State) (e : Env) : State := { s with env := e }

/-- `s` with other counters (10_state.md R45). -/
def State.withStats (s : State) (t : Stats) : State := s.withCtx { s.ctx with stats := t }

/-- `s` with another framing state and scan offset (10_state.md R33, R34). -/
def State.enter (s : State) (f : FramingState) (scan : Nat) : State :=
  s.withCtx { s.ctx with state := f, scanOffset := scan }

/-! ### The environment -/

/-- Put something on an output port (log 14). -/
def emit (o : Output) (s : State) : State := s.withEnv { s.env with outputs := s.env.outputs ++ [o] }

/-- Put several things on the output ports, in order. -/
def emitAll (os : List Output) (s : State) : State := s.withEnv { s.env with outputs := s.env.outputs ++ os }

/-- The environment's next answer: the oldest scripted one, else a free value (10_state.md R64, R68; log 5). -/
def draw (s : State) : Bool × State :=
  match s.env.answers with
  | a :: rest => (a, s.withEnv { s.env with answers := rest })
  | [] => (Config.freeAnswer s.env.drawn, s.withEnv { s.env with drawn := s.env.drawn + 1 })

/-! ### The bytes of the staging buffer (10_state.md R48, 00_scope.md R14) -/

/-- The listed byte at an index; none for an unspecified byte. -/
def Memory.read : Memory → Nat → Option Byte
  | [], _ => none
  | (a, b) :: m, k => if a = k then some b else Memory.read m k

/-- Write one byte, keeping the addresses strictly rising. -/
def Memory.write : Memory → Nat → Byte → Memory
  | [], k, v => [(k, v)]
  | (a, b) :: m, k, v =>
    if k < a then (k, v) :: (a, b) :: m
    else if k = a then (k, v) :: m
    else (a, b) :: Memory.write m k v

/-- Write the bytes of `v` from index `i` on: `MemWrite(i, |v|, v)` (R14). -/
def Memory.writeBytes : Memory → Nat → List Byte → Memory
  | m, _, [] => m
  | m, i, b :: v => Memory.writeBytes (Memory.write m i b) (i + 1) v

/-- Keep the listed bytes of `[lo, hi)`; every other byte becomes unspecified. -/
def Memory.keep (m : Memory) (lo hi : Nat) : Memory := m.filter (fun c => decide (lo ≤ c.1) && decide (c.1 < hi))

/-- The addresses of `m` are strictly rising and at least `lo`. -/
def Memory.risingFrom : Nat → Memory → Bool
  | _, [] => true
  | lo, (a, _) :: m => decide (lo ≤ a) && Memory.risingFrom (a + 1) m

/-- The canonical form: addresses strictly rising. No listed entry can equal what an unlisted address reads as, since an
unlisted address has no value. -/
def Memory.wf (m : Memory) : Bool := Memory.risingFrom 0 m

/-- `sb.B[i]` (R14). An unlisted byte reads as a free value (log 7). -/
def byteAt (s : State) (i : Nat) : Byte := (Memory.read s.sb.bytes i).getD (Config.staleByte i)

/-- `MemRead(k, n)` (R14): `n` bytes from `k` past the read cursor. -/
def memRead (s : State) (k n : Nat) : List Byte := (List.range n).map (fun i => byteAt s (s.sb.rd + k + i))

/-- `sb_compact` (40_staging_buffer.md R207): all reads before any write, and the bytes past the readable ones become
unspecified. -/
def compact (s : State) : State :=
  s.withSb { s.sb with bytes := Memory.writeBytes [] 0 (memRead s 0 s.sb.used), wr := s.sb.used, rd := 0 }

/-- The effect of a successful `sb_claim(n)` with `n > 0` (R206): compaction when the tail is too short, then the claim. The
claimed bytes are unspecified until they are filled. -/
def claimRegion (n : Nat) (s : State) : State :=
  let t := if s.par.cap - s.sb.wr < n then compact s else s
  t.withSb { t.sb with bytes := Memory.keep t.sb.bytes t.sb.rd t.sb.wr, claimLen := n }

/-- `MemWrite(i, |v|, v)`. -/
def fillBytes (i : Nat) (v : List Byte) (s : State) : State :=
  s.withSb { s.sb with bytes := Memory.writeBytes s.sb.bytes i v }

/-- Give each unlisted byte of `[i, i + n)` a drawn value (R209: "A model draws it as any byte", log 7). -/
def drawBytes (m : Memory) (drawn : Nat) : Nat → Nat → Memory
  | _, 0 => m
  | i, n + 1 =>
    drawBytes (match Memory.read m i with
      | some _ => m
      | none => Memory.write m i (Config.freeByte (drawn + n))) drawn (i + 1) n

/-- The effect of `sb_commit(n)` with `0 < n ≤ sb.claim_len` (R209). -/
def commitBytes (n : Nat) (s : State) : State :=
  let t := s.withSb
    { s.sb with
      bytes := drawBytes s.sb.bytes s.env.drawn s.sb.wr n
      wr := s.sb.wr + n
      used := s.sb.used + n
      claimLen := 0 }
  t.withEnv { t.env with drawn := t.env.drawn + n }

/-- The effect of `sb_consume(n)` with `n ≤ sb.used` (R210, R213). DESIGN CHOICE (log 7): a consumed byte is unspecified
(10_state.md R48), and the model leaves it listed with its old value until a granted claim of n > 0 bytes or `init` forgets
it; no operation reads it before. -/
def consumeBytes (n : Nat) (s : State) : State :=
  if n = 0 then s
  else if s.sb.used - n = 0 then s.withSb { s.sb with rd := 0, wr := 0, used := 0, claimLen := 0 }
  else s.withSb { s.sb with rd := s.sb.rd + n, used := s.sb.used - n, claimLen := 0 }

/-! ### The registry (42_channel_registry.md) -/

/-- `registry_find(id)` (R302). -/
def registryFind (s : State) (id : Nat) : Option Descriptor :=
  if id < s.par.nch then (s.reg.slots[id]?).join else none

/-- The four operations a transport has (R303). -/
def isTransport (d : Descriptor) : Bool :=
  hasOp d.ops .read && hasOp d.ops .write && hasOp d.ops .size && hasOp d.ops .isActive

/-- `registry_find_transport()` (R303). -/
def findTransport (s : State) : Option Descriptor :=
  match registryFind s 0 with
  | some d => if isTransport d then some d else none
  | none => none

/-- `reg.slot[id] <- v`. -/
def setSlot (id : Nat) (v : Option Descriptor) (s : State) : State :=
  s.withReg { s.reg with slots := s.reg.slots.set id v }

/-- `reg.last_lock[id]` (10_state.md R54). -/
def lastLock (s : State) (id : Nat) : Option Word := (s.reg.lastLock[id]?).join

/-- `reg.last_lock[id] <- v`. -/
def setLastLock (id : Nat) (v : Option Word) (s : State) : State :=
  s.withReg { s.reg with lastLock := s.reg.lastLock.set id v }

/-! ### Counters (60_exceptions.md R620): each adds 1 mod 2^32 -/

/-- `sent += 1` -/
def countSent (s : State) : State := s.withStats { s.ctx.stats with sent := s.ctx.stats.sent + 1#32 }

/-- `received += 1` -/
def countReceived (s : State) : State := s.withStats { s.ctx.stats with received := s.ctx.stats.received + 1#32 }

/-- `checksum_errors += 1` -/
def countChecksumError (s : State) : State :=
  s.withStats { s.ctx.stats with checksumErrors := s.ctx.stats.checksumErrors + 1#32 }

/-- `sequence_errors += 1` -/
def countSequenceError (s : State) : State :=
  s.withStats { s.ctx.stats with sequenceErrors := s.ctx.stats.sequenceErrors + 1#32 }

/-- `retransmits += 1` -/
def countRetransmit (s : State) : State :=
  s.withStats { s.ctx.stats with retransmits := s.ctx.stats.retransmits + 1#32 }

/-- `transport_errors += 1` -/
def countTransportError (s : State) : State :=
  s.withStats { s.ctx.stats with transportErrors := s.ctx.stats.transportErrors + 1#32 }

/-- `events_sent += 1` -/
def countEventSent (s : State) : State :=
  s.withStats { s.ctx.stats with eventsSent := s.ctx.stats.eventsSent + 1#32 }

/-! ### Context fields -/

/-- `ctx.seq <- ctx.seq + 1 mod 256` (10_state.md R35). -/
def advanceSeq (s : State) : State := s.withCtx { s.ctx with seq := s.ctx.seq + 1#8 }

/-- `ctx.ack_status <- v` (10_state.md R38). -/
def setAckStatus (v : Half) (s : State) : State := s.withCtx { s.ctx with ackStatus := v }

/-- `ctx.frag_rest <- cs` (10_state.md R57). -/
def setFragRest (cs : List Chunk) (s : State) : State := s.withCtx { s.ctx with fragRest := cs }

/-- `sat32(v)` (00_scope.md R12). -/
def sat32 (v : Nat) : Word := BitVec.ofNat 32 (min v (2 ^ 32 - 1))

/-- `exit_wait()` (44_reliable_delivery.md R436). -/
def exitWait (s : State) : State :=
  s.withCtx
    { s.ctx with
      waitForAck := false
      retriesLeft := 0#8
      timeoutCur := 0#32
      elapsed := 0#32
      txHold := none
      state := .sync
      scanOffset := 0 }

/-- The code of a status under the block's STATUS_CODE. -/
def codeOf (s : State) (st : Status) : Half := statusCode s.par.statusCode st

/-- A wait that `reset` or `deinit` finds in progress ends with FAILED (70_reset_and_hazards.md R702, R703). -/
def failOpenWait (s : State) : State :=
  if s.ctx.waitForAck then emit (.sendResult (codeOf s .failed)) (setAckStatus (codeOf s .failed) s) else s

/-- The unlock hooks `reset` calls, in ascending id order (R702). -/
def unlockCalls (s : State) : List Output :=
  (List.range s.par.nch).filterMap (fun id =>
    match registryFind s id with
    | some d => if hasCapability d.flags .lockable && hasOp d.ops .unlock then some (.hookUnlock id) else none
    | none => none)

/-- The fields `reset` clears or restores (R702, R705). -/
def resetFields (s : State) : State :=
  s.withCtx
    { s.ctx with
      cfg := s.ctx.defaultCfg
      state := .sync
      scanOffset := 0
      seq := 0#8
      waitForAck := false
      ackOpcode := 0#8
      ackSequence := 0#8
      retriesLeft := 0#8
      timeoutCur := 0#32
      elapsed := 0#32
      txHold := none
      fragRest := [] }

/-- `reset()` on an initialised block (70_reset_and_hazards.md R702). -/
def protocolReset (s : State) : State :=
  let t := resetFields (failOpenWait s)
  emitAll (unlockCalls t) t

end Sys2Proof.Machine
end

