-- ==== Sys2Proof/Machine/Operands.lean ====
section
/-! DEFINITION. The operand forms of a transition or a meaning: headers and packets read from the staging buffer, and the
checks the framing machine and the dispatch stage make on them. -/

namespace Sys2Proof.Machine

/-- `hdr_at(k)` (41_packet_codec.md R257). -/
def hdrAt (s : State) (k : Nat) : Hdr := hdrOf (memRead s k Config.headerSize)

/-- `packet_total_size(hdr_at(k))` (R255). -/
def sizeAt (s : State) (k : Nat) : Nat := packetTotalSize (hdrAt s k).length

/-- The two bytes at offset `k` are the sync word (20_memory.md R101). -/
def syncWordAt (s : State) (k : Nat) : Bool := le16 (memRead s k 2) 0 == Config.syncWord

/-- The whole packet at offset `k`, of which `sizeAt s k` bytes are readable. -/
def rxAt (s : State) (k : Nat) : Rx := rxOf (memRead s k (sizeAt s k))

/-- `verify_header_crc(MemRead(k, 10))` (R253). -/
def headerOkAt (s : State) (k : Nat) : Bool :=
  verifyHeaderCrc s.par s.ctx.cfg.crcEn (memRead s k Config.headerSize)

/-- `verify_payload_crc(MemRead(k, 10), MemRead(k + 10, n - 10))` (R254). -/
def payloadOkAt (s : State) (k : Nat) : Bool :=
  verifyPayloadCrc s.par s.ctx.cfg.crcEn (memRead s k Config.headerSize)
    (memRead s (k + Config.headerSize) (sizeAt s k - Config.headerSize))

/-- `length <= max_payload` (30_encoding.md R143). -/
def lengthOk (s : State) (h : Hdr) : Bool := decide (h.length ≤ s.ctx.cfg.maxPayload)

/-- `seq_ok(h)` (43_framing_fsm.md R356). -/
def seqOk (s : State) (h : Hdr) : Bool := !s.ctx.cfg.seqEn || exempt h || h.sequence == s.ctx.seq

/-- `verify_payload_crc` of a received packet (R254). -/
def payloadOk (s : State) (p : Rx) : Bool := payloadCrcMatches s.par s.ctx.cfg.crcEn p.payload p.payloadCrc

/-- `verify_header_crc` of a received packet (R253). -/
def headerOk (s : State) (p : Rx) : Bool := verifyHeaderCrc s.par s.ctx.cfg.crcEn (headerBytes p.hdr)

/-- Policy (a), `chan_ok(h)` (R365, 30_encoding.md R148). -/
def chanOk (h : Hdr) : Bool :=
  (decide (h.opcode ≤ 0x13#8) && h.channel == 0#8) || (decide (0x13#8 < h.opcode) && h.channel != 0#8)

/-- The opcodes of the table of 30_encoding.md R147. -/
def opcodeDefined (opcode : Byte) : Bool :=
  (commandOf opcode 0#6 ⟨0#8, 0#8, 0#16, [], 0#32⟩).isSome

/-- The operation a channel opcode needs is there (43_framing_fsm.md R368). LIST and EVENT need none. -/
def targetHasOp (opcode : Byte) (d : Descriptor) : Bool :=
  match opcode.toNat with
  | 0x21 => hasOp d.ops .poll
  | 0x22 => hasOp d.ops .lock
  | 0x23 => hasOp d.ops .unlock
  | 0x24 => hasOp d.ops .shape
  | 0x25 => hasOp d.ops .size
  | 0x26 => hasOp d.ops .read || hasOp d.ops .readPointer
  | 0x27 => hasOp d.ops .write
  | 0x28 => hasOp d.ops .ioctl
  | _ => true

/-- `chan_target_ok(h)` (R368): protocol and system opcodes and LIST name no target; every other channel opcode needs a
registered channel with the operation. -/
def chanTargetOk (s : State) (h : Hdr) : Bool :=
  if h.opcode ≤ 0x20#8 then true
  else match registryFind s h.channel.toNat with
    | some d => targetHasOp h.opcode d
    | none => false

/-- `lock_too_soon(c)` (R374); the difference is taken mod 2^32. -/
def lockTooSoon (s : State) (channel : Byte) : Bool :=
  match lastLock s channel.toNat with
  | some t => decide (s.ctx.now - t < s.ctx.cfg.lockInterval)
  | none => false

/-- `ack_match(h)` (44_reliable_delivery.md R428): ACK and NAK are tested separately, the channel is not compared. -/
def ackMatch (s : State) (h : Hdr) : Bool :=
  isResponse h.flags && h.opcode == s.ctx.ackOpcode && h.sequence == s.ctx.ackSequence

/-- All that a response must pass to end the wait (R428). -/
def endsWait (s : State) (p : Rx) : Bool :=
  s.ctx.state == .waitAck && ackMatch s p.hdr && headerOk s p && lengthOk s p.hdr && payloadOk s p

end Sys2Proof.Machine
end

