-- ==== Sys2Proof/Machine/Delivery.lean ====
section
/-! DEFINITION. The send path, the waits it starts and the ends of a wait (44_reliable_delivery.md). -/

namespace Sys2Proof.Machine

/-! ### One packet (R420-R424) -/

/-- `stamp(op, fl, echo)` (R421): the sequence number to write and whether `ctx.seq` is to advance. -/
def stamp (s : State) (opcode flags : Byte) (echo : Option Byte) : Byte × Bool :=
  match echo with
  | some e => (e, false)
  | none => (s.ctx.seq, !(isUnsequenced flags || isExemptOpcode opcode))

/-- The counters of a successful transport write (R423). -/
def countWrite (p : Pkt) (s : State) : State :=
  let t := countSent s
  if hasFlag p.hdr.flags flagEvent then countEventSent t else t

/-- `transmit_once(p)` (R423); true is SUCCESS. -/
def transmitOnce (p : Pkt) (s : State) : Bool × State :=
  match findTransport s with
  | none => (false, countTransportError s)
  | some _ =>
    match draw s with
    | (false, s1) => (false, countTransportError s1)
    | (true, s1) =>
      match draw s1 with
      | (false, s2) => (false, countTransportError (emit (.tWrite (pktBytes s.par p) false) s2))
      | (true, s2) => (true, countWrite p (emit (.tWrite (pktBytes s.par p) true) s2))

/-- `wait_start(p)` (R424). -/
def waitStart (p : Pkt) (s : State) : State :=
  s.withCtx
    { s.ctx with
      waitForAck := true
      ackOpcode := p.hdr.opcode
      ackSequence := p.hdr.sequence
      ackStatus := pendingCode
      retriesLeft := s.ctx.cfg.retryCount
      timeoutCur := s.ctx.cfg.baseTimeout
      elapsed := 0#32
      txHold := some p
      state := .waitAck
      scanOffset := 0 }

/-- The packet `send_one` builds (R420). -/
def chunkPkt (s : State) (c : Chunk) : Pkt :=
  makePkt s.par (stamp s c.opcode c.flags c.echoSeq).1 c.channel
    (outgoingFlags c.flags (effAckRequired s.ctx.cfg.ackEn c.flags c.ackRequired)) c.opcode c.payload

/-- `send_one` (R420). -/
def sendOne (c : Chunk) (s : State) : SendResult × State :=
  let are := effAckRequired s.ctx.cfg.ackEn c.flags c.ackRequired
  if are && s.ctx.waitForAck then (.busy, s)
  else
    match transmitOnce (chunkPkt s c) s with
    | (false, s1) => (.failed, s1)
    | (true, s1) =>
      let s2 := if (stamp s c.opcode c.flags c.echoSeq).2 then advanceSeq s1 else s1
      if are then (.pending, waitStart (chunkPkt s c) s2) else (.success, s2)

/-! ### Fragmentation (R440, R441) -/

/-- Cut a payload into chunks of `m` bytes, the last one shorter; `fuel` bounds the number of chunks. -/
def cutPayload (m : Nat) : Nat → List Byte → List (List Byte)
  | 0, _ => []
  | fuel + 1, pl => if pl.length ≤ m then [pl] else pl.take m :: cutPayload m fuel (pl.drop m)

/-- The chunks of a fragmented send, FRAGMENT set on all but the last (R440). -/
def fragments (m : Nat) (c : Chunk) : List Chunk :=
  let parts := cutPayload m (c.payload.length + 1) c.payload
  parts.mapIdx (fun i pl => { c with flags := fragmentFlags c.flags (i + 1 == parts.length), payload := pl })

/-- Send chunks until one is not SUCCESS (R440, no ACK requirement). -/
def sendAll : List Chunk → State → SendResult × State
  | [], s => (.success, s)
  | c :: cs, s =>
    match sendOne c s with
    | (.success, s1) => sendAll cs s1
    | (r, s1) => (r, s1)

/-- `send_fragmented` (R440). -/
def sendFragmented (c : Chunk) (s : State) : SendResult × State :=
  let are := effAckRequired s.ctx.cfg.ackEn c.flags c.ackRequired
  if are && s.ctx.waitForAck then (.busy, s)
  else if !are then sendAll (fragments s.ctx.cfg.maxPayload.toNat c) s
  else
    match fragments s.ctx.cfg.maxPayload.toNat c with
    | [] => (.success, s)
    | c1 :: rest =>
      match sendOne c1 (setFragRest rest s) with
      | (.pending, s1) => (.pending, s1)
      | (r, s1) => (r, setFragRest [] s1)

/-- `send` on an initialised block (R420). -/
def sendChunk (c : Chunk) (s : State) : SendResult × State :=
  if s.ctx.cfg.maxPayload.toNat < c.payload.length then sendFragmented c s else sendOne c s

/-! ### Responses (R426) -/

/-- The operand of `send_ack(h, payload)` (R426). -/
def ackChunk (h : Hdr) (payload : List Byte) : Chunk :=
  ⟨h.channel, h.opcode, flagAck, payload, false, some h.sequence⟩

/-- The operand of `send_status(h, st)` (R426, 30_encoding.md R161). -/
def statusChunk (code : Half) (h : Hdr) : Chunk :=
  ⟨h.channel, h.opcode, flagNak, enc16 code, false, some h.sequence⟩

/-- `send_ack(h, payload)`; no caller in the block acts on its result (R426). -/
def sendAck (h : Hdr) (payload : List Byte) (s : State) : State := (sendChunk (ackChunk h payload) s).2

/-- `send_status(h, st)`; no caller in the block acts on its result (R426). -/
def sendStatus (h : Hdr) (st : Status) (s : State) : State := (sendChunk (statusChunk (codeOf s st) h) s).2

/-! ### The ends of a wait (R431-R437, R444) -/

/-- The result of a transaction goes to the waiting caller (R437). -/
def sendResult (code : Half) (s : State) : State := emit (.sendResult code) s

/-- `continue_fragments()` (R444). -/
def continueFragments (s : State) : State :=
  match s.ctx.fragRest with
  | [] => s
  | c :: rest =>
    match sendOne c (setFragRest rest s) with
    | (.pending, s1) => s1
    | (r, s1) =>
      let code := if r = .success then codeOf s .success else codeOf s .failed
      sendResult code (setAckStatus code (setFragRest [] s1))

/-- `end_ack` (R431). -/
def endAck (s : State) : State :=
  let t := exitWait (setAckStatus (codeOf s .success) s)
  if t.ctx.fragRest.isEmpty then sendResult (codeOf s .success) t else continueFragments t

/-- The status a NAK carries, FAILED when it carries none (R432). -/
def nakStatus (s : State) (payload : List Byte) : Half :=
  if 2 ≤ payload.length ∧ le16 payload 0 ∈ failureCodes s.par.statusCode then le16 payload 0 else codeOf s .failed

/-- The wait ends with a failure status: `ack_status`, `exit_wait`, `frag_rest`, `send_result` (R432, R435). -/
def failWait (code : Half) (s : State) : State :=
  sendResult code (setFragRest [] (exitWait (setAckStatus code s)))

/-- `end_nak` (R432). -/
def endNak (payload : List Byte) (s : State) : State := failWait (nakStatus s payload) s

/-- The copy that is sent again: RTX set in `ctx.tx_hold` (R433). -/
def markHold (s : State) : State :=
  s.withCtx { s.ctx with txHold := s.ctx.txHold.map (rtxPkt s.par) }

/-- Write the held packet; whether the write succeeds is not acted on (R433, R439). -/
def resendHold (s : State) : State :=
  match s.ctx.txHold with
  | some p => (transmitOnce p s).2
  | none => s

/-- `retransmit()` (R433). -/
def retransmit (s : State) : State :=
  let t := markHold (s.withCtx
    { s.ctx with
      retriesLeft := s.ctx.retriesLeft - 1#8
      timeoutCur := sat32 (2 * s.ctx.timeoutCur.toNat) })
  let u := resendHold (countRetransmit t)
  u.withCtx { u.ctx with elapsed := 0#32 }

/-- `exhaust()` (R434). -/
def exhaust (s : State) : State :=
  let t := protocolReset (setFragRest [] (exitWait s))
  sendResult (codeOf s .timeout) (setAckStatus (codeOf s .timeout) t)

/-- The timeout step (R430). -/
def timeoutStep (s : State) : State := if s.ctx.retriesLeft = 0#8 then exhaust s else retransmit s

/-- The timeout step is enabled (R430). -/
def timeoutEnabled (s : State) : Bool :=
  s.ctx.state == .waitAck && decide (s.ctx.timeoutCur ≤ s.ctx.elapsed)

end Sys2Proof.Machine
end

