-- ==== Sys2Proof/Machine/Received.lean ====
section
/-! DEFINITION. The dispatch stage (43_framing_fsm.md R364-R374): the checks every received packet passes before its meaning,
their one rejection, and delivery. -/

namespace Sys2Proof.Machine

/-- The first check of the dispatch stage that fails (R364, 60_exceptions.md R603), for a packet that is no response: policy
(a) R365, policy (c) R366, undefined opcode R367, channel target R368, re-lock interval R374. -/
def rejection (s : State) (p : Rx) : Option Status :=
  if !chanOk p.hdr then some .invalid
  else if !payloadOk s p then some .checksum
  else if !opcodeDefined p.hdr.opcode then some .unknown
  else if !chanTargetOk s p.hdr then some .invalid
  else if p.hdr.opcode == 0x22#8 && lockTooSoon s p.hdr.channel then some .busy
  else none

/-- A rejected packet is answered with one NAK (R370); a CHECKSUM rejection is counted first (R366). -/
def reject (st : Status) (p : Rx) (s : State) : State :=
  sendStatus p.hdr st (if st = .checksum then countChecksumError s else s)

/-- The sequence advance of an accepted packet (R371). -/
def acceptSeq (p : Rx) (s : State) : State := if exempt p.hdr then s else advanceSeq s

/-- The dispatch stage for a packet that is no response (R364): reject it, or advance the sequence number and handle it. No
operation but `init` runs on an uninitialised block (10_state.md R32). -/
def accept (p : Rx) (s : State) (handle : State → State) : Host.Outcome State Fault Refusal :=
  if s.ctx.initialised then
    match rejection s p with
    | some st => .next (reject st p s)
    | none => .next (handle (acceptSeq p s))
  else .fault .uninit

/-- `deliver(p)` (R372): hand the packet to the dispatcher and wait for `dispatch_done` (10_state.md R56). -/
def deliver (p : Rx) (s : State) : State :=
  emit (.deliver ⟨p.hdr, p.payload⟩) (s.withCtx { s.ctx with inDispatch := true })

/-- A packet of the system or channel family: checked, then delivered (R372). -/
def acceptDelivered (p : Rx) (s : State) : Host.Outcome State Fault Refusal := accept p s (deliver p)

/-- A response (45_opcodes.md R540, R541): it ends the wait when it passes R428, and is dropped elsewhere (R369). -/
def respond (p : Rx) (s : State) (finish : State → State) : Host.Outcome State Fault Refusal :=
  if s.ctx.initialised then .next (if endsWait s p then finish s else s) else .fault .uninit

end Sys2Proof.Machine
end

