-- ==== Sys2Proof/Machine/Channel.lean ====
section
/-! DEFINITION. The ten channel opcodes (45_opcodes.md R520, R530-R539): checked by the dispatch stage, against the registry
too, and delivered. What the dispatcher does with them is out of scope (00_scope.md R5). -/

namespace Sys2Proof.Machine

/-- LIST (R530): no registry lookup. -/
def execList (u : UpperFlags) (f : Frame) (s : State) : Host.Outcome State Fault Refusal :=
  acceptDelivered (Instr.list u f).rx s

/-- POLL (R531). -/
def execPoll (u : UpperFlags) (f : Frame) (s : State) : Host.Outcome State Fault Refusal :=
  acceptDelivered (Instr.poll u f).rx s

/-- LOCK (R532): the time of the delivered LOCK is kept for the re-lock interval (43_framing_fsm.md R374). -/
def execLock (u : UpperFlags) (f : Frame) (s : State) : Host.Outcome State Fault Refusal :=
  let p := (Instr.lock u f).rx
  accept p s (fun t => deliver p (setLastLock p.hdr.channel.toNat (some t.ctx.now) t))

/-- UNLOCK (R533): the lock time is unchanged. -/
def execUnlock (u : UpperFlags) (f : Frame) (s : State) : Host.Outcome State Fault Refusal :=
  acceptDelivered (Instr.unlock u f).rx s

/-- SHAPE (R534). -/
def execShape (u : UpperFlags) (f : Frame) (s : State) : Host.Outcome State Fault Refusal :=
  acceptDelivered (Instr.shape u f).rx s

/-- SIZE (R535). -/
def execSize (u : UpperFlags) (f : Frame) (s : State) : Host.Outcome State Fault Refusal :=
  acceptDelivered (Instr.size u f).rx s

/-- READ (R536). -/
def execRead (u : UpperFlags) (f : Frame) (s : State) : Host.Outcome State Fault Refusal :=
  acceptDelivered (Instr.read u f).rx s

/-- WRITE (R537). -/
def execWrite (u : UpperFlags) (f : Frame) (s : State) : Host.Outcome State Fault Refusal :=
  acceptDelivered (Instr.write u f).rx s

/-- IOCTL (R538). -/
def execIoctl (u : UpperFlags) (f : Frame) (s : State) : Host.Outcome State Fault Refusal :=
  acceptDelivered (Instr.ioctl u f).rx s

/-- EVENT (R539): sequence-exempt; the channel needs no operation. -/
def execEvent (u : UpperFlags) (f : Frame) (s : State) : Host.Outcome State Fault Refusal :=
  acceptDelivered (Instr.event u f).rx s

end Sys2Proof.Machine
end

