-- ==== Sys2Proof/Machine/Protocol.lean ====
section
/-! DEFINITION. The five protocol opcodes, which the block handles itself (45_opcodes.md R500-R505). -/

namespace Sys2Proof.Machine

/-- `sync_found` once the SYNC is consumed (43_framing_fsm.md R380). A SYNC found during a wait first ends the wait with
FAILED (44_reliable_delivery.md R435). -/
def syncFound (h : Hdr) (s : State) : State :=
  let t := if s.ctx.state = .waitAck then failWait (codeOf s .failed) s else s
  sendAck h [] (protocolReset (t.withCtx { t.ctx with scanOffset := 0 }))

/-- SYNC (R500). -/
def execSync (u : UpperFlags) (f : Frame) (s : State) : Host.Outcome State Fault Refusal :=
  accept (Instr.sync u f).rx s (syncFound (Instr.sync u f).rx.hdr)

/-- The `caps` word (R501, 30_encoding.md R164). -/
def capsWord (c : Config.Cfg) : Word :=
  (if c.crcEn then 1#32 else 0#32) ||| (if c.seqEn then 2#32 else 0#32)
    ||| (if c.ackEn then 4#32 else 0#32) ||| (if c.evtEn then 8#32 else 0#32)

/-- The capability payload (30_encoding.md R163). -/
def capsPayload (c : Config.Cfg) : List Byte :=
  enc32 (capsWord c) ++ enc16 c.maxPayload ++ List.replicate 10 0#8

/-- GET_CAPS (R501). -/
def execGetCaps (u : UpperFlags) (f : Frame) (s : State) : Host.Outcome State Fault Refusal :=
  let p := (Instr.getCaps u f).rx
  accept p s (fun t => sendAck p.hdr (capsPayload t.ctx.cfg) t)

/-- `max_payload` may be negotiated to this value (R502). -/
def negotiable (s : State) (mp : Half) : Bool :=
  decide (Config.minMaxPayload ≤ mp.toNat) && decide (mp.toNat ≤ s.par.cap - 14)

/-- The configuration a capability payload asks for; reserved bits and bytes are ignored (R502, 30_encoding.md R164). -/
def negotiated (c : Config.Cfg) (payload : List Byte) : Config.Cfg :=
  let w := le32 payload 0
  { c with
    crcEn := w.getLsbD 0
    seqEn := w.getLsbD 1
    ackEn := w.getLsbD 2
    evtEn := w.getLsbD 3
    maxPayload := le16 payload 4 }

/-- The handler of SET_CAPS: the ACK is sent under the old configuration, then the new values apply (R502). -/
def setCaps (p : Rx) (s : State) : State :=
  if p.payload.length ≠ 16 then sendStatus p.hdr .invalid s
  else if !negotiable s (le16 p.payload 4) then sendStatus p.hdr .invalid s
  else
    let t := sendAck p.hdr [] s
    t.withCtx { t.ctx with cfg := negotiated t.ctx.cfg p.payload }

/-- SET_CAPS (R502). -/
def execSetCaps (u : UpperFlags) (f : Frame) (s : State) : Host.Outcome State Fault Refusal :=
  accept (Instr.setCaps u f).rx s (setCaps (Instr.setCaps u f).rx)

/-- The seven counters in the order of 10_state.md R45. -/
def statsWords (t : Stats) : List Word :=
  [t.sent, t.received, t.checksumErrors, t.sequenceErrors, t.retransmits, t.transportErrors, t.eventsSent]

/-- The STATS payload (30_encoding.md R168). -/
def statsPayload (l : Config.StatsLayout) (t : Stats) : List Byte :=
  match l with
  | .listed => (statsWords t).flatMap enc32
  | .other k => Config.otherStatsLayout k (statsWords t)

/-- STATS (R503): the snapshot is taken before the response is written. -/
def execStats (u : UpperFlags) (f : Frame) (s : State) : Host.Outcome State Fault Refusal :=
  let p := (Instr.stats u f).rx
  accept p s (fun t => sendAck p.hdr (statsPayload t.par.statsLayout t.ctx.stats) t)

/-- VERSION (R504). -/
def execVersion (u : UpperFlags) (f : Frame) (s : State) : Host.Outcome State Fault Refusal :=
  let p := (Instr.version u f).rx
  accept p s (fun t => sendAck p.hdr t.par.versionPayload t)

end Sys2Proof.Machine
end

