-- ==== Sys2Proof/Machine/Response.lean ====
section
/-! DEFINITION. The two responses (45_opcodes.md R540, R541): acted on only while a send waits (44_reliable_delivery.md
R427-R432), dropped elsewhere (43_framing_fsm.md R369). -/

namespace Sys2Proof.Machine

/-- ACK (R540): a match ends the wait with SUCCESS, or sends the next chunk (44_reliable_delivery.md R431, R444). -/
def execAck (opcode : Byte) (u : UpperFlags) (f : Frame) (s : State) : Host.Outcome State Fault Refusal :=
  respond (Instr.ack opcode u f).rx s endAck

/-- NAK (R541): a match ends the wait with the status in its payload (44_reliable_delivery.md R432). -/
def execNak (opcode : Byte) (ackBit : Bool) (u : UpperFlags) (f : Frame) (s : State) :
    Host.Outcome State Fault Refusal :=
  respond (Instr.nak opcode ackBit u f).rx s (endNak f.payload)

end Sys2Proof.Machine
end

