-- ==== Sys2Proof/Machine/System.lean ====
section
/-! DEFINITION. The four system opcodes (45_opcodes.md R510-R513): checked by the dispatch stage and delivered. What the
dispatcher does with them is out of scope (00_scope.md R5). -/

namespace Sys2Proof.Machine

/-- RESET (R510): delivered; the block does not reset itself. -/
def execReset (u : UpperFlags) (f : Frame) (s : State) : Host.Outcome State Fault Refusal :=
  acceptDelivered (Instr.reset u f).rx s

/-- ENTER_BOOTLOADER (R511). -/
def execEnterBootloader (u : UpperFlags) (f : Frame) (s : State) : Host.Outcome State Fault Refusal :=
  acceptDelivered (Instr.enterBootloader u f).rx s

/-- SYSTEM_INFO (R512). -/
def execSystemInfo (u : UpperFlags) (f : Frame) (s : State) : Host.Outcome State Fault Refusal :=
  acceptDelivered (Instr.systemInfo u f).rx s

/-- SYSTEM_EVENT (R513): sequence-exempt. -/
def execSystemEvent (u : UpperFlags) (f : Frame) (s : State) : Host.Outcome State Fault Refusal :=
  acceptDelivered (Instr.systemEvent u f).rx s

end Sys2Proof.Machine
end

