-- ==== Sys2Proof/Machine/Dispatch.lean ====
section
/-! DEFINITION. One arm per row of spec/opcode_table.json. -/

namespace Sys2Proof.Machine

open Sys2Proof

def exec (i : Instr) (s : State) : Host.Outcome State Fault Refusal :=
  match i with
  | .sync u f => Sys2Proof.Machine.execSync u f s
  | .getCaps u f => Sys2Proof.Machine.execGetCaps u f s
  | .setCaps u f => Sys2Proof.Machine.execSetCaps u f s
  | .stats u f => Sys2Proof.Machine.execStats u f s
  | .version u f => Sys2Proof.Machine.execVersion u f s
  | .reset u f => Sys2Proof.Machine.execReset u f s
  | .enterBootloader u f => Sys2Proof.Machine.execEnterBootloader u f s
  | .systemInfo u f => Sys2Proof.Machine.execSystemInfo u f s
  | .systemEvent u f => Sys2Proof.Machine.execSystemEvent u f s
  | .list u f => Sys2Proof.Machine.execList u f s
  | .poll u f => Sys2Proof.Machine.execPoll u f s
  | .lock u f => Sys2Proof.Machine.execLock u f s
  | .unlock u f => Sys2Proof.Machine.execUnlock u f s
  | .shape u f => Sys2Proof.Machine.execShape u f s
  | .size u f => Sys2Proof.Machine.execSize u f s
  | .read u f => Sys2Proof.Machine.execRead u f s
  | .write u f => Sys2Proof.Machine.execWrite u f s
  | .ioctl u f => Sys2Proof.Machine.execIoctl u f s
  | .event u f => Sys2Proof.Machine.execEvent u f s
  | .ack opcode u f => Sys2Proof.Machine.execAck opcode u f s
  | .nak opcode ackBit u f => Sys2Proof.Machine.execNak opcode ackBit u f s

end Sys2Proof.Machine
end

