-- ==== Sys2Proof/Machine/Framing.lean ====
section
/-! DEFINITION. The framing state machine (43_framing_fsm.md) and the WAIT_ACK scan (44_reliable_delivery.md R427): which
transition is enabled and what it does. A received packet is run by `exec`. -/

namespace Sys2Proof.Machine

/-! ### Running a packet -/

/-- A packet leaves the buffer and reaches the dispatch stage: an instruction runs; an opcode of no row is rejected there
(R364, R367). -/
def runReceived (p : Rx) (s : State) : Host.Outcome State Fault Refusal :=
  match classify p with
  | some i => exec i s
  | none => accept p s id

/-- Everything before offset `k` is discarded and the packet at `k` is consumed and counted (R380). -/
def takeAt (k : Nat) (s : State) : State := countReceived (consumeBytes (sizeAt s k) (consumeBytes k s))

/-! ### SYNC, HEADER, PAYLOAD (R351, R352, R360) -/

/-- The SYNC step (R351). -/
def syncStep (s : State) : State := if syncWordAt s 0 then s.enter .header s.ctx.scanOffset else consumeBytes 1 s

/-- The first header check that fails (R352): CRC, length, sequence. -/
def headerFailure (s : State) : Option Status :=
  if !headerOkAt s 0 then some .checksum
  else if !lengthOk s (hdrAt s 0) then some .overflow
  else if !seqOk s (hdrAt s 0) then some .sequence
  else none

/-- The counter of a header failure; OVERFLOW has none (R358). -/
def countHeaderFailure (st : Status) (s : State) : State :=
  match st with
  | .checksum => countChecksumError s
  | .sequence => countSequenceError s
  | _ => s

/-- The HEADER step (R352). -/
def headerStep (s : State) : State :=
  match headerFailure s with
  | none => s.enter .payload s.ctx.scanOffset
  | some st =>
    let t := consumeBytes 1 (sendStatus (hdrAt s 0) st (countHeaderFailure st s))
    t.enter .sync t.ctx.scanOffset

/-- The state in which the dispatch stage sees a packet: consumed, counted, back in SYNC (R360). -/
def afterFetch (s : State) : State :=
  let t := countReceived (consumeBytes (sizeAt s 0) s)
  t.enter .sync t.ctx.scanOffset

/-- The PAYLOAD step (R360). -/
def payloadStep (s : State) : Host.Outcome State Fault Refusal :=
  if sizeAt s 0 ≤ s.sb.used then runReceived (rxAt s 0) (afterFetch s)
  else .next (s.enter .syncRecovery 1)

/-! ### SYNC_RECOVERY (R361-R363) -/

/-- The answers of `sync_cmd_at` (R363). -/
inductive SyncCmd where
  | no
  | wait
  | yes
  deriving DecidableEq, Repr

/-- `sync_cmd_at(k)` (R363). -/
def syncCmdAt (s : State) (k : Nat) : SyncCmd :=
  let h := hdrAt s k
  if !headerOkAt s k then .no
  else if h.opcode != 0x00#8 || h.channel != 0#8 then .no
  else if isResponse h.flags then .no
  else if !lengthOk s h then .no
  else if s.sb.used < k + sizeAt s k then .wait
  else if !payloadOkAt s k then .no
  else .yes

/-- Where a recovery scan ends. -/
inductive RecoveryScan where
  /-- No SYNC command: every offset before this one is classified NO. -/
  | stopped (k : Nat)
  /-- A SYNC command at this offset. -/
  | found (k : Nat)
  deriving DecidableEq, Repr

/-- The loop of R362; `fuel` bounds its turns (each raises the offset by one). -/
def recoveryScan (s : State) : Nat → Nat → RecoveryScan
  | 0, k => .stopped k
  | fuel + 1, k =>
    if s.sb.used < k + 2 then .stopped k
    else if !syncWordAt s k then recoveryScan s fuel (k + 1)
    else if s.sb.used < k + Config.headerSize then .stopped k
    else match syncCmdAt s k with
      | .wait => .stopped k
      | .yes => .found k
      | .no => recoveryScan s fuel (k + 1)

/-- The SYNC_RECOVERY step (R362); none when it would change nothing. -/
def recoveryStep (s : State) : Option (Host.Outcome State Fault Refusal) :=
  match recoveryScan s (s.sb.used + 1) (max s.ctx.scanOffset 1) with
  | .found k => some (runReceived (rxAt s k) (takeAt k s))
  | .stopped k =>
    if sizeAt s 0 ≤ s.sb.used then some (.next (s.enter .payload 0))
    else if k = s.ctx.scanOffset then none
    else some (.next (s.enter .syncRecovery k))

/-! ### WAIT_ACK (44_reliable_delivery.md R427-R430) -/

/-- Where a WAIT_ACK scan ends. -/
inductive WaitScan where
  | stopped (k : Nat)
  /-- A complete, valid matching response at this offset. -/
  | response (k : Nat)
  /-- A SYNC command at this offset. -/
  | sync (k : Nat)
  deriving DecidableEq, Repr

/-- The loop of R427; `fuel` bounds its turns (each raises the offset). -/
def waitScan (s : State) : Nat → Nat → WaitScan
  | 0, k => .stopped k
  | fuel + 1, k =>
    if s.sb.used < k + 2 then .stopped k
    else if !syncWordAt s k then waitScan s fuel (k + 1)
    else if s.sb.used < k + Config.headerSize then .stopped k
    else if !headerOkAt s k || !lengthOk s (hdrAt s k) then waitScan s fuel (k + 1)
    else if ackMatch s (hdrAt s k) then
      if s.sb.used < k + sizeAt s k then .stopped k
      else if !payloadOkAt s k then waitScan s fuel (k + 1)
      else .response k
    else match syncCmdAt s k with
      | .yes => .sync k
      | .wait => .stopped k
      | .no => if k + sizeAt s k ≤ s.sb.used then waitScan s fuel (k + sizeAt s k) else waitScan s fuel (k + 1)

/-- A matched response is consumed only at offset 0; elsewhere it is left in the buffer (R427, R436). -/
def takeResponse (k : Nat) (s : State) : State := if k = 0 then takeAt 0 s else s

/-- The WAIT_ACK scan step (R427); none when it would change nothing. -/
def waitStep (s : State) : Option (Host.Outcome State Fault Refusal) :=
  match waitScan s (s.sb.used + 1) s.ctx.scanOffset with
  | .response k => some (runReceived (rxAt s k) (takeResponse k s))
  | .sync k => some (runReceived (rxAt s k) (takeAt k s))
  | .stopped k => if k = s.ctx.scanOffset then none else some (.next (s.enter .waitAck k))

/-- The transition of WAIT_ACK: the scan step or the timeout step; when both are enabled, the environment's choice (R430,
log 6): true is the timeout. -/
def waitTransition (s : State) : Option (Host.Outcome State Fault Refusal) :=
  if timeoutEnabled s then
    match waitStep s with
    | none => some (.next (timeoutStep s))
    | some _ =>
      match draw s with
      | (true, t) => some (.next (timeoutStep t))
      | (false, t) => waitStep t
  else waitStep s

/-! ### The transition that is enabled (R350) -/

/-- The framing or delivery transition of this state, if one is enabled (R350, R373, 10_state.md R56). -/
def transition (s : State) : Option (Host.Outcome State Fault Refusal) :=
  if !s.ctx.initialised then none
  else match s.ctx.state with
    | .waitAck => waitTransition s
    | .sync => if s.ctx.inDispatch || decide (s.sb.used < 2) then none else some (.next (syncStep s))
    | .header =>
      if s.ctx.inDispatch || decide (s.sb.used < Config.headerSize) then none else some (.next (headerStep s))
    | .payload => if s.ctx.inDispatch then none else some (payloadStep s)
    | .syncRecovery => if s.ctx.inDispatch then none else recoveryStep s

end Sys2Proof.Machine
end

