-- ==== Sys2Proof/Machine/Lifecycle.lean ====
section
/-! DEFINITION. The control port and the registry port (70_reset_and_hazards.md R700-R704, 42_channel_registry.md). Every
operation here is the operation on an initialised block, but for `initBlock` and `powerOn`. -/

namespace Sys2Proof.Machine

open Sys2Proof.Config (Cfg)

/-! ### init (R700, R701) -/

/-- `valid(c)` (R701). -/
def validCfg (cap : Nat) (c : Cfg) : Bool :=
  decide (Config.minMaxPayload ≤ c.maxPayload.toNat) && decide (c.maxPayload.toNat ≤ cap - 14)
    && decide (1#32 ≤ c.baseTimeout)

/-- A successful `init` (R700, R705): every field takes its "after init" value. The parameters and the model's own fields
stay. -/
def initBlock (c : Cfg) (s : State) : State where
  par := s.par
  ctx := freshCtx true c (codeOf s .success)
  sb := freshBuffer
  reg := freshRegistry s.par.nch
  env := s.env

/-! ### Power-on (R704) -/

/-- A device restart (R704, 45_opcodes.md R510): the block is as before its first `init`. No hook is called and no result is
given. Every field but `initialised` is unspecified then and takes its power-on value (log 8); the parameters and the model's
own fields stay. -/
def powerOn (s : State) : State where
  par := s.par
  ctx := freshCtx false zeroCfg 0#16
  sb := freshBuffer
  reg := freshRegistry s.par.nch
  env := s.env

/-! ### Teardown (R703, R304, R305) -/

/-- `registry_unregister(id)` inside `registry_deinit_all` (R304): the teardown hook if there is one, then EMPTY and unset. -/
def unregisterSlot (id : Nat) (s : State) : State :=
  match registryFind s id with
  | none => s
  | some d => setLastLock id none (setSlot id none (if d.hooks.teardown then emit (.hookTeardown id) s else s))

/-- `registry_deinit_all()` (R305), ids ascending. -/
def deinitAll (s : State) : State := (List.range s.par.nch).foldl (fun t id => unregisterSlot id t) s

/-- `deinit()` (R703). Every other field is unspecified afterwards and keeps its value (log 9). -/
def deinitBlock (s : State) : State :=
  let t := deinitAll (failOpenWait s)
  t.withCtx { t.ctx with initialised := false }

/-! ### Registration (R301) -/

/-- The smallest free dynamic id (R301, R307). -/
def freeDynamicId (s : State) : Option Nat :=
  (List.range s.par.nch).find? (fun i => decide (Config.firstDynamicId ≤ i) && (registryFind s i).isNone)

/-- The id a registration takes and whether it is dynamic, or the status it is refused with (R301). -/
def chooseId (s : State) (d : DescriptorSpec) : Except Status (Nat × Bool) :=
  if hasCapability d.flags .physical then .ok (0, false)
  else match d.staticId with
    | some id => if id = 0#8 then .error .invalid else .ok (id.toNat, false)
    | none =>
      match freeDynamicId s with
      | some i => .ok (i, true)
      | none => .error .failed

/-- The descriptor that is stored (R301). -/
def storedDescriptor (d : DescriptorSpec) (id : Nat) (dyn : Bool) : Descriptor where
  id := BitVec.ofNat 8 id
  flags := setDynamic d.flags dyn
  name := d.name
  ops := d.ops
  hooks := d.hooks

/-- The CHANNEL_REGISTERED event (30_encoding.md R167). -/
def registeredEvent (s : State) (id : Nat) : Chunk :=
  ⟨0#8, 0x13#8, flagEvent, enc16 s.par.evtChannelRegistered ++ [BitVec.ofNat 8 id], false, none⟩

/-- Store the descriptor and, for a dynamic id while events are enabled, send the event; its result is ignored (R301). -/
def storeChannel (d : DescriptorSpec) (id : Nat) (dyn : Bool) (s : State) : State :=
  let t := setSlot id (some (storedDescriptor d id dyn)) s
  if dyn && t.ctx.cfg.evtEn then (sendChunk (registeredEvent t id) t).2 else t

/-- The init hook of a channel that has one; true when the registration may go on (R301). -/
def callInitHook (d : DescriptorSpec) (id : Nat) (s : State) : Bool × State :=
  if hasOp d.ops .init then
    match draw s with
    | (ok, t) => (ok, emit (.hookInit id ok) t)
  else (true, s)

/-- `registry_register(d)` (R301). -/
def registerChannel (d : DescriptorSpec) (s : State) : Ret × State :=
  match chooseId s d with
  | .error st => (.status st, s)
  | .ok (id, dyn) =>
    if s.par.nch ≤ id then (.status .invalid, s)
    else if (registryFind s id).isSome then (.status .busy, s)
    else if s.par.nameMax < d.name.length then (.status .invalid, s)
    else
      match callInitHook d id s with
      | (false, t) => (.status .failed, t)
      | (true, t) => (.channelId id, storeChannel d id dyn t)

end Sys2Proof.Machine
end

