-- ==== Sys2Proof/Machine/Ports.lean ====
section
/-! DEFINITION. The port operations (10_state.md R60-R67): what each returns, writes and faults on. -/

namespace Sys2Proof.Machine

/-- The operation ends and its caller gets `r`. -/
def answer (r : Ret) (s : State) : Host.Outcome State Fault Refusal := .next (emit (.returned r) s)

/-! ### The staging buffer (40_staging_buffer.md) -/

/-- `sb_available_to_read()` (R202). -/
def portAvailableToRead (s : State) : Host.Outcome State Fault Refusal := answer (.count s.sb.used) s

/-- `sb_available_to_write()` (R203). -/
def portAvailableToWrite (s : State) : Host.Outcome State Fault Refusal := answer (.count (s.par.cap - s.sb.used)) s

/-- `sb_peek_u16()` (R204). -/
def portPeekU16 (s : State) : Host.Outcome State Fault Refusal :=
  if s.sb.used < 2 then .fault .peekShort else answer (.half (le16 (memRead s 0 2) 0)) s

/-- `sb_data_ptr()` (R205). -/
def portDataPtr (s : State) : Host.Outcome State Fault Refusal :=
  answer (if s.sb.used = 0 then .none else .index s.sb.rd) s

/-- What `sb_claim(n)` returns and writes (R206): none is NONE, else the start of the region. -/
def claim (n : Nat) (s : State) : Option Nat × State :=
  if n = 0 then (some s.sb.wr, s)
  else if s.par.cap < s.sb.used + n then (none, s.withSb { s.sb with claimLen := 0 })
  else
    let t := claimRegion n s
    (some t.sb.wr, t)

/-- `sb_claim(n)` (R206). -/
def portClaim (n : Nat) (s : State) : Host.Outcome State Fault Refusal :=
  match claim n s with
  | (some start, t) => answer (.region start n) t
  | (none, t) => answer .none t

/-- The write lies in the claimed region (R208). -/
def fillAllowed (i len : Nat) (s : State) : Bool := decide (s.sb.wr ≤ i) && decide (i + len ≤ s.sb.wr + s.sb.claimLen)

/-- Fill (R208). -/
def portFill (i : Nat) (v : List Byte) (s : State) : Host.Outcome State Fault Refusal :=
  if fillAllowed i v.length s then answer .done (fillBytes i v s) else .fault .fillRange

/-- `sb_commit(n)` (R209). -/
def portCommit (n : Nat) (s : State) : Host.Outcome State Fault Refusal :=
  if n = 0 then answer .done s
  else if s.sb.claimLen < n then .fault .commitOver
  else answer .done (commitBytes n s)

/-- `sb_consume(n)` (R210). -/
def portConsume (n : Nat) (s : State) : Host.Outcome State Fault Refusal :=
  if n = 0 then answer .done s
  else if s.sb.used < n then .fault .consumeOver
  else answer .done (consumeBytes n s)

/-- `sb_push(b)` (R212): claim, fill, commit, all or nothing. -/
def portPush (b : List Byte) (s : State) : Host.Outcome State Fault Refusal :=
  match claim b.length s with
  | (none, t) => answer .none t
  | (some start, t) =>
    if b.isEmpty then answer .done t
    else answer .done (commitBytes b.length (fillBytes start b t))

/-! ### The registry (42_channel_registry.md) -/

/-- A descriptor or NONE. -/
def retDescriptor : Option Descriptor → Ret
  | some d => .descriptor d
  | none => .none

/-- `registry_register(d)` (R301). -/
def portRegister (d : DescriptorSpec) (s : State) : Host.Outcome State Fault Refusal :=
  match registerChannel d s with
  | (r, t) => answer r t

/-- `registry_find(id)` (R302). -/
def portFind (id : Byte) (s : State) : Host.Outcome State Fault Refusal :=
  answer (retDescriptor (registryFind s id.toNat)) s

/-- `registry_find_transport()` (R303). -/
def portFindTransport (s : State) : Host.Outcome State Fault Refusal := answer (retDescriptor (findTransport s)) s

/-- `registry_unregister(id)` on the port, which is always outside `registry_deinit_all` (R304). -/
def portUnregister (_id : Byte) (_s : State) : Host.Outcome State Fault Refusal := .fault .unregLive

/-- `registry_deinit_all()` (R305). -/
def portDeinitAll (s : State) : Host.Outcome State Fault Refusal := answer .done (deinitAll s)

/-! ### The send port (44_reliable_delivery.md) -/

/-- `send` (R420); PENDING is the result of a send that started a wait. -/
def portSend (c : Chunk) (s : State) : Host.Outcome State Fault Refusal :=
  match sendChunk c s with
  | (r, t) => answer (.sent r) t

/-- `send_ack(h, payload)` (R426). -/
def portSendAck (h : Hdr) (payload : List Byte) (s : State) : Host.Outcome State Fault Refusal :=
  portSend (ackChunk h payload) s

/-- `send_status(h, st)` (R426). -/
def portSendStatus (h : Hdr) (st : Status) (s : State) : Host.Outcome State Fault Refusal :=
  portSend (statusChunk (codeOf s st) h) s

/-! ### Tick, dispatch and control (10_state.md R62, R63, R67) -/

/-- The tick input (R62): `now` advances, and `elapsed` while a send waits (R43). -/
def tick (s : State) : State :=
  s.withCtx
    { s.ctx with
      now := s.ctx.now + 1#32
      elapsed := if s.ctx.waitForAck then sat32 (s.ctx.elapsed.toNat + 1) else s.ctx.elapsed }

/-- The tick input as a step; it returns nothing. -/
def portTick (s : State) : Host.Outcome State Fault Refusal := .next (tick s)

/-- `dispatch_done` (R63). -/
def portDispatchDone (s : State) : Host.Outcome State Fault Refusal :=
  if s.ctx.inDispatch then .next (s.withCtx { s.ctx with inDispatch := false }) else .fault .dispatchDone

/-- `init(c)` (70_reset_and_hazards.md R700). -/
def portInit (c : Config.Cfg) (s : State) : Host.Outcome State Fault Refusal :=
  if s.ctx.initialised then .fault .reinit
  else if validCfg s.par.cap c then answer (.status .success) (initBlock c s)
  else answer (.status .invalid) s

/-- `reset()` from the control port (R702). -/
def portReset (s : State) : Host.Outcome State Fault Refusal := answer .done (protocolReset s)

/-- `deinit()` (R703). -/
def portDeinit (s : State) : Host.Outcome State Fault Refusal := answer .done (deinitBlock s)

/-- Any operation but `init` on an uninitialised block raises `F_UNINIT` (10_state.md R32). -/
def guarded (s : State) (r : Host.Outcome State Fault Refusal) : Host.Outcome State Fault Refusal :=
  if s.ctx.initialised then r else .fault .uninit

/-- One port operation. -/
def execPort (op : PortOp) (s : State) : Host.Outcome State Fault Refusal :=
  match op with
  | .init c => portInit c s
  | .reset => guarded s (portReset s)
  | .deinit => guarded s (portDeinit s)
  | .sbAvailableToRead => guarded s (portAvailableToRead s)
  | .sbAvailableToWrite => guarded s (portAvailableToWrite s)
  | .sbPeekU16 => guarded s (portPeekU16 s)
  | .sbDataPtr => guarded s (portDataPtr s)
  | .sbClaim n => guarded s (portClaim n s)
  | .sbFill i v => guarded s (portFill i v s)
  | .sbCommit n => guarded s (portCommit n s)
  | .sbConsume n => guarded s (portConsume n s)
  | .sbPush b => guarded s (portPush b s)
  | .registryRegister d => guarded s (portRegister d s)
  | .registryFind id => guarded s (portFind id s)
  | .registryFindTransport => guarded s (portFindTransport s)
  | .registryUnregister id => guarded s (portUnregister id s)
  | .registryDeinitAll => guarded s (portDeinitAll s)
  | .send c => guarded s (portSend c s)
  | .sendAck h pl => guarded s (portSendAck h pl s)
  | .sendStatus h st => guarded s (portSendStatus h st s)
  | .tick => guarded s (portTick s)
  | .dispatchDone => guarded s (portDispatchDone s)

end Sys2Proof.Machine
end

