-- ==== Sys2Proof/Machine/Schedule.lean ====
section
/-! DEFINITION. Which step comes next (00_scope.md R17): the environment's oldest pending action, or, when nothing is pending,
the block's own enabled transition (log 3). Also how an instruction's packet is put where the next step takes it (log 11). -/

namespace Sys2Proof.Machine

/-- `s` with these pending actions. -/
def State.withInputs (s : State) (is : List Input) : State := s.withEnv { s.env with inputs := is }

/-- Take the next step with these pending actions. A turn that finds no transition enabled is no step (R17): the action after
it comes next. With nothing pending and no transition enabled the block is quiescent. -/
def runInputs : List Input → State → Host.Outcome State Fault Refusal
  | [], s =>
    match transition (s.withInputs []) with
    | some r => r
    | none => .refused .quiescent
  | .port op :: rest, s => execPort op (s.withInputs rest)
  | .restart :: rest, s => .next (powerOn (s.withInputs rest))
  | .turn :: rest, s =>
    match transition (s.withInputs rest) with
    | some r => r
    | none => runInputs rest s
  | .pump :: rest, s =>
    match transition (s.withInputs (.pump :: rest)) with
    | some r => r
    | none => runInputs rest s

/-- An initialised block: `s` itself, or `s` after `init` with the example configuration (log 11). -/
def ensureInit (s : State) : State := if s.ctx.initialised then s else initBlock Config.exampleCfg s

/-- The packet `bytes`, whose header has been accepted, stands alone in the buffer, and no action is pending: the PAYLOAD step
takes it next (log 11). -/
def placePacket (bytes : List Byte) (s : State) : State :=
  let t := (ensureInit s).withInputs []
  (t.withSb ⟨Memory.writeBytes [] 0 bytes, 0, bytes.length, bytes.length, 0⟩).withCtx
    { t.ctx with state := .payload, scanOffset := 0, waitForAck := false, fragRest := [], inDispatch := false }

end Sys2Proof.Machine
end

