-- ==== Sys2Proof/Machine/Step.lean ====
section
/-! DEFINITION. One step of the machine, and where a step finds its instruction. -/

namespace Sys2Proof.Machine

/-- One step (00_scope.md R17). -/
def step (s : State) : Host.Outcome State Fault Refusal := runInputs s.env.inputs s

/-- `s` with the packet of dispatch key `w` where the next step takes it (log 11). -/
def State.withFetchWord (s : State) (nbits w : Nat) : State := placePacket (tableWordBytes nbits w) s

end Sys2Proof.Machine
end

