-- ==== Sys2Proof/Machine/Contract.lean ====
section
/-! DEFINITION. The duties of the environment (60_exceptions.md R640), the boot order (70_reset_and_hazards.md R704) and the
reserved channels (30_encoding.md R165), as far as the spec fixes them. The block does not check them; a statement may assume
them. The business logic behind them is out of scope (00_scope.md R5, log 20). -/

namespace Sys2Proof.Machine

/-- A delivered packet is to be answered, unless it is an event (R640). -/
def responseExpected (h : Hdr) : Bool :=
  !(h.opcode == 0x13#8 || h.opcode == 0x29#8 || hasFlag h.flags flagEvent)

/-- The operation is a response to this header (R640: `send_ack` or `send_status`, echoing the request). -/
def answersHeader (h : Hdr) : PortOp → Bool
  | .sendAck h' _ => h' == h
  | .sendStatus h' _ => h' == h
  | _ => false

/-- What the dispatcher may do with a delivered packet (R640): exactly one response, or none for an event, then
`dispatch_done`. -/
def answerAllowed (h : Hdr) : List PortOp → Bool
  | [.dispatchDone] => !responseExpected h
  | [op, .dispatchDone] => responseExpected h && answersHeader h op
  | _ => false

/-- How the dispatcher may answer a delivered RESET (45_opcodes.md R510): it restarts the device, and may have acknowledged the
request before. DESIGN CHOICE (log 31), two points. No acknowledgment is allowed for a RESET flagged EVENT: R510 says that the
dispatcher acknowledges, R640 that a packet flagged EVENT gets no response, and R640 is followed. And `dispatch_done` may come
before the restart after an acknowledgment, or without one where none is expected, but not where one is still due; neither rule
says whether it is signalled before the restart. -/
def resetAnswerAllowed (h : Hdr) : List Input → Bool
  | [.restart] => true
  | [.port .dispatchDone, .restart] => !responseExpected h
  | [.port (.sendAck h' _), .restart] => responseExpected h && h' == h
  | [.port (.sendAck h' _), .port .dispatchDone, .restart] => responseExpected h && h' == h
  | _ => false

/-- What a LIST answer may show of a registered channel (30_encoding.md R166, R169). -/
def listEntry (d : Descriptor) : Config.ListEntry := ⟨d.id, d.name, d.flags, d.ops⟩

/-- The entries of a LIST answer: one for every registered channel, in ascending id order (45_opcodes.md R530). -/
def listEntries (s : State) : List Config.ListEntry :=
  (List.range s.par.nch).filterMap (fun i => (registryFind s i).map listEntry)

/-- The payload the contract gives a LIST answer (45_opcodes.md R530). -/
def listAnswer (s : State) : List Byte := (Config.listLayout s.par.nameMax).payload (listEntries s)

/-- The payload the contract gives a SYSTEM_INFO answer (45_opcodes.md R512). -/
def systemInfoAnswer (s : State) : List Byte := Config.sysinfoPayload s.ctx.cfg

/-- The argument-length check the contract asks for before an IOCTL (45_opcodes.md R538): of static channels only. The
argument length is what `argLength` says of the payload, whose layout the source does not give. A command that has no entry
in the table gets no verdict, and so passes: DESIGN CHOICE, the spec does not say what the check makes of it (log 26). -/
def ioctlVerdict (d : Descriptor) (argLength : List Byte → Nat) (payload : List Byte) : Option Status :=
  if hasCapability d.flags .dynamic then none
  else match Config.ioctlTable d.id payload with
    | some n => if argLength payload = n then none else some .invalid
    | none => none

/-- The capability flags of a reserved channel (R165); none for an id that is not reserved. -/
def reservedFlags (id : Nat) : Option (BitVec 6) :=
  match id with
  | 0 => some 0b010000#6
  | 1 => some 0b000010#6
  | 2 => some 0b000001#6
  | 3 => some 0b001101#6
  | 4 => some 0b000101#6
  | _ => none

/-- The operations a reserved channel must have: read, write, size and is-active for the transport (R704), write and exec for
script-input (R165); none named for the others. -/
def reservedOps (id : Nat) : BitVec 13 :=
  match id with
  | 0 => 0b0100011010000#13
  | 1 => 0b1000010000000#13
  | _ => 0#13

/-- The operations a reserved channel may have beside those (log 25). R165 lists all of script-input's. For 2-4 it lists none:
a read-only channel may have any but write and exec, and lock and unlock only when it is lockable. -/
def freeOps (id : Nat) : BitVec 13 :=
  match id with
  | 2 => 0b0111101110011#13
  | 3 => 0b0111101111111#13
  | 4 => 0b0111101111111#13
  | _ => 0#13

/-- The operations are ones the reserved channel can have (R165, R704). -/
def opsFit (id : Nat) (ops : BitVec 13) : Bool :=
  ops &&& reservedOps id == reservedOps id && ops &&& ~~~(reservedOps id ||| freeOps id) == 0#13

/-- The transport descriptor of the boot order (R704): PHYSICAL, with read, write, size and is-active. -/
def transportSpec (name : List Byte) (hooks : Hooks) : DescriptorSpec where
  flags := 0b010000#6
  staticId := none
  name := name
  ops := reservedOps 0
  hooks := hooks

/-- A static channel as the build provides it (R704): a reserved id, and what the spec leaves to the build, its name, its
operations as far as they fit, and its hooks (log 25). -/
structure StaticChannel where
  id : Byte
  name : List Byte
  ops : BitVec 13
  hooks : Hooks
  deriving DecidableEq, Repr

/-- The descriptor of a static channel 1-4 (R165, R704); none for another id or for operations that do not fit. -/
def staticSpec (c : StaticChannel) : Option DescriptorSpec :=
  if c.id ≠ 0#8 ∧ opsFit c.id.toNat c.ops = true then
    (reservedFlags c.id.toNat).map (fun f => ⟨f, some c.id, c.name, c.ops, c.hooks⟩)
  else none

/-- The descriptor is registered dynamically (R301): it is not the transport's and asks for no id. -/
def isDynamicSpec (d : DescriptorSpec) : Bool := !hasCapability d.flags .physical && d.staticId.isNone

/-- The boot order (R704): `init`, the transport, the static channels the build provides, the dynamic channels. -/
def bootOps (c : Config.Cfg) (transportName : List Byte) (transportHooks : Hooks) (statics : List StaticChannel)
    (dynamics : List DescriptorSpec) : List PortOp :=
  .init c :: .registryRegister (transportSpec transportName transportHooks)
    :: (statics.filterMap staticSpec ++ dynamics.filter isDynamicSpec).map PortOp.registryRegister

end Sys2Proof.Machine
end

