-- ==== Sys2Proof/Safety.lean ====
section
/-! DEFINITION. What every run keeps: the invariants the spec gives the block's state, in the terms the statements use. Before
the first `init` and after `deinit` every field but `initialised` is unspecified (70_reset_and_hazards.md R703, R704), so the
invariants speak of an initialised block. -/

namespace Sys2Proof.Machine

open Sys2Proof.Config (Params Cfg)

/-- The constraints on the parameters (92_eei_decisions.md, "Open parameters"). -/
structure ParamsValid (p : Params) : Prop where
  cap : 64 ≤ p.cap
  nch : 6 ≤ p.nch
  nchMax : p.nch ≤ 256
  version : p.versionPayload.length ≤ 50
  codesDistinct : (statusCodes p.statusCode).Nodup
  pendingUnused : pendingCode ∉ statusCodes p.statusCode

/-- The invariants of the staging buffer (10_state.md R48-R50): the cursors are consistent, the live claim lies inside the
buffer, and every readable byte has a value. -/
structure BufferValid (cap : Nat) (b : StagingBuffer) : Prop where
  cursors : b.rd + b.used = b.wr
  room : b.wr + b.claimLen ≤ cap
  drained : b.used = 0 → b.rd = 0 ∧ b.wr = 0
  canonical : Memory.wf b.bytes = true
  inside : ∀ c ∈ b.bytes, c.1 < cap
  readable : ∀ i, b.rd ≤ i → i < b.wr → (Memory.read b.bytes i).isSome = true

/-- A configuration `init` accepts (R701), which SET_CAPS keeps (45_opcodes.md R502). -/
structure CfgValid (cap : Nat) (c : Cfg) : Prop where
  min : Config.minMaxPayload ≤ c.maxPayload.toNat
  max : c.maxPayload.toNat + 14 ≤ cap
  timeout : 1#32 ≤ c.baseTimeout

/-- The invariants of a wait (10_state.md R36, R39, R42-R44, R57; 44_reliable_delivery.md R430). -/
structure WaitValid (c : Ctx) : Prop where
  flag : c.waitForAck = true ↔ c.state = .waitAck
  timeout : c.waitForAck = true → 1#32 ≤ c.timeoutCur
  held : c.waitForAck = true → ∃ p, c.txHold = some p ∧ p.payload.length ≤ c.cfg.maxPayload.toNat
  idle : c.waitForAck = false →
    c.retriesLeft = 0#8 ∧ c.timeoutCur = 0#32 ∧ c.elapsed = 0#32 ∧ c.txHold = none ∧ c.fragRest = []
  chunks : ∀ k ∈ c.fragRest, k.payload.length ≤ c.cfg.maxPayload.toNat

/-- The invariants of the scan offset (10_state.md R34): in `0..CAP`, and 0 outside SYNC_RECOVERY and WAIT_ACK. -/
structure ScanValid (cap : Nat) (c : Ctx) : Prop where
  bound : c.scanOffset ≤ cap
  unused : c.state ≠ .syncRecovery → c.state ≠ .waitAck → c.scanOffset = 0

/-- The invariants of the registry (10_state.md R51, R54): its size, and id = slot index with a name that fits. -/
structure RegistryValid (p : Params) (r : Registry) : Prop where
  slots : r.slots.length = p.nch
  locks : r.lastLock.length = p.nch
  ids : ∀ (i : Nat) (d : Descriptor), r.slots[i]? = some (some d) → d.id.toNat = i ∧ d.name.length ≤ p.nameMax

/-- What an initialised block keeps. -/
structure Live (s : State) : Prop where
  buffer : BufferValid s.par.cap s.sb
  cfg : CfgValid s.par.cap s.ctx.cfg
  defaultCfg : CfgValid s.par.cap s.ctx.defaultCfg
  wait : WaitValid s.ctx
  scan : ScanValid s.par.cap s.ctx
  registry : RegistryValid s.par s.reg

/-- The invariant of the machine. -/
structure Inv (s : State) : Prop where
  params : ParamsValid s.par
  live : s.ctx.initialised = true → Live s

/-! ### Terms of the statements -/

/-- The readable bytes (R211): `MemRead(0, used)`. -/
def readable (s : State) : List Byte := memRead s 0 s.sb.used

/-- The transport is registered and answers that it is active and takes the next packet; `rest` is what it would answer
after that (10_state.md R64). -/
def TransportTakes (s : State) (rest : List Bool) : Prop :=
  (findTransport s).isSome = true ∧ s.env.answers = true :: true :: rest

/-- The transport does not take the next packet, `bytes`: it is missing, answers that it is not active, or its write fails; `e`
is what the environment is then (44_reliable_delivery.md R423). -/
def TransportFails (s : State) (bytes : List Byte) (e : Env) : Prop :=
  (findTransport s = none ∧ e = s.env) ∨
    ((findTransport s).isSome = true ∧
      ((∃ rest, s.env.answers = false :: rest ∧ e = { s.env with answers := rest }) ∨
        ∃ rest, s.env.answers = true :: false :: rest ∧
          e = { s.env with answers := rest, outputs := s.env.outputs ++ [.tWrite bytes false] }))

/-- At the deadline of a wait the timeout step is the one that fires: it is the only one enabled, or the environment chooses it;
`u` is `s` after the choice (44_reliable_delivery.md R430, log 6). -/
def TimeoutFires (s u : State) : Prop :=
  s.ctx.timeoutCur ≤ s.ctx.elapsed ∧ ((waitStep s = none ∧ u = s) ∨ (waitStep s ≠ none ∧ draw s = (true, u)))

/-- In a wait the scan step, where it is enabled, is the one that fires: the deadline is not reached, or the environment chooses
it there; `u` is `s` after the choice (44_reliable_delivery.md R430, log 6). -/
def ScanFires (s u : State) : Prop :=
  (s.ctx.elapsed < s.ctx.timeoutCur ∧ u = s) ∨ (s.ctx.timeoutCur ≤ s.ctx.elapsed ∧ draw s = (false, u))

/-- `s` after one successful transport write of `bytes` for a packet without the EVENT flag (44_reliable_delivery.md R423). -/
def State.afterWrite (s : State) (bytes : List Byte) (rest : List Bool) : State :=
  { s with
    ctx := { s.ctx with stats := { s.ctx.stats with sent := s.ctx.stats.sent + 1#32 } }
    env := { s.env with answers := rest, outputs := s.env.outputs ++ [.tWrite bytes true] } }

/-- `s` after one transport write that could not be made; `e` is what the environment is then (44_reliable_delivery.md R423). -/
def State.afterFailure (s : State) (e : Env) : State :=
  { s with
    ctx := { s.ctx with stats := { s.ctx.stats with transportErrors := s.ctx.stats.transportErrors + 1#32 } }
    env := e }

/-- `t` is `s` after one transport write of `bytes`, for a packet without the EVENT flag, whether the transport takes it or not
(44_reliable_delivery.md R423). -/
def WriteEnds (s : State) (bytes : List Byte) (t : State) : Prop :=
  (∃ rest, TransportTakes s rest ∧ t = s.afterWrite bytes rest) ∨ ∃ e, TransportFails s bytes e ∧ t = s.afterFailure e

/-- `s` with `ctx.seq` advanced, unless the packet is exempt (43_framing_fsm.md R371). -/
def State.afterAccept (s : State) (h : Hdr) : State :=
  { s with ctx := { s.ctx with seq := if exempt h then s.ctx.seq else s.ctx.seq + 1#8 } }

/-- `s` with a packet on the dispatch port (43_framing_fsm.md R372). -/
def State.afterDelivery (s : State) (p : Pkt) : State :=
  { s with
    ctx := { s.ctx with inDispatch := true }
    env := { s.env with outputs := s.env.outputs ++ [.deliver p] } }

/-- The response packet of `send_ack` or `send_status` (44_reliable_delivery.md R426): the request's channel, opcode and
sequence, and the flag. -/
def responseBytes (p : Params) (h : Hdr) (flag : Byte) (payload : List Byte) : List Byte :=
  buildPacket p h.sequence h.channel flag h.opcode payload

/-- `s` after an accepted packet was handed to the dispatcher (43_framing_fsm.md R371, R372). -/
def deliveredState (i : Instr) (s : State) : State :=
  (s.afterAccept i.rx.hdr).afterDelivery ⟨i.rx.hdr, i.rx.payload⟩

/-- `s` after `reset` has written every field it writes, without what it puts on the ports
(70_reset_and_hazards.md R705). -/
def resetCtx (c : Ctx) : Ctx :=
  { c with
    cfg := c.defaultCfg, state := .sync, scanOffset := 0, seq := 0#8, waitForAck := false, ackOpcode := 0#8,
    ackSequence := 0#8, retriesLeft := 0#8, timeoutCur := 0#32, elapsed := 0#32, txHold := none, fragRest := [] }

/-- The context after a wait has ended with a status (44_reliable_delivery.md R436, R437). -/
def endedCtx (c : Ctx) (code : Half) : Ctx :=
  { c with
    ackStatus := code, waitForAck := false, retriesLeft := 0#8, timeoutCur := 0#32, elapsed := 0#32, txHold := none,
    state := .sync, scanOffset := 0, fragRest := [] }

/-- The context after a wait has started for `p` (44_reliable_delivery.md R424). -/
def waitingCtx (c : Ctx) (p : Pkt) : Ctx :=
  { c with
    waitForAck := true, ackOpcode := p.hdr.opcode, ackSequence := p.hdr.sequence, ackStatus := 0xFFFF#16,
    retriesLeft := c.cfg.retryCount, timeoutCur := c.cfg.baseTimeout, elapsed := 0#32, txHold := some p,
    state := .waitAck, scanOffset := 0 }

/-- `reset` calls the channel's unlock hook (70_reset_and_hazards.md R702). -/
def unlocksAt (s : State) (id : Nat) : Bool :=
  (registryFind s id).any (fun d => hasCapability d.flags .lockable && hasOp d.ops .unlock)

/-- Removing the channel calls its teardown hook (42_channel_registry.md R304). -/
def tearsDownAt (s : State) (id : Nat) : Bool := (registryFind s id).any (fun d => d.hooks.teardown)

/-- The channel has the operation. -/
def channelHas (s : State) (channel : Byte) (op : ChannelOp) : Prop :=
  ∃ d, registryFind s channel.toNat = some d ∧ hasOp d.ops op = true

/-- `t` can be reached from `s` by steps. -/
inductive Reaches : State → State → Prop where
  | here (s : State) : Reaches s s
  | later {s t u : State} (h : step s = .next t) (r : Reaches t u) : Reaches s u

/-- The WAIT_ACK scan passes from an offset to another one without stopping (44_reliable_delivery.md R427, R429). One byte: no
sync word, a header CRC or length that fails, a matching response whose payload CRC fails, an incomplete packet that is
neither a response to the wait nor a SYNC command. The whole packet: a complete one of that last kind. -/
inductive WaitPasses (s : State) : Nat → Nat → Prop where
  | here (k : Nat) : WaitPasses s k k
  | noSyncWord {k j : Nat} (room : k + 2 ≤ s.sb.used) (word : syncWordAt s k = false) (next : WaitPasses s (k + 1) j) :
      WaitPasses s k j
  | badHeader {k j : Nat} (room : k + 10 ≤ s.sb.used) (word : syncWordAt s k = true)
      (bad : headerOkAt s k = false ∨ s.ctx.cfg.maxPayload < (hdrAt s k).length) (next : WaitPasses s (k + 1) j) :
      WaitPasses s k j
  | badPayload {k j : Nat} (word : syncWordAt s k = true) (good : headerOkAt s k = true)
      (fits : (hdrAt s k).length ≤ s.ctx.cfg.maxPayload) (matching : ackMatch s (hdrAt s k) = true)
      (complete : k + sizeAt s k ≤ s.sb.used) (bad : payloadOkAt s k = false) (next : WaitPasses s (k + 1) j) :
      WaitPasses s k j
  | skipped {k j : Nat} (word : syncWordAt s k = true) (good : headerOkAt s k = true)
      (fits : (hdrAt s k).length ≤ s.ctx.cfg.maxPayload) (other : ackMatch s (hdrAt s k) = false)
      (noSync : syncCmdAt s k = .no) (complete : k + sizeAt s k ≤ s.sb.used) (next : WaitPasses s (k + sizeAt s k) j) :
      WaitPasses s k j
  | incomplete {k j : Nat} (room : k + 10 ≤ s.sb.used) (word : syncWordAt s k = true) (good : headerOkAt s k = true)
      (fits : (hdrAt s k).length ≤ s.ctx.cfg.maxPayload) (other : ackMatch s (hdrAt s k) = false)
      (noSync : syncCmdAt s k = .no) (short : s.sb.used < k + sizeAt s k) (next : WaitPasses s (k + 1) j) :
      WaitPasses s k j

/-- The WAIT_ACK scan stops at an offset to wait for bytes (44_reliable_delivery.md R427): no sync word fits, the header is
still arriving, or a response to the wait or a SYNC command is. -/
def WaitStops (s : State) (k : Nat) : Prop :=
  s.sb.used < k + 2 ∨
    (syncWordAt s k = true ∧
      (s.sb.used < k + 10 ∨
        (headerOkAt s k = true ∧ (hdrAt s k).length ≤ s.ctx.cfg.maxPayload ∧
          ((ackMatch s (hdrAt s k) = true ∧ s.sb.used < k + sizeAt s k) ∨
            (ackMatch s (hdrAt s k) = false ∧ syncCmdAt s k = .wait)))))

/-- The SYNC_RECOVERY scan passes an offset (43_framing_fsm.md R362). -/
def RecoveryPasses (s : State) (k : Nat) : Prop :=
  k + 2 ≤ s.sb.used ∧ (syncWordAt s k = true → k + 10 ≤ s.sb.used ∧ syncCmdAt s k = .no)

/-- The SYNC_RECOVERY scan stops at an offset to wait for bytes (43_framing_fsm.md R362). -/
def RecoveryStops (s : State) (k : Nat) : Prop :=
  s.sb.used < k + 2 ∨ (syncWordAt s k = true ∧ (s.sb.used < k + 10 ∨ syncCmdAt s k = .wait))

/-- `n` tick pulses, each followed by a pump (30_encoding.md R176). -/
def tickInputs : Nat → List Input
  | 0 => []
  | n + 1 => .port .tick :: .pump :: tickInputs n

end Sys2Proof.Machine
end

