-- ==== Sys2Proof/Certificates/Slice0/Obligations.lean ====
section
/-! DEFINITION. The statements for the provers. Each docstring names the rule of spec/ it formalises. `s.env.inputs = []` says
that no action of the environment is pending, so that the block's own transition comes next (log 3). "The transport takes the
next packet" is `TransportTakes s rest`: a transport is registered, and the environment's next two answers (active, written)
are yes. `WriteEnds s bytes t` says that `t` is `s` after one transport write of `bytes`, taken or not. -/

open Sys2Proof Sys2Proof.Machine

/-! ### Encoding (30_encoding.md) -/

/-- R140, R151: decoding the bytes of any well-formed instruction, whatever follows them, gives it back and leaves the rest. -/
def Obligations.DecodeEncodeRoundTrip : Prop :=
  ∀ (i : Instr) (rest : List Byte), i.wellFormed = true → decode (encode i ++ rest) = .ok (i, rest)

/-- R140, R142: bytes that decode are the bytes of the instruction they decode to, and it is well-formed; so no two byte
sequences spell one instruction. -/
def Obligations.DecodedBytesAreTheEncoding : Prop :=
  ∀ (bs : List Byte) (i : Instr) (rest : List Byte), decode bs = .ok (i, rest) →
    i.wellFormed = true ∧ bs = encode i ++ rest

/-- R151: the dispatch key `(flags << 8) | opcode` classifies a received packet: NAK first, then ACK, for any opcode; else
the row of the opcode table; a code of no row is no instruction. -/
def Obligations.DispatchKeyClassifies : Prop :=
  ∀ p : Rx,
    let key : BitVec 16 := (p.hdr.flags.setWidth 16 <<< 8) ||| p.hdr.opcode.setWidth 16
    let u := p.hdr.flags.extractLsb' 2 6
    let rows : List (Nat × (UpperFlags → Frame → Instr)) :=
      [(0x00, .sync), (0x01, .getCaps), (0x02, .setCaps), (0x03, .stats), (0x04, .version), (0x10, .reset),
       (0x11, .enterBootloader), (0x12, .systemInfo), (0x13, .systemEvent), (0x20, .list), (0x21, .poll), (0x22, .lock),
       (0x23, .unlock), (0x24, .shape), (0x25, .size), (0x26, .read), (0x27, .write), (0x28, .ioctl), (0x29, .event)]
    if key &&& 0x0200#16 = 0x0200#16 then
      classify p = some (.nak p.hdr.opcode (decide (key &&& 0x0100#16 = 0x0100#16)) u p.frame)
    else if key &&& 0x0100#16 = 0x0100#16 then classify p = some (.ack p.hdr.opcode u p.frame)
    else (∀ r ∈ rows, (key &&& 0x00FF#16).toNat = r.1 → classify p = some (r.2 u p.frame)) ∧
      ((∀ r ∈ rows, (key &&& 0x00FF#16).toNat ≠ r.1) → classify p = none)

/-- R140, R147 (the examples of R501, R537 and R531): three packets, written out byte by byte, decode to the instructions
they stand for. -/
def Obligations.ExamplePacketsDecode : Prop :=
  decode [0xAA, 0xD5, 0x00, 0x00, 0x00, 0x01, 0x00, 0x00, 0x52, 0x29]
      = .ok (.getCaps 0#6 ⟨0x00, 0x00, 0x2952, [], 0⟩, []) ∧
    decode [0xAA, 0xD5, 0x02, 0x01, 0x00, 0x27, 0x02, 0x00, 0x47, 0x5A, 0x61, 0x62, 0x6D, 0x48, 0x83, 0x9E]
      = .ok (.write 0#6 ⟨0x02, 0x01, 0x5A47, [0x61, 0x62], 0x9E83486D⟩, []) ∧
    decode [0xAA, 0xD5, 0x03, 0x02, 0x01, 0x21, 0x00, 0x00, 0x43, 0x53]
      = .ok (.ack 0x21 0#6 ⟨0x03, 0x02, 0x5343, [], 0⟩, [])

/-- R355: a packet is exempt exactly when ACK, NAK or EVENT is set or its opcode is SYNC, SYSTEM_EVENT or EVENT; an exempt
packet passes the sequence check and does not advance `ctx.seq`. -/
def Obligations.ExemptPackets : Prop :=
  ∀ (s : State) (h : Hdr),
    (exempt h = true ↔ h.flags &&& 0x23#8 ≠ 0#8 ∨ h.opcode = 0x00#8 ∨ h.opcode = 0x13#8 ∨ h.opcode = 0x29#8) ∧
      (exempt h = true → seqOk s h = true ∧ ∀ p : Rx, p.hdr = h → (acceptSeq p s).ctx.seq = s.ctx.seq)

/-! ### Packet codec (41_packet_codec.md) -/

/-- R260 (a property the spec marks as derived): a built header verifies, and with one byte changed it does not, for every
`crc16` that detects a changed byte (00_scope.md R9). -/
def Obligations.HeaderRoundTrip : Prop :=
  ∀ (par : Config.Params), DetectsByteChange par.crc16 → ∀ (sq ch fl op : Byte) (ln : Half),
    verifyHeaderCrc par true (buildHeader par sq ch fl op ln) = true ∧
      ∀ k, k < 10 → ∀ b : Byte, (buildHeader par sq ch fl op ln)[k]? ≠ some b →
        verifyHeaderCrc par true ((buildHeader par sq ch fl op ln).set k b) = false

/-- R252, R255, R254: a built packet has `packet_total_size` bytes, its header and its payload CRC verify, and bits 6 and 7
of its flags byte are 0. -/
def Obligations.BuiltPacketVerifies : Prop :=
  ∀ (par : Config.Params) (crcEn : Bool) (sq ch fl op : Byte) (pl : List Byte), pl.length < 65536 →
    let b := buildPacket par sq ch fl op pl
    b.length = 10 + pl.length + (if 0 < pl.length then 4 else 0) ∧
      b.length = packetTotalSize (hdrOf b).length ∧
      verifyHeaderCrc par crcEn (b.take 10) = true ∧
      verifyPayloadCrc par crcEn (b.take 10) (b.drop 10) = true ∧
      (hdrOf b).flags &&& 0xC0#8 = 0#8 ∧ (hdrOf b).flags = fl &&& 0x3F#8

/-- R256: marking a built header as a retransmission sets RTX, keeps every other bit and recomputes the header CRC; marking
it twice is marking it once. -/
def Obligations.MarkRtxSetsOneBit : Prop :=
  ∀ (par : Config.Params) (sq ch fl op : Byte) (ln : Half),
    markRtx par (buildHeader par sq ch fl op ln) = buildHeader par sq ch (fl ||| 0x04#8) op ln ∧
      markRtx par (markRtx par (buildHeader par sq ch fl op ln)) = markRtx par (buildHeader par sq ch fl op ln) ∧
      (∀ k, k < 8 → k ≠ 4 →
        (markRtx par (buildHeader par sq ch fl op ln))[k]? = (buildHeader par sq ch fl op ln)[k]?) ∧
      verifyHeaderCrc par true (markRtx par (buildHeader par sq ch fl op ln)) = true

/-! ### Staging buffer (40_staging_buffer.md) -/

/-- R206: what `sb_claim(n)` returns and writes in each case. -/
def Obligations.ClaimResult : Prop :=
  ∀ (s : State) (n : Nat), s.ctx.initialised = true → BufferValid s.par.cap s.sb →
    if n = 0 then execPort (.sbClaim n) s = .next (emit (.returned (.region s.sb.wr 0)) s)
    else if s.par.cap < s.sb.used + n then
      execPort (.sbClaim n) s = .next (emit (.returned .none) { s with sb := { s.sb with claimLen := 0 } })
    else ∃ t : State, execPort (.sbClaim n) s = .next (emit (.returned (.region t.sb.wr n)) t) ∧
      t.par = s.par ∧ t.ctx = s.ctx ∧ t.reg = s.reg ∧ t.env = s.env ∧
      t.sb.claimLen = n ∧ t.sb.used = s.sb.used ∧ readable t = readable s ∧
      (if n ≤ s.par.cap - s.sb.wr then t.sb.rd = s.sb.rd ∧ t.sb.wr = s.sb.wr
        else 0 < s.sb.rd ∧ t.sb.rd = 0 ∧ t.sb.wr = s.sb.used)

/-- R212, R211: a push that fits appends its bytes to the readable ones; a push that does not fit is refused whole. -/
def Obligations.PushAppendsOrIsRefused : Prop :=
  ∀ (s : State) (b : List Byte), s.ctx.initialised = true → BufferValid s.par.cap s.sb →
    if s.sb.used + b.length ≤ s.par.cap then
      ∃ t : State, execPort (.sbPush b) s = .next (emit (.returned .done) t) ∧ readable t = readable s ++ b ∧
        t.sb.used = s.sb.used + b.length ∧ t.par = s.par ∧ t.ctx = s.ctx ∧ t.reg = s.reg ∧
        t.env.inputs = s.env.inputs ∧ t.env.answers = s.env.answers ∧ t.env.outputs = s.env.outputs
    else execPort (.sbPush b) s = .next (emit (.returned .none) { s with sb := { s.sb with claimLen := 0 } })

/-- R206, R208, R209, R211: claiming `n` bytes, filling the front of the region and committing what was filled appends it to
the readable bytes; the rest of the claim is dropped. -/
def Obligations.ClaimFillCommitAppends : Prop :=
  ∀ (s : State) (n : Nat) (v : List Byte), s.ctx.initialised = true → BufferValid s.par.cap s.sb →
    s.sb.used + n ≤ s.par.cap → 0 < v.length → v.length ≤ n →
    ∃ t u w : State, execPort (.sbClaim n) s = .next t ∧ execPort (.sbFill t.sb.wr v) t = .next u ∧
      readable u = readable s ∧ u.sb.used = s.sb.used ∧
      execPort (.sbCommit v.length) u = .next w ∧ readable w = readable s ++ v ∧ w.sb.claimLen = 0

/-- R210: `sb_consume(n)` removes `n` bytes from the front; draining the buffer resets both cursors; more than is there
faults. That the bytes consumed keep the values that are listed for them (`sb.bytes` unchanged) is the model's choice (DESIGN
CHOICE, log 7): R48 leaves them unspecified. -/
def Obligations.ConsumeDropsFront : Prop :=
  ∀ (s : State) (n : Nat), s.ctx.initialised = true →
    if n = 0 then execPort (.sbConsume n) s = .next (emit (.returned .done) s)
    else if s.sb.used < n then execPort (.sbConsume n) s = .fault .consumeOver
    else ∃ t : State, execPort (.sbConsume n) s = .next (emit (.returned .done) t) ∧
      readable t = (readable s).drop n ∧ t.sb.bytes = s.sb.bytes ∧ t.sb.claimLen = 0 ∧
      t.par = s.par ∧ t.ctx = s.ctx ∧ t.reg = s.reg ∧ t.env = s.env ∧
      (if n = s.sb.used then t.sb.rd = 0 ∧ t.sb.wr = 0 ∧ t.sb.used = 0
        else t.sb.rd = s.sb.rd + n ∧ t.sb.wr = s.sb.wr ∧ t.sb.used = s.sb.used - n)

/-- R213: the zero-size operations raise no fault and write no state. -/
def Obligations.ZeroSizeOperations : Prop :=
  ∀ s : State, s.ctx.initialised = true →
    execPort (.sbClaim 0) s = .next (emit (.returned (.region s.sb.wr 0)) s) ∧
      execPort (.sbCommit 0) s = .next (emit (.returned .done) s) ∧
      execPort (.sbConsume 0) s = .next (emit (.returned .done) s)

/-- R214, R209: after `sb_consume(n > 0)`, and after a refused claim, every `sb_commit(m > 0)` faults. -/
def Obligations.InvalidatedClaimCannotCommit : Prop :=
  ∀ (s t : State) (n m : Nat), 0 < n → 0 < m →
    execPort (.sbConsume n) s = .next t ∨ execPort (.sbClaim n) s = .next (emit (.returned .none) t) →
    execPort (.sbCommit m) t = .fault .commitOver

/-- R107: the read operations return a value and write nothing; what they return (R202, R203, R204, R205). `registry_find` gives
the descriptor of an occupied slot below NCH, else NONE (R302); `registry_find_transport` the one in slot 0 if it has the
operations read, write, size and is-active (bits 6, 7, 4 and 11), whatever its flags, else NONE (R303). -/
def Obligations.ReadsWriteNothing : Prop :=
  ∀ (s : State) (id : Byte), s.ctx.initialised = true →
    let found (i : Nat) (d : Descriptor) := i < s.par.nch ∧ s.reg.slots[i]? = some (some d)
    let carries (d : Descriptor) := d.ops.getLsbD 6 ∧ d.ops.getLsbD 7 ∧ d.ops.getLsbD 4 ∧ d.ops.getLsbD 11
    let gives (op : PortOp) (r : Ret) := execPort op s = .next (emit (.returned r) s)
    gives .sbAvailableToRead (.count s.sb.used) ∧ gives .sbAvailableToWrite (.count (s.par.cap - s.sb.used)) ∧
      gives .sbDataPtr (if s.sb.used = 0 then .none else .index s.sb.rd) ∧
      (2 ≤ s.sb.used → gives .sbPeekU16 (.half (byteAt s (s.sb.rd + 1) ++ byteAt s s.sb.rd))) ∧
      (∀ d, found id.toNat d → gives (.registryFind id) (.descriptor d)) ∧
      ((∀ d, ¬ found id.toNat d) → gives (.registryFind id) .none) ∧
      (∀ d, found 0 d → carries d → gives .registryFindTransport (.descriptor d)) ∧
      ((∀ d, found 0 d → ¬ carries d) → gives .registryFindTransport .none)

/-! ### Model faults (60_exceptions.md R601) -/

/-- R601: a port operation faults exactly under the listed conditions, is never refused, and no framing or delivery
transition faults. -/
def Obligations.FaultsExactlyAsListed : Prop :=
  (∀ (s : State) (op : PortOp),
    match op with
    | .init c => if s.ctx.initialised then execPort op s = .fault .reinit else ∃ t, execPort (.init c) s = .next t
    | op =>
      if s.ctx.initialised = false then execPort op s = .fault .uninit
      else match op with
        | .sbPeekU16 => if s.sb.used < 2 then execPort op s = .fault .peekShort else ∃ t, execPort op s = .next t
        | .sbFill i v =>
          if s.sb.wr ≤ i ∧ i + v.length ≤ s.sb.wr + s.sb.claimLen then ∃ t, execPort op s = .next t
          else execPort op s = .fault .fillRange
        | .sbCommit n => if s.sb.claimLen < n then execPort op s = .fault .commitOver else ∃ t, execPort op s = .next t
        | .sbConsume n => if s.sb.used < n then execPort op s = .fault .consumeOver else ∃ t, execPort op s = .next t
        | .registryUnregister _ => execPort op s = .fault .unregLive
        | .dispatchDone =>
          if s.ctx.inDispatch = false then execPort op s = .fault .dispatchDone else ∃ t, execPort op s = .next t
        | _ => ∃ t, execPort op s = .next t) ∧
  ∀ (s : State) (r : Host.Outcome State Fault Refusal), transition s = some r → ∃ t, r = .next t

/-! ### Channel registry (42_channel_registry.md) -/

/-- R307 (a property the spec marks as derived), R301, R167: a registration without a static id takes the smallest free id of 5
or more, or FAILS when none is free. A name too long gets INVALID; an init hook is called, and when it fails the registration
FAILS and leaves no trace. Else the descriptor is stored with DYNAMIC set, and with events enabled exactly one
CHANNEL_REGISTERED event is sent; the registration stands whether or not the event is written. -/
def Obligations.DynamicRegistration : Prop :=
  ∀ (s : State) (d : DescriptorSpec), s.ctx.initialised = true → s.par.nch ≤ 256 →
    hasCapability d.flags .physical = false → d.staticId = none → 3 ≤ s.ctx.cfg.maxPayload.toNat →
    let ends (t : State) : Prop := execPort (.registryRegister d) s = .next t
    ((∀ i, 5 ≤ i → i < s.par.nch → registryFind s i ≠ none) → ends (emit (.returned (.status .failed)) s)) ∧
    ∀ i, 5 ≤ i → i < s.par.nch → registryFind s i = none → (∀ j, 5 ≤ j → j < i → registryFind s j ≠ none) →
      let stored : Descriptor :=
        ⟨BitVec.ofNat 8 i, (d.flags &&& 0b011111#6) ||| 0b100000#6, d.name, d.ops, d.hooks⟩
      let event := buildPacket s.par s.ctx.seq 0x00#8 0x20#8 0x13#8
        (enc16 s.par.evtChannelRegistered ++ [BitVec.ofNat 8 i])
      let registered (t : State) : Prop :=
        let u : State := { t with reg := { t.reg with slots := t.reg.slots.set i (some stored) } }
        if s.ctx.cfg.evtEn then
          (∀ rest, TransportTakes u rest → ends
            { u with
              ctx := { u.ctx with stats := { u.ctx.stats with
                sent := u.ctx.stats.sent + 1#32, eventsSent := u.ctx.stats.eventsSent + 1#32 } }
              env := { u.env with
                answers := rest
                outputs := u.env.outputs ++ [.tWrite event true, .returned (.channelId i)] } }) ∧
          ∀ e, TransportFails u event e → ends (emit (.returned (.channelId i)) (u.afterFailure e))
        else ends (emit (.returned (.channelId i)) u)
      if s.par.nameMax < d.name.length then ends (emit (.returned (.status .invalid)) s)
      else if hasOp d.ops .init = false then registered s
      else
        let called := emit (.hookInit i (draw s).1) (draw s).2
        if (draw s).1 then registered called else ends (emit (.returned (.status .failed)) called)

/-- R301: a registration with a static id. The physical descriptor takes id 0; any other asking for id 0, or for an id outside
the table, gets INVALID; an occupied id gets BUSY; a name too long gets INVALID; an init hook that fails gives FAILED and
leaves no trace; else the descriptor is stored with DYNAMIC clear, and no event is sent. -/
def Obligations.StaticRegistration : Prop :=
  ∀ (s : State) (d : DescriptorSpec) (id : Byte), s.ctx.initialised = true →
    (if hasCapability d.flags .physical then id = 0#8 else d.staticId = some id) →
    let refused (st : Status) := execPort (.registryRegister d) s = .next (emit (.returned (.status st)) s)
    let stored : Descriptor := ⟨id, d.flags &&& 0b011111#6, d.name, d.ops, d.hooks⟩
    let kept (t : State) := emit (.returned (.channelId id.toNat))
      { t with reg := { t.reg with slots := t.reg.slots.set id.toNat (some stored) } }
    if id = 0#8 ∧ hasCapability d.flags .physical = false then refused .invalid
    else if s.par.nch ≤ id.toNat then refused .invalid
    else if registryFind s id.toNat ≠ none then refused .busy
    else if s.par.nameMax < d.name.length then refused .invalid
    else if hasOp d.ops .init = false then execPort (.registryRegister d) s = .next (kept s)
    else
      let called := emit (.hookInit id.toNat (draw s).1) (draw s).2
      if (draw s).1 then execPort (.registryRegister d) s = .next (kept called)
      else execPort (.registryRegister d) s = .next (emit (.returned (.status .failed)) called)

/-- R305: `registry_deinit_all` calls the teardown hooks of the registered channels in ascending id order, empties every
slot and unsets the lock time of every channel it removes. -/
def Obligations.DeinitAllTearsDown : Prop :=
  ∀ s : State, s.ctx.initialised = true → RegistryValid s.par s.reg →
    ∃ t : State, execPort .registryDeinitAll s = .next t ∧
      (∀ i, registryFind t i = none) ∧ t.reg.slots.length = s.par.nch ∧
      (∀ i, lastLock t i = if (registryFind s i).isSome then none else lastLock s i) ∧
      t.par = s.par ∧ t.ctx = s.ctx ∧ t.sb = s.sb ∧
      t.env = { s.env with outputs := s.env.outputs
        ++ ((List.range s.par.nch).filter (tearsDownAt s)).map .hookTeardown
        ++ [.returned .done] }

/-- R306: an occupied slot keeps its descriptor, and so its id, over every step of an initialised block that runs no
`registry_deinit_all` and leaves the block initialised. -/
def Obligations.OccupiedSlotsAreStable : Prop :=
  ∀ s t : State, RegistryValid s.par s.reg → s.ctx.initialised = true → t.ctx.initialised = true →
    Input.port .registryDeinitAll ∉ s.env.inputs → step s = .next t →
    ∀ i d, registryFind s i = some d → registryFind t i = some d ∧ d.id.toNat = i

/-! ### Lifecycle (70_reset_and_hazards.md) -/

/-- R705: the state after a successful `init` and after `reset`, field by field. -/
def Obligations.StateAfterInitAndReset : Prop :=
  (∀ (s : State) (c : Config.Cfg), s.ctx.initialised = false → 50 ≤ c.maxPayload.toNat →
    c.maxPayload.toNat ≤ s.par.cap - 14 → 1 ≤ c.baseTimeout.toNat →
    execPort (.init c) s = .next
      { par := s.par
        ctx :=
          { initialised := true, state := .sync, scanOffset := 0, seq := 0, waitForAck := false, ackOpcode := 0,
            ackSequence := 0, ackStatus := s.par.statusCode.success, retriesLeft := 0, cfg := c, defaultCfg := c,
            timeoutCur := 0, elapsed := 0, txHold := none, stats := ⟨0, 0, 0, 0, 0, 0, 0⟩, now := 0,
            inDispatch := false, fragRest := [] }
        sb := { bytes := [], rd := 0, wr := 0, used := 0, claimLen := 0 }
        reg := { slots := List.replicate s.par.nch none, lastLock := List.replicate s.par.nch none }
        env := { s.env with outputs := s.env.outputs ++ [.returned (.status .success)] } }) ∧
  ∀ s : State, s.ctx.initialised = true →
    execPort .reset s = .next
      { s with
        ctx := { s.ctx with
          state := .sync, scanOffset := 0, seq := 0, waitForAck := false, ackOpcode := 0, ackSequence := 0,
          ackStatus := if s.ctx.waitForAck then s.par.statusCode.failed else s.ctx.ackStatus
          retriesLeft := 0, cfg := s.ctx.defaultCfg, timeoutCur := 0, elapsed := 0, txHold := none, fragRest := [] }
        env := { s.env with outputs := s.env.outputs
          ++ (if s.ctx.waitForAck then [.sendResult s.par.statusCode.failed] else [])
          ++ ((List.range s.par.nch).filter (unlocksAt s)).map .hookUnlock
          ++ [.returned .done] } }

/-- R701: `init` accepts a configuration exactly when `50 <= max_payload <= CAP - 14` and `base_timeout >= 1`; a refused one
changes no state component. -/
def Obligations.InitAcceptsExactlyTheValid : Prop :=
  ∀ (s : State) (c : Config.Cfg), s.ctx.initialised = false →
    if 50 ≤ c.maxPayload.toNat ∧ c.maxPayload.toNat ≤ s.par.cap - 14 ∧ 1 ≤ c.baseTimeout.toNat then
      ∃ t : State, execPort (.init c) s = .next (emit (.returned (.status .success)) t) ∧
        t.ctx.initialised = true ∧ t.ctx.cfg = c ∧ t.ctx.defaultCfg = c
    else execPort (.init c) s = .next (emit (.returned (.status .invalid)) s)

/-- R703: `deinit` ends an open wait with FAILED, calls the teardown hooks in ascending id order and leaves the block
uninitialised; every operation but `init` then faults. That `ack_status` reads FAILED in the state after it is the model's
choice (DESIGN CHOICE, log 9: the fields keep their values), since R703 leaves every field but `initialised` unspecified.
R704, 45_opcodes.md R510: a device restart leaves any block uninitialised too. That it calls no hook, gives no result and keeps
the parameters is the model's choice (DESIGN CHOICE, log 8: R704 names no hook and no result). -/
def Obligations.DeinitLeavesUninitialised : Prop :=
  (∀ (s : State) (rest : List Input), s.env.inputs = .restart :: rest →
    ∃ t : State, step s = .next t ∧ t.ctx.initialised = false ∧ t.par = s.par ∧ t.env = { s.env with inputs := rest } ∧
      ∀ op, (∀ c, op ≠ .init c) → execPort op t = .fault .uninit) ∧
  ∀ s : State, s.ctx.initialised = true → RegistryValid s.par s.reg →
    ∃ t : State, execPort .deinit s = .next t ∧ t.ctx.initialised = false ∧
      (s.ctx.waitForAck = true → t.ctx.ackStatus = s.par.statusCode.failed) ∧
      t.env = { s.env with outputs := s.env.outputs
        ++ (if s.ctx.waitForAck then [.sendResult s.par.statusCode.failed] else [])
        ++ ((List.range s.par.nch).filter (tearsDownAt s)).map .hookTeardown
        ++ [.returned .done] } ∧
      ∀ op, (∀ c, op ≠ .init c) → execPort op t = .fault .uninit

/-- R62: a tick pulse increments `now` mod 2^32, and `elapsed`, saturating, while a send waits. -/
def Obligations.TickAdvancesTime : Prop :=
  ∀ s : State, s.ctx.initialised = true →
    execPort .tick s = .next
      { s with
        ctx := { s.ctx with
          now := s.ctx.now + 1#32
          elapsed :=
            if s.ctx.waitForAck then (if s.ctx.elapsed = 0xFFFFFFFF#32 then 0xFFFFFFFF#32 else s.ctx.elapsed + 1#32)
            else s.ctx.elapsed } }

/-! ### Framing (43_framing_fsm.md) -/

/-- R351: with fewer than 2 bytes the machine waits in SYNC; else the SYNC step enters HEADER at a sync word and discards one
byte otherwise, with nothing sent. That `consumeBytes` leaves the discarded byte listed is the model's choice (DESIGN CHOICE,
log 7). -/
def Obligations.SyncStep : Prop :=
  ∀ s : State, s.env.inputs = [] → s.ctx.initialised = true → s.ctx.state = .sync → s.ctx.inDispatch = false →
    if s.sb.used < 2 then transition s = none
    else if byteAt s s.sb.rd = 0xAA#8 ∧ byteAt s (s.sb.rd + 1) = 0xD5#8 then
      step s = .next { s with ctx := { s.ctx with state := .header } }
    else step s = .next (consumeBytes 1 s) ∧ readable (consumeBytes 1 s) = (readable s).drop 1

/-- R352, R354, R358: the HEADER step checks CRC, length and sequence in this order; a good header enters PAYLOAD. The first
failure costs one byte and leads back to SYNC, whatever the transport does; it is counted (OVERFLOW is not) and answered with its
NAK, which is written or not. That `consumeBytes` leaves the discarded byte listed is the model's choice (DESIGN CHOICE,
log 7). -/
def Obligations.HeaderStep : Prop :=
  ∀ s : State, s.env.inputs = [] → s.ctx.initialised = true → s.ctx.state = .header → 10 ≤ s.sb.used →
    s.ctx.inDispatch = false →
    let h := hdrAt s 0
    let failed (st : Status) (t : State) : Prop :=
      (∃ u : State, step s = .next u ∧ u.ctx.state = .sync ∧ readable u = (readable s).drop 1 ∧ u.ctx.seq = s.ctx.seq) ∧
      ∀ w, WriteEnds t (responseBytes s.par h 0x02#8 (enc16 (codeOf s st))) w → 2 ≤ s.ctx.cfg.maxPayload.toNat →
        let u := consumeBytes 1 w
        step s = .next { u with ctx := { u.ctx with state := .sync } }
    if s.ctx.cfg.crcEn = true ∧ h.headerCrc ≠ crc16 s.par.crc16 (memRead s 0 8) then
      failed .checksum { s with ctx := { s.ctx with stats := { s.ctx.stats with
        checksumErrors := s.ctx.stats.checksumErrors + 1#32 } } }
    else if s.ctx.cfg.maxPayload.toNat < h.length.toNat then failed .overflow s
    else if s.ctx.cfg.seqEn = true ∧ exempt h = false ∧ h.sequence ≠ s.ctx.seq then
      failed .sequence { s with ctx := { s.ctx with stats := { s.ctx.stats with
        sequenceErrors := s.ctx.stats.sequenceErrors + 1#32 } } }
    else step s = .next { s with ctx := { s.ctx with state := .payload } }

/-- R360, R364: a step runs the decoded instruction. In PAYLOAD, with no action pending, when the readable bytes decode to `i`,
the step is `exec i` at the state in which the packet has been consumed and counted and the machine is back in SYNC. That
`sb.bytes` lists the consumed bytes as before is the model's choice (DESIGN CHOICE, log 7). -/
def Obligations.StepRunsDecodedInstruction : Prop :=
  ∀ (s : State) (i : Instr) (rest : List Byte), s.env.inputs = [] → s.ctx.initialised = true →
    s.ctx.state = .payload → s.ctx.inDispatch = false → decode (readable s) = .ok (i, rest) →
    ∃ t : State, step s = exec i t ∧ readable t = rest ∧ t.sb.bytes = s.sb.bytes ∧ t.par = s.par ∧ t.reg = s.reg ∧
      t.env = s.env ∧
      t.ctx = { s.ctx with
        state := .sync
        stats := { s.ctx.stats with received := s.ctx.stats.received + 1#32 } }

/-- R360, R361: a PAYLOAD step whose packet is incomplete enters SYNC_RECOVERY at scan offset 1 at once. -/
def Obligations.IncompletePayloadEntersRecovery : Prop :=
  ∀ s : State, s.env.inputs = [] → s.ctx.initialised = true → s.ctx.state = .payload → s.ctx.inDispatch = false →
    s.sb.used < packetTotalSize (hdrAt s 0).length →
    step s = .next { s with ctx := { s.ctx with state := .syncRecovery, scanOffset := 1 } }

/-- R362, R363, R380: the SYNC_RECOVERY step takes the first SYNC command at or behind the scan offset, provided the scan
stops at no offset before it. Everything before the SYNC is discarded, the SYNC is consumed and counted, and it runs. -/
def Obligations.RecoveryTakesSync : Prop :=
  ∀ (s : State) (j : Nat) (i : Instr), s.env.inputs = [] → s.ctx.initialised = true → s.ctx.state = .syncRecovery →
    s.ctx.inDispatch = false → max s.ctx.scanOffset 1 ≤ j → j + 10 ≤ s.sb.used →
    syncWordAt s j = true → syncCmdAt s j = .yes →
    (∀ k, max s.ctx.scanOffset 1 ≤ k → k < j → syncWordAt s k = true → syncCmdAt s k = .no) →
    classify (rxAt s j) = some i →
    ∃ (u : UpperFlags) (f : Frame) (t : State), i = .sync u f ∧ f.channel = 0#8 ∧ step s = exec i t ∧
      readable t = (readable s).drop (j + packetTotalSize (hdrAt s j).length) ∧
      t.ctx = { s.ctx with stats := { s.ctx.stats with received := s.ctx.stats.received + 1#32 } } ∧
      t.par = s.par ∧ t.reg = s.reg ∧ t.env = s.env

/-- R362: when the scan of SYNC_RECOVERY takes no SYNC command, because it stops at `j` (no sync word fits there, a header is
still arriving, or a SYNC command is), the step goes back to PAYLOAD if the pending packet is complete, a SYNC further on
notwithstanding; else the scan offset moves to `j`, and there is no step when it stands there already. -/
def Obligations.RecoveryReturnsToPayload : Prop :=
  ∀ (s : State) (j : Nat), s.env.inputs = [] → s.ctx.initialised = true → s.ctx.state = .syncRecovery →
    s.ctx.inDispatch = false → max s.ctx.scanOffset 1 ≤ j →
    (∀ k, max s.ctx.scanOffset 1 ≤ k → k < j → RecoveryPasses s k) → RecoveryStops s j →
    if packetTotalSize (hdrAt s 0).length ≤ s.sb.used then
      step s = .next { s with ctx := { s.ctx with state := .payload, scanOffset := 0 } }
    else if j = s.ctx.scanOffset then transition s = none
    else step s = .next { s with ctx := { s.ctx with scanOffset := j } }

/-- R56, R373, R728: while a packet is at the dispatcher no transition of SYNC, HEADER, PAYLOAD or SYNC_RECOVERY fires, and
`dispatch_done` is what ends that; the ports stay enabled. -/
def Obligations.DispatcherStalls : Prop :=
  ∀ s : State, s.ctx.initialised = true → s.ctx.inDispatch = true →
    (s.ctx.state ≠ .waitAck → transition s = none) ∧
      execPort .dispatchDone s = .next { s with ctx := { s.ctx with inDispatch := false } } ∧
      (∃ t, execPort .tick s = .next t) ∧ (∀ b, ∃ t, execPort (.sbPush b) s = .next t) ∧
      (∀ c, ∃ t, execPort (.send c) s = .next t) ∧ ∀ d, ∃ t, execPort (.registryRegister d) s = .next t

/-! ### The dispatch stage (43_framing_fsm.md R364-R374) -/

/-- R370: a packet that fails a check of the dispatch stage is answered with exactly one NAK, of the status of the check, and
changes neither the state, nor the sequence number, nor the registry; the NAK is written or not. -/
def Obligations.RejectionSendsOneNak : Prop :=
  ∀ (s : State) (p : Rx) (st : Status), s.ctx.initialised = true → isResponse p.hdr.flags = false →
    rejection s p = some st →
    (∃ t : State, runReceived p s = .next t ∧ t.ctx.state = s.ctx.state ∧ t.ctx.seq = s.ctx.seq ∧ t.reg = s.reg ∧
      t.sb = s.sb ∧ t.ctx.waitForAck = s.ctx.waitForAck ∧ t.ctx.cfg = s.ctx.cfg) ∧
    let counted : State := if st = .checksum then
      { s with ctx := { s.ctx with stats := { s.ctx.stats with
        checksumErrors := s.ctx.stats.checksumErrors + 1#32 } } } else s
    2 ≤ s.ctx.cfg.maxPayload.toNat → ∀ t, WriteEnds counted (responseBytes s.par p.hdr 0x02#8 (enc16 (codeOf s st))) t →
      runReceived p s = .next t

/-- R364, R365, R366, R367, R368, R603: which check rejects a packet that is no response. Policy (a) comes before the payload
CRC, that before the opcode, and that before the channel target. -/
def Obligations.RejectionOrder : Prop :=
  ∀ (s : State) (p : Rx),
    let codes : List Nat := [0x00, 0x01, 0x02, 0x03, 0x04, 0x10, 0x11, 0x12, 0x13, 0x20, 0x21, 0x22, 0x23, 0x24, 0x25, 0x26,
      0x27, 0x28, 0x29]
    let op := p.hdr.opcode.toNat
    let has (o : ChannelOp) := channelHas s p.hdr.channel o
    if ¬ (op ≤ 0x13 ↔ p.hdr.channel = 0#8) then rejection s p = some .invalid
    else if s.ctx.cfg.crcEn = true ∧ p.payload ≠ [] ∧ p.payloadCrc ≠ crc32 s.par.crc32 p.payload then
      rejection s p = some .checksum
    else if op ∉ codes then rejection s p = some .unknown
    else
      (op ≤ 0x20 → rejection s p = none) ∧
      (0x20 < op → registryFind s p.hdr.channel.toNat = none → rejection s p = some .invalid) ∧
      (op = 0x21 → ¬ has .poll → rejection s p = some .invalid) ∧
      (op = 0x22 → ¬ has .lock → rejection s p = some .invalid) ∧
      (op = 0x23 → ¬ has .unlock → rejection s p = some .invalid) ∧
      (op = 0x24 → ¬ has .shape → rejection s p = some .invalid) ∧
      (op = 0x25 → ¬ has .size → rejection s p = some .invalid) ∧
      (op = 0x26 → ¬ has .read → ¬ has .readPointer → rejection s p = some .invalid) ∧
      (op = 0x27 → ¬ has .write → rejection s p = some .invalid) ∧
      (op = 0x28 → ¬ has .ioctl → rejection s p = some .invalid) ∧
      (op = 0x22 → has .lock → ∀ t0, lastLock s p.hdr.channel.toNat = some t0 →
        s.ctx.now - t0 < s.ctx.cfg.lockInterval → rejection s p = some .busy)

/-- R367, R150: a complete packet with an undefined opcode that passes policy (a) and the payload CRC is consumed, counted and
answered with UNKNOWN, whether or not the NAK is written. -/
def Obligations.UndefinedOpcodeAnsweredUnknown : Prop :=
  ∀ s w : State, s.env.inputs = [] → s.ctx.initialised = true → s.ctx.state = .payload →
    s.ctx.inDispatch = false → packetTotalSize (hdrAt s 0).length ≤ s.sb.used →
    classify (rxAt s 0) = none →
    ((hdrAt s 0).opcode ≤ 0x13#8 ↔ (hdrAt s 0).channel = 0#8) → payloadOk s (rxAt s 0) = true →
    2 ≤ s.ctx.cfg.maxPayload.toNat →
    WriteEnds s (responseBytes s.par (hdrAt s 0) 0x02#8 (enc16 s.par.statusCode.unknown)) w →
    ∃ t : State, step s = .next t ∧ readable t = (readable s).drop (packetTotalSize (hdrAt s 0).length) ∧
      t.ctx = { w.ctx with
        state := .sync
        stats := { w.ctx.stats with received := s.ctx.stats.received + 1#32 } } ∧
      t.reg = s.reg ∧ t.env = w.env

/-! ### The instructions: protocol opcodes (45_opcodes.md R500-R505) -/

/-- R500, R380, R435, R702: a SYNC resets the protocol, calls the unlock hooks, and is answered with an empty ACK that echoes
its sequence number; one that the WAIT_ACK scan takes first ends the wait with FAILED, and the waiting caller is told so
before the reset. Nothing else changes. The reset holds whatever the transport does with the ACK. -/
def Obligations.SyncResets : Prop :=
  ∀ (u : UpperFlags) (f : Frame) (s : State), s.ctx.initialised = true → f.channel = 0#8 →
    payloadCrcMatches s.par s.ctx.cfg.crcEn f.payload f.payloadCrc = true →
    (s.ctx.waitForAck = true ↔ s.ctx.state = .waitAck) →
    let told : List Output := if s.ctx.waitForAck then [.sendResult s.par.statusCode.failed] else []
    let r : State :=
      { s with
        ctx := { resetCtx s.ctx with
          ackStatus := if s.ctx.waitForAck then s.par.statusCode.failed else s.ctx.ackStatus }
        env := { s.env with outputs := s.env.outputs ++ told ++ unlockCalls s } }
    (∃ (t : State) (st : Stats) (new : List Output), exec (.sync u f) s = .next t ∧ t.ctx = { r.ctx with stats := st } ∧
      t.env.outputs = r.env.outputs ++ new) ∧
    ∀ t, WriteEnds r (buildPacket s.par f.sequence 0x00#8 0x01#8 0x00#8 []) t → exec (.sync u f) s = .next t

/-- R501, R163, R164, R503, R168, R504, R171: GET_CAPS is answered with the 16 bytes of the current configuration; STATS, in
the default layout, with the seven counters as they stand before the answer is written, and clears none; VERSION with
VERSION_PAYLOAD. The answer is written or not. -/
def Obligations.QueriesAnswered : Prop :=
  ∀ (u : UpperFlags) (f : Frame) (s : State), s.ctx.initialised = true → f.channel = 0#8 →
    payloadCrcMatches s.par s.ctx.cfg.crcEn f.payload f.payloadCrc = true → 50 ≤ s.ctx.cfg.maxPayload.toNat →
    s.par.versionPayload.length ≤ 50 →
    let answered (i : Instr) (op : Byte) (pl : List Byte) : Prop :=
      ∀ t, WriteEnds (s.afterAccept i.rx.hdr) (buildPacket s.par f.sequence 0x00#8 0x01#8 op pl) t → exec i s = .next t
    let c := s.ctx.cfg
    let n := s.ctx.stats
    answered (.getCaps u f) 0x01#8
      (enc32 (BitVec.ofNat 32 (c.crcEn.toNat + 2 * c.seqEn.toNat + 4 * c.ackEn.toNat + 8 * c.evtEn.toNat))
        ++ enc16 c.maxPayload ++ List.replicate 10 0x00#8) ∧
    (s.par.statsLayout = .listed → answered (.stats u f) 0x03#8
      (enc32 n.sent ++ enc32 n.received ++ enc32 n.checksumErrors ++ enc32 n.sequenceErrors ++ enc32 n.retransmits
        ++ enc32 n.transportErrors ++ enc32 n.eventsSent)) ∧
    answered (.version u f) 0x04#8 s.par.versionPayload

/-- R502: SET_CAPS with a 16-byte payload and a `max_payload` of 50 to `CAP - 14` is acknowledged under the old configuration
and then sets the four feature bits and `max_payload`; they are set whether or not the ACK is written. -/
def Obligations.SetCapsApplied : Prop :=
  ∀ (u : UpperFlags) (f : Frame) (s : State), s.ctx.initialised = true → f.channel = 0#8 →
    payloadCrcMatches s.par s.ctx.cfg.crcEn f.payload f.payloadCrc = true → f.payload.length = 16 →
    50 ≤ (le16 f.payload 4).toNat → (le16 f.payload 4).toNat ≤ s.par.cap - 14 →
    let caps := le32 f.payload 0
    let new : Config.Cfg :=
      { s.ctx.cfg with
        crcEn := caps.getLsbD 0, seqEn := caps.getLsbD 1, ackEn := caps.getLsbD 2, evtEn := caps.getLsbD 3
        maxPayload := le16 f.payload 4 }
    (∃ t : State, exec (.setCaps u f) s = .next t ∧ t.ctx.cfg = new) ∧
    ∀ t, WriteEnds (s.afterAccept (Instr.setCaps u f).rx.hdr) (buildPacket s.par f.sequence 0x00#8 0x01#8 0x02#8 []) t →
      exec (.setCaps u f) s = .next { t with ctx := { t.ctx with cfg := new } }

/-- R502: SET_CAPS with another payload length, or another `max_payload`, is answered with INVALID and leaves the
configuration as it is, whether or not the NAK is written. -/
def Obligations.SetCapsRefused : Prop :=
  ∀ (u : UpperFlags) (f : Frame) (s t : State), s.ctx.initialised = true → f.channel = 0#8 →
    payloadCrcMatches s.par s.ctx.cfg.crcEn f.payload f.payloadCrc = true → 2 ≤ s.ctx.cfg.maxPayload.toNat →
    ¬ (f.payload.length = 16 ∧ 50 ≤ (le16 f.payload 4).toNat ∧ (le16 f.payload 4).toNat ≤ s.par.cap - 14) →
    WriteEnds (s.afterAccept (Instr.setCaps u f).rx.hdr)
      (buildPacket s.par f.sequence 0x00#8 0x02#8 0x02#8 (enc16 s.par.statusCode.invalid)) t →
    exec (.setCaps u f) s = .next t

/-! ### The instructions: system and channel opcodes (45_opcodes.md R510-R539) -/

/-- R510, R511, R512, R513, R371, R372: a system packet on channel 0 with a good payload CRC is delivered; the sequence number
advances for RESET, ENTER_BOOTLOADER and SYSTEM_INFO without the EVENT flag, and never for SYSTEM_EVENT; the block does not
reset itself. -/
def Obligations.SystemPacketDelivered : Prop :=
  ∀ (u : UpperFlags) (f : Frame) (s : State), s.ctx.initialised = true → f.channel = 0#8 →
    payloadCrcMatches s.par s.ctx.cfg.crcEn f.payload f.payloadCrc = true →
    (∀ i ∈ [Instr.reset u f, .enterBootloader u f, .systemInfo u f], exec i s = .next
      { s with
        ctx := { s.ctx with
          seq := if i.rx.hdr.flags &&& 0x20#8 = 0#8 then s.ctx.seq + 1#8 else s.ctx.seq
          inDispatch := true }
        env := { s.env with outputs := s.env.outputs ++ [.deliver ⟨i.rx.hdr, f.payload⟩] } }) ∧
    exec (.systemEvent u f) s = .next
      { s with
        ctx := { s.ctx with inDispatch := true }
        env := { s.env with outputs := s.env.outputs
          ++ [.deliver ⟨(Instr.systemEvent u f).rx.hdr, f.payload⟩] } }

/-- R520, R530, R531, R533-R539, R371, R372: a channel packet with a good payload CRC is delivered when its channel is
registered with the operation its opcode needs; LIST needs no registered channel and EVENT no operation. `reg.last_lock` is
unchanged. -/
def Obligations.ChannelPacketDelivered : Prop :=
  ∀ (u : UpperFlags) (f : Frame) (s : State), s.ctx.initialised = true → f.channel ≠ 0#8 →
    payloadCrcMatches s.par s.ctx.cfg.crcEn f.payload f.payloadCrc = true →
    let delivered (i : Instr) := exec i s = .next (deliveredState i s)
    let has (o : ChannelOp) := channelHas s f.channel o
    delivered (.list u f) ∧ (has .poll → delivered (.poll u f)) ∧ (has .unlock → delivered (.unlock u f)) ∧
      (has .shape → delivered (.shape u f)) ∧ (has .size → delivered (.size u f)) ∧
      (has .read ∨ has .readPointer → delivered (.read u f)) ∧ (has .write → delivered (.write u f)) ∧
      (has .ioctl → delivered (.ioctl u f)) ∧
      ((registryFind s f.channel.toNat).isSome = true → delivered (.event u f) ∧
        (deliveredState (.event u f) s).ctx.seq = s.ctx.seq)

/-- R532, R374: a LOCK on a channel that has the lock operation is delivered, and its time kept, when the last delivered LOCK
of the channel is at least `lock_interval` ticks back or there was none; sooner it is answered with BUSY, written or not, and
nothing else changes. -/
def Obligations.LockDeliveredOrBusy : Prop :=
  ∀ (u : UpperFlags) (f : Frame) (s : State), s.ctx.initialised = true → f.channel ≠ 0#8 →
    payloadCrcMatches s.par s.ctx.cfg.crcEn f.payload f.payloadCrc = true → channelHas s f.channel .lock →
    ((∀ t0, lastLock s f.channel.toNat = some t0 → ¬ (s.ctx.now - t0 < s.ctx.cfg.lockInterval)) →
      exec (.lock u f) s = .next
        { deliveredState (.lock u f) s with
          reg := { s.reg with lastLock := s.reg.lastLock.set f.channel.toNat (some s.ctx.now) } }) ∧
    ∀ t0 t, lastLock s f.channel.toNat = some t0 → s.ctx.now - t0 < s.ctx.cfg.lockInterval →
      2 ≤ s.ctx.cfg.maxPayload.toNat →
      WriteEnds s (buildPacket s.par f.sequence f.channel 0x02#8 0x22#8 (enc16 s.par.statusCode.busy)) t →
      exec (.lock u f) s = .next t

/-! ### The instructions: responses (45_opcodes.md R540, R541; 44_reliable_delivery.md R427-R432, R444) -/

/-- R428, R431, R437: an ACK that matches the outstanding transaction, with header CRC, length and payload CRC good, ends the
wait with SUCCESS when no fragment is left, and the waiting caller gets SUCCESS. -/
def Obligations.AckEndsWait : Prop :=
  ∀ (op : Byte) (u : UpperFlags) (f : Frame) (s : State), s.ctx.initialised = true → s.ctx.state = .waitAck →
    op = s.ctx.ackOpcode → f.sequence = s.ctx.ackSequence → headerOk s (Instr.ack op u f).rx = true →
    f.payload.length < 65536 → f.payload.length ≤ s.ctx.cfg.maxPayload.toNat →
    payloadCrcMatches s.par s.ctx.cfg.crcEn f.payload f.payloadCrc = true → s.ctx.fragRest = [] →
    exec (.ack op u f) s = .next
      { s with
        ctx := endedCtx s.ctx s.par.statusCode.success
        env := { s.env with outputs := s.env.outputs ++ [.sendResult s.par.statusCode.success] } }

/-- R431, R444, R424: a matching ACK while fragments are left sends the next one in the same step. If it is written and needs an
ACK, a new wait starts with a fresh retry count and base timeout, and the caller is told nothing yet. If it is written and needs
none, the transaction ends with SUCCESS. If it cannot be written, the transaction ends with FAILED. Either end drops the rest. -/
def Obligations.AckSendsNextFragment : Prop :=
  ∀ (op : Byte) (u : UpperFlags) (f : Frame) (s : State) (c : Chunk) (more : List Chunk),
    s.ctx.initialised = true → s.ctx.state = .waitAck → endsWait s (Instr.ack op u f).rx = true →
    s.ctx.fragRest = c :: more →
    let sq := c.echoSeq.getD s.ctx.seq
    let bytes (fl : Byte) := buildPacket s.par sq c.channel fl c.opcode c.payload
    let seq' :=
      if c.echoSeq ≠ none ∨ c.flags &&& 0x23#8 ≠ 0#8 ∨ c.opcode = 0x00#8 ∨ c.opcode = 0x13#8 ∨ c.opcode = 0x29#8
      then s.ctx.seq else s.ctx.seq + 1#8
    let fails (fl : Byte) : Prop := ∀ e, TransportFails s (bytes fl) e → exec (.ack op u f) s = .next
      { s with
        ctx := { endedCtx s.ctx s.par.statusCode.failed with stats := { s.ctx.stats with
          transportErrors := s.ctx.stats.transportErrors + 1#32 } }
        env := { e with outputs := e.outputs ++ [.sendResult s.par.statusCode.failed] } }
    if c.ackRequired = true ∧ s.ctx.cfg.ackEn = true ∧ c.flags &&& 0x23#8 = 0#8 then
      let fl := (c.flags &&& 0x37#8) ||| 0x08#8
      (∀ rest, TransportTakes s rest → exec (.ack op u f) s = .next
        { s with
          ctx :=
            { waitingCtx s.ctx (makePkt s.par sq c.channel fl c.opcode c.payload) with
              fragRest := more, seq := seq', stats := { s.ctx.stats with sent := s.ctx.stats.sent + 1#32 } }
          env := { s.env with answers := rest, outputs := s.env.outputs ++ [.tWrite (bytes fl) true] } }) ∧
      fails fl
    else
      let fl := c.flags &&& 0x37#8
      (∀ rest, TransportTakes s rest → exec (.ack op u f) s = .next
        { s with
          ctx :=
            { endedCtx s.ctx s.par.statusCode.success with
              seq := seq'
              stats := { s.ctx.stats with
                sent := s.ctx.stats.sent + 1#32
                eventsSent := if c.flags &&& 0x20#8 = 0#8 then s.ctx.stats.eventsSent
                  else s.ctx.stats.eventsSent + 1#32 } }
          env := { s.env with
            answers := rest
            outputs := s.env.outputs ++ [.tWrite (bytes fl) true, .sendResult s.par.statusCode.success] } }) ∧
      fails fl

/-- R432: a matching NAK, with or without the ACK bit, ends the wait with the status its payload carries, or with
FAILED when that is no failure status; the remaining fragments are dropped and nothing is retransmitted. -/
def Obligations.NakEndsWait : Prop :=
  ∀ (op : Byte) (a : Bool) (u : UpperFlags) (f : Frame) (s : State), s.ctx.initialised = true →
    s.ctx.state = .waitAck → op = s.ctx.ackOpcode → f.sequence = s.ctx.ackSequence →
    headerOk s (Instr.nak op a u f).rx = true → f.payload.length < 65536 →
    f.payload.length ≤ s.ctx.cfg.maxPayload.toNat →
    payloadCrcMatches s.par s.ctx.cfg.crcEn f.payload f.payloadCrc = true →
    let t := s.par.statusCode
    let st := if 2 ≤ f.payload.length ∧ le16 f.payload 0 ∈
        [t.failed, t.invalid, t.timeout, t.busy, t.checksum, t.sequence, t.overflow, t.fragment, t.unknown]
      then le16 f.payload 0 else t.failed
    exec (.nak op a u f) s = .next
      { s with
        ctx := endedCtx s.ctx st
        env := { s.env with outputs := s.env.outputs ++ [.sendResult st] } }

/-- R369, R428: outside WAIT_ACK, and for another opcode or sequence number, a response has no effect and draws no answer. -/
def Obligations.StrayResponseDropped : Prop :=
  ∀ (op : Byte) (a : Bool) (u : UpperFlags) (f : Frame) (s : State), s.ctx.initialised = true →
    s.ctx.state ≠ .waitAck ∨ op ≠ s.ctx.ackOpcode ∨ f.sequence ≠ s.ctx.ackSequence →
    exec (.ack op u f) s = .next s ∧ exec (.nak op a u f) s = .next s

/-- R427, R428, R429, R435, R436: the WAIT_ACK scan step once the scan has come to `j`, before the deadline and, where the
environment chooses the scan (R430, log 6), at it. A complete, valid response to the wait runs; it is consumed and counted only
at offset 0, and the packets before it stay in the buffer. A SYNC command runs; what stands before it is discarded, and it is
consumed and counted. Where the scan must wait for bytes, the scan offset moves to `j`; when it stands there already the scan
step is not enabled, and before the deadline there is no step at all. -/
def Obligations.WaitScanRunsResponse : Prop :=
  ∀ (s v : State) (j : Nat), s.env.inputs = [] → s.ctx.initialised = true → s.ctx.state = .waitAck →
    ScanFires s v → WaitPasses s s.ctx.scanOffset j →
    let n := packetTotalSize (hdrAt s j).length
    let counted := { s.ctx with stats := { s.ctx.stats with received := s.ctx.stats.received + 1#32 } }
    (syncWordAt s j = true → headerOkAt s j = true → (hdrAt s j).length ≤ s.ctx.cfg.maxPayload →
      ackMatch s (hdrAt s j) = true → j + n ≤ s.sb.used → payloadOkAt s j = true →
      ∃ (i : Instr) (t : State), classify (rxAt s j) = some i ∧ step s = exec i t ∧
        ((∃ op u f, i = .ack op u f) ∨ ∃ op a u f, i = .nak op a u f) ∧
        (j ≠ 0 → t = v) ∧
        (j = 0 → readable t = (readable s).drop n ∧ t.ctx = counted ∧ t.par = s.par ∧ t.reg = s.reg ∧ t.env = v.env)) ∧
    (j + 10 ≤ s.sb.used → syncWordAt s j = true → ackMatch s (hdrAt s j) = false → syncCmdAt s j = .yes →
      ∃ (u : UpperFlags) (f : Frame) (t : State), classify (rxAt s j) = some (.sync u f) ∧ f.channel = 0#8 ∧
        step s = exec (.sync u f) t ∧ readable t = (readable s).drop (j + n) ∧ t.ctx = counted ∧ t.par = s.par ∧
        t.reg = s.reg ∧ t.env = v.env) ∧
    (WaitStops s j →
      if j = s.ctx.scanOffset then
        waitStep s = none ∧ (s.ctx.elapsed < s.ctx.timeoutCur → transition s = none)
      else step s = .next { v with ctx := { s.ctx with scanOffset := j } })

/-- 10_state.md R48, R30: every instruction runs on an initialised block, and what none changes: the staging buffer, byte for
byte, the parameters, the registered channels, the default configuration, the tick count, and every counter but `sent`,
`checksum_errors`, `transport_errors` and `events_sent`; what a command other than SYNC writes of the context. The packet has been
consumed before it runs (R360). -/
def Obligations.InstructionFrame : Prop :=
  ∀ (i : Instr) (s : State), s.ctx.initialised = true → ∃ t : State, exec i s = .next t ∧
    t.sb = s.sb ∧ (∀ a, Memory.read t.sb.bytes a = Memory.read s.sb.bytes a) ∧ t.par = s.par ∧
      t.reg.slots = s.reg.slots ∧ t.env.inputs = s.env.inputs ∧ t.ctx.initialised = s.ctx.initialised ∧
      t.ctx.defaultCfg = s.ctx.defaultCfg ∧ t.ctx.now = s.ctx.now ∧ t.ctx.stats.received = s.ctx.stats.received ∧
      t.ctx.stats.sequenceErrors = s.ctx.stats.sequenceErrors ∧
      t.ctx.stats.retransmits = s.ctx.stats.retransmits ∧
      ((∀ u f, i ≠ .lock u f) → t.reg = s.reg) ∧
      ((∀ u f, i ≠ .sync u f) → (∀ u f, i ≠ .setCaps u f) → t.ctx.cfg = s.ctx.cfg) ∧
      ((∀ u f, i ≠ .sync u f) → isResponse i.rx.hdr.flags = false →
        ∃ (st : Stats) (sq : Byte) (cfg : Config.Cfg) (d : Bool),
          t.ctx = { s.ctx with stats := st, seq := sq, cfg := cfg, inDispatch := d })

/-! ### Reliable delivery (44_reliable_delivery.md) -/

/-- R423: every way one transport write can end, and what it counts. -/
def Obligations.TransmitOnceOutcomes : Prop :=
  ∀ (s : State) (p : Pkt) (rest : List Bool),
    let bytes := buildPacket s.par p.hdr.sequence p.hdr.channel p.hdr.flags p.hdr.opcode p.payload
    let failed (t : State) : State := { t with ctx := { t.ctx with stats := { t.ctx.stats with
      transportErrors := t.ctx.stats.transportErrors + 1#32 } } }
    let heard (t : State) (os : List Output) : State := { t with env := { t.env with
      answers := rest, outputs := t.env.outputs ++ os } }
    (findTransport s = none → transmitOnce p s = (false, failed s)) ∧
    ((findTransport s).isSome = true →
      (s.env.answers = false :: rest → transmitOnce p s = (false, failed (heard s []))) ∧
      (s.env.answers = true :: false :: rest → transmitOnce p s = (false, failed (heard s [.tWrite bytes false]))) ∧
      (s.env.answers = true :: true :: rest → transmitOnce p s = (true,
        let t := heard s [.tWrite bytes true]
        { t with ctx := { t.ctx with stats := { t.ctx.stats with
          sent := t.ctx.stats.sent + 1#32
          eventsSent := if p.hdr.flags &&& 0x20#8 = 0#8 then t.ctx.stats.eventsSent
            else t.ctx.stats.eventsSent + 1#32 } } })))

/-- R420, R421, R422, R423: a send of one packet that needs no ACK returns SUCCESS when it is written. It carries the echoed
sequence number or `ctx.seq`, which advances only for a packet that is stamped from it and not exempt; ACK_REQUIRED is written 0.
When it cannot be written the send returns FAILED, and `ctx.seq` does not advance. -/
def Obligations.SendWithoutAck : Prop :=
  ∀ (s : State) (c : Chunk), s.ctx.initialised = true → c.payload.length ≤ s.ctx.cfg.maxPayload.toNat →
    c.ackRequired = false ∨ s.ctx.cfg.ackEn = false ∨ c.flags &&& 0x23#8 ≠ 0#8 →
    let bytes := buildPacket s.par (c.echoSeq.getD s.ctx.seq) c.channel (c.flags &&& 0x37#8) c.opcode c.payload
    (∀ rest, TransportTakes s rest → execPort (.send c) s = .next
      { s with
        ctx := { s.ctx with
          seq :=
            if c.echoSeq ≠ none ∨ c.flags &&& 0x23#8 ≠ 0#8 ∨ c.opcode = 0x00#8 ∨ c.opcode = 0x13#8 ∨ c.opcode = 0x29#8
            then s.ctx.seq else s.ctx.seq + 1#8
          stats := { s.ctx.stats with
            sent := s.ctx.stats.sent + 1#32
            eventsSent := if c.flags &&& 0x20#8 = 0#8 then s.ctx.stats.eventsSent
              else s.ctx.stats.eventsSent + 1#32 } }
        env := { s.env with
          answers := rest
          outputs := s.env.outputs ++ [.tWrite bytes true, .returned (.sent .success)] } }) ∧
    ∀ e, TransportFails s bytes e → execPort (.send c) s = .next (emit (.returned (.sent .failed)) (s.afterFailure e))

/-- R424, R420, R440, R423: a send that needs an ACK, with no wait open, returns PENDING once its packet is written, and the wait
starts: WAIT_ACK, the transaction's opcode and sequence number, PENDING, the full retry count, the base timeout, no time
elapsed, and the packet kept. A payload longer than `max_payload` is cut into `first` and `more`; the first chunk is sent
flagged FRAGMENT, and `ctx.frag_rest` holds the others in order, FRAGMENT on all but the last. A packet that cannot be written
gives FAILED, with no wait and, of a payload that was cut, nothing left in `ctx.frag_rest`. -/
def Obligations.SendStartsWait : Prop :=
  ∀ (s : State) (c : Chunk), s.ctx.initialised = true → c.ackRequired = true → s.ctx.cfg.ackEn = true →
    c.flags &&& 0x23#8 = 0#8 → s.ctx.waitForAck = false →
    let m := s.ctx.cfg.maxPayload.toNat
    let sq := c.echoSeq.getD s.ctx.seq
    let sent (fl : Byte) (pl : List Byte) (left dropped : List Chunk) : Prop :=
      (∀ rest, TransportTakes s rest → execPort (.send c) s = .next
        { s with
          ctx := { waitingCtx s.ctx (makePkt s.par sq c.channel fl c.opcode pl) with
            fragRest := left
            seq := if c.echoSeq ≠ none ∨ c.opcode = 0x00#8 ∨ c.opcode = 0x13#8 ∨ c.opcode = 0x29#8
              then s.ctx.seq else s.ctx.seq + 1#8
            stats := { s.ctx.stats with sent := s.ctx.stats.sent + 1#32 } }
          env := { s.env with
            answers := rest
            outputs := s.env.outputs
              ++ [.tWrite (buildPacket s.par sq c.channel fl c.opcode pl) true, .returned (.sent .pending)] } }) ∧
      ∀ e, TransportFails s (buildPacket s.par sq c.channel fl c.opcode pl) e → execPort (.send c) s = .next
        { s with
          ctx := { s.ctx with
            fragRest := dropped
            stats := { s.ctx.stats with transportErrors := s.ctx.stats.transportErrors + 1#32 } }
          env := { e with outputs := e.outputs ++ [.returned (.sent .failed)] } }
    (c.payload.length ≤ m → sent ((c.flags &&& 0x37#8) ||| 0x08#8) c.payload s.ctx.fragRest s.ctx.fragRest) ∧
    ∀ (first : List Byte) (more : List (List Byte)), first ++ more.flatten = c.payload → first.length = m → more ≠ [] →
      (∀ i pl, more[i]? = some pl → if i + 1 < more.length then pl.length = m else 0 < pl.length ∧ pl.length ≤ m) →
      sent ((c.flags &&& 0x37#8) ||| 0x18#8) first
        (more.mapIdx fun i pl => ⟨c.channel, c.opcode,
          if i + 1 < more.length then c.flags ||| 0x10#8 else c.flags &&& 0xEF#8, pl, true, c.echoSeq⟩) []

/-- R425: during a wait a send that needs an ACK returns BUSY and changes nothing, whatever its length; a send that needs none
leaves the wait as it is. -/
def Obligations.OneOutstandingTransaction : Prop :=
  ∀ (s : State) (c : Chunk), s.ctx.initialised = true → s.ctx.waitForAck = true →
    if c.ackRequired = true ∧ s.ctx.cfg.ackEn = true ∧ c.flags &&& 0x23#8 = 0#8 then
      execPort (.send c) s = .next (emit (.returned (.sent .busy)) s)
    else ∃ (t : State) (r : SendResult), execPort (.send c) s = .next (emit (.returned (.sent r)) t) ∧
      (r = .success ∨ r = .failed) ∧
      ∃ (st : Stats) (sq : Byte), t.ctx = { s.ctx with stats := st, seq := sq } ∧ t.sb = s.sb ∧ t.reg = s.reg

/-- R441 (a property the spec marks as derived), R440: a send without an ACK requirement of `k * m + r` bytes, `m` being
`max_payload`, `0 < k` and `0 < r <= m`, writes exactly `k + 1` packets when every write succeeds: the first `k` carry FRAGMENT and `m` bytes each, the last carries
no FRAGMENT and `r` bytes; their payloads joined are the payload. -/
def Obligations.FragmentsCarryThePayload : Prop :=
  ∀ (s : State) (c : Chunk) (k r : Nat) (rest : List Bool), s.ctx.initialised = true →
    (findTransport s).isSome = true → s.env.answers = List.replicate (2 * (k + 1)) true ++ rest →
    c.ackRequired = false ∨ s.ctx.cfg.ackEn = false ∨ c.flags &&& 0x23#8 ≠ 0#8 →
    0 < k → 0 < r → r ≤ s.ctx.cfg.maxPayload.toNat → c.payload.length = k * s.ctx.cfg.maxPayload.toNat + r →
    ∃ (t : State) (pkts : List Pkt), execPort (.send c) s = .next (emit (.returned (.sent .success)) t) ∧
      pkts.length = k + 1 ∧
      t.env.outputs = s.env.outputs ++ pkts.map (fun p => .tWrite (buildPacket s.par p.hdr.sequence p.hdr.channel
        p.hdr.flags p.hdr.opcode p.payload) true) ∧
      (∀ i p, pkts[i]? = some p → p.hdr.channel = c.channel ∧ p.hdr.opcode = c.opcode ∧
        (if i < k then p.payload.length = s.ctx.cfg.maxPayload.toNat ∧ p.hdr.flags &&& 0x10#8 ≠ 0#8
          else p.payload.length = r ∧ p.hdr.flags &&& 0x10#8 = 0#8)) ∧
      (pkts.map (·.payload)).flatten = c.payload ∧
      (c.echoSeq ≠ none → ∀ p ∈ pkts, some p.hdr.sequence = c.echoSeq)

/-- R430, R433, R439: the timeout step with a retry left, whether it is the only step enabled or the environment chooses it over
the scan (log 6), resends the kept packet with RTX set, the same sequence number, channel, opcode and payload, and doubles the
timeout. With a transport that is missing, is not active or fails the write it only counts differently, and the wait goes
on. -/
def Obligations.TimeoutRetransmits : Prop :=
  ∀ (s v : State) (p : Pkt), s.env.inputs = [] → s.ctx.initialised = true → s.ctx.state = .waitAck →
    TimeoutFires s v → s.ctx.retriesLeft ≠ 0#8 → s.ctx.txHold = some p →
    let again := makePkt s.par p.hdr.sequence p.hdr.channel (p.hdr.flags ||| 0x04#8) p.hdr.opcode p.payload
    let bytes := buildPacket s.par p.hdr.sequence p.hdr.channel (p.hdr.flags ||| 0x04#8) p.hdr.opcode p.payload
    let waits (st : Stats) : Ctx :=
      { s.ctx with
        retriesLeft := s.ctx.retriesLeft - 1#8
        timeoutCur := BitVec.ofNat 32 (min (2 * s.ctx.timeoutCur.toNat) 0xFFFFFFFF)
        elapsed := 0#32, txHold := some again, stats := st }
    let counted := { s.ctx.stats with retransmits := s.ctx.stats.retransmits + 1#32 }
    (∀ rest, TransportTakes v rest → step s = .next
      { s with
        ctx := waits { counted with
          sent := counted.sent + 1#32
          eventsSent := if p.hdr.flags &&& 0x20#8 = 0#8 then counted.eventsSent else counted.eventsSent + 1#32 }
        env := { v.env with answers := rest, outputs := v.env.outputs ++ [.tWrite bytes true] } }) ∧
    ∀ e, TransportFails v bytes e → step s = .next
      { s with ctx := waits { counted with transportErrors := counted.transportErrors + 1#32 }, env := e }

/-- R430, R434: the timeout step without a retry left, whether it is the only step enabled or the environment chooses it over
the scan (a drawn choice: DESIGN CHOICE, log 6), ends the wait, resets the protocol, calls the unlock hooks and gives the caller
TIMEOUT. -/
def Obligations.TimeoutExhausts : Prop :=
  ∀ s v : State, s.env.inputs = [] → s.ctx.initialised = true → s.ctx.state = .waitAck → TimeoutFires s v →
    s.ctx.retriesLeft = 0#8 →
    step s = .next
      { s with
        ctx := { resetCtx s.ctx with ackStatus := s.par.statusCode.timeout }
        env := { v.env with
          outputs := v.env.outputs ++ unlockCalls s ++ [.sendResult s.par.statusCode.timeout] } }

/-- R438 (a property the spec marks as derived): with no byte arriving, after `n` ticks of a wait that has just started with
`r` retries and timeout `T`: exactly `i` retransmissions have been made while `(2^i - 1) * T <= n < (2^(i+1) - 1) * T`, for every `i <= r`; and from
`(2^(r+1) - 1) * T` ticks on the wait is over with TIMEOUT, `r` retransmissions counted and `ctx.seq` back at 0. Whatever
the transport answers. -/
def Obligations.RetryDoubling : Prop :=
  ∀ (s : State) (p : Pkt) (n : Nat), s.ctx.initialised = true → s.ctx.state = .waitAck → s.ctx.waitForAck = true →
    s.ctx.scanOffset = 0 → s.ctx.elapsed = 0#32 → s.ctx.txHold = some p → s.sb.used = 0 → s.ctx.inDispatch = false →
    1 ≤ s.ctx.timeoutCur.toNat → (2 ^ (s.ctx.retriesLeft.toNat + 1)) * s.ctx.timeoutCur.toNat < 2 ^ 32 →
    ∃ t : State, Reaches (s.withInputs (tickInputs n)) t ∧ (t.env.inputs = [] ∨ t.env.inputs = [.pump]) ∧
      transition t = none ∧ t.ctx.now = s.ctx.now + BitVec.ofNat 32 n ∧
      (∀ i, i ≤ s.ctx.retriesLeft.toNat → (2 ^ i - 1) * s.ctx.timeoutCur.toNat ≤ n →
        n < (2 ^ (i + 1) - 1) * s.ctx.timeoutCur.toNat →
        t.ctx.state = .waitAck ∧ t.ctx.stats.retransmits = s.ctx.stats.retransmits + BitVec.ofNat 32 i ∧
          t.ctx.retriesLeft.toNat + i = s.ctx.retriesLeft.toNat ∧
          t.ctx.timeoutCur.toNat = 2 ^ i * s.ctx.timeoutCur.toNat ∧
          t.ctx.elapsed.toNat + (2 ^ i - 1) * s.ctx.timeoutCur.toNat = n ∧ t.ctx.seq = s.ctx.seq) ∧
      ((2 ^ (s.ctx.retriesLeft.toNat + 1) - 1) * s.ctx.timeoutCur.toNat ≤ n →
        t.ctx.state = .sync ∧ t.ctx.waitForAck = false ∧ t.ctx.ackStatus = s.par.statusCode.timeout ∧
          t.ctx.stats.retransmits = s.ctx.stats.retransmits + BitVec.ofNat 32 s.ctx.retriesLeft.toNat ∧
          t.ctx.seq = 0#8 ∧ t.ctx.cfg = s.ctx.defaultCfg)

/-- R442, R422: while ACK is disabled no send returns PENDING or starts a wait, and no packet a send writes carries
ACK_REQUIRED. -/
def Obligations.AckDisabledNeverWaits : Prop :=
  ∀ (s : State) (c : Chunk), s.ctx.initialised = true → s.ctx.cfg.ackEn = false →
    ∃ (t : State) (r : SendResult) (new : List Output), execPort (.send c) s = .next (emit (.returned (.sent r)) t) ∧
      (r = .success ∨ r = .failed) ∧ t.ctx.waitForAck = s.ctx.waitForAck ∧ t.ctx.state = s.ctx.state ∧
      t.env.outputs = s.env.outputs ++ new ∧
      ∀ o ∈ new, ∃ (b : List Byte) (ok : Bool), o = .tWrite b ok ∧ byteOf b 4 &&& 0x08#8 = 0#8

/-- R437, R160: a step that ends a wait gives the waiting caller exactly one result; it is the final `ctx.ack_status`, which is
the code of a status and never PENDING. A device restart is no end of a wait that the caller could hear of (R704). -/
def Obligations.WaitEndsWithOneResult : Prop :=
  ∀ s t : State, Inv s → s.ctx.initialised = true → s.ctx.waitForAck = true → t.ctx.waitForAck = false →
    Input.restart ∉ s.env.inputs → step s = .next t →
    (t.ctx.ackStatus ∈ statusCodes s.par.statusCode ∧ t.ctx.ackStatus ≠ 0xFFFF#16) ∧
    ∃ pre post : List Output, t.env.outputs = s.env.outputs ++ pre ++ [.sendResult t.ctx.ackStatus] ++ post ∧
      ∀ o ∈ pre ++ post, ∀ code, o ≠ .sendResult code

/-! ### The machine -/

/-- The invariants of 10_state.md R34, R36, R42-R44, R48-R51, R54 and R57 hold at power-on: the parameters are in range, and the
block is not initialised. The parameters' values at power-on are the model's choice (DESIGN CHOICE, log 1). -/
def Obligations.InvHoldsAtReset : Prop := Inv State.reset

/-- 10_state.md R34, R36, R42-R44, R48-R51, R54, R57: every step keeps the invariants: the cursors of the staging buffer and its
canonical bytes, the configuration's ranges, WAIT_ACK exactly while a send waits, the scan offset, and the registry's ids. -/
def Obligations.InvKeptByStep : Prop := ∀ s t : State, Inv s → step s = .next t → Inv t

/-- 00_scope.md R6, R7, R11: no step changes a parameter, and what a step puts on the ports is added behind what stood there. -/
def Obligations.ParametersNeverChange : Prop :=
  ∀ s t : State, step s = .next t → t.par = s.par ∧ ∃ new, t.env.outputs = s.env.outputs ++ new
end

