-- ==== Sys2Proof/Laws/State.lean ====
section
/-! SUPPORT. What each named update of the state does to each part of it: one lemma a part, so that no proof unfolds an
update. Then, for the updates of the context, what they leave of each field. -/

namespace Sys2Proof.Machine

@[simp] theorem State.withCtx_par (s : State) (c : Ctx) : (s.withCtx c).par = s.par := rfl
@[simp] theorem State.withCtx_ctx (s : State) (c : Ctx) : (s.withCtx c).ctx = c := rfl
@[simp] theorem State.withCtx_sb (s : State) (c : Ctx) : (s.withCtx c).sb = s.sb := rfl
@[simp] theorem State.withCtx_reg (s : State) (c : Ctx) : (s.withCtx c).reg = s.reg := rfl
@[simp] theorem State.withCtx_env (s : State) (c : Ctx) : (s.withCtx c).env = s.env := rfl

@[simp] theorem State.withSb_par (s : State) (b : StagingBuffer) : (s.withSb b).par = s.par := rfl
@[simp] theorem State.withSb_ctx (s : State) (b : StagingBuffer) : (s.withSb b).ctx = s.ctx := rfl
@[simp] theorem State.withSb_sb (s : State) (b : StagingBuffer) : (s.withSb b).sb = b := rfl
@[simp] theorem State.withSb_reg (s : State) (b : StagingBuffer) : (s.withSb b).reg = s.reg := rfl
@[simp] theorem State.withSb_env (s : State) (b : StagingBuffer) : (s.withSb b).env = s.env := rfl

@[simp] theorem State.withReg_par (s : State) (r : Registry) : (s.withReg r).par = s.par := rfl
@[simp] theorem State.withReg_ctx (s : State) (r : Registry) : (s.withReg r).ctx = s.ctx := rfl
@[simp] theorem State.withReg_sb (s : State) (r : Registry) : (s.withReg r).sb = s.sb := rfl
@[simp] theorem State.withReg_reg (s : State) (r : Registry) : (s.withReg r).reg = r := rfl
@[simp] theorem State.withReg_env (s : State) (r : Registry) : (s.withReg r).env = s.env := rfl

@[simp] theorem State.withEnv_par (s : State) (e : Env) : (s.withEnv e).par = s.par := rfl
@[simp] theorem State.withEnv_ctx (s : State) (e : Env) : (s.withEnv e).ctx = s.ctx := rfl
@[simp] theorem State.withEnv_sb (s : State) (e : Env) : (s.withEnv e).sb = s.sb := rfl
@[simp] theorem State.withEnv_reg (s : State) (e : Env) : (s.withEnv e).reg = s.reg := rfl
@[simp] theorem State.withEnv_env (s : State) (e : Env) : (s.withEnv e).env = e := rfl

@[simp] theorem State.withStats_par (s : State) (t : Stats) : (s.withStats t).par = s.par := rfl
@[simp] theorem State.withStats_ctx (s : State) (t : Stats) : (s.withStats t).ctx = { s.ctx with stats := t } := rfl
@[simp] theorem State.withStats_sb (s : State) (t : Stats) : (s.withStats t).sb = s.sb := rfl
@[simp] theorem State.withStats_reg (s : State) (t : Stats) : (s.withStats t).reg = s.reg := rfl
@[simp] theorem State.withStats_env (s : State) (t : Stats) : (s.withStats t).env = s.env := rfl

@[simp] theorem State.enter_par (s : State) (f : FramingState) (k : Nat) : (s.enter f k).par = s.par := rfl
@[simp] theorem State.enter_ctx (s : State) (f : FramingState) (k : Nat) :
    (s.enter f k).ctx = { s.ctx with state := f, scanOffset := k } := rfl
@[simp] theorem State.enter_sb (s : State) (f : FramingState) (k : Nat) : (s.enter f k).sb = s.sb := rfl
@[simp] theorem State.enter_reg (s : State) (f : FramingState) (k : Nat) : (s.enter f k).reg = s.reg := rfl
@[simp] theorem State.enter_env (s : State) (f : FramingState) (k : Nat) : (s.enter f k).env = s.env := rfl

@[simp] theorem State.withInputs_par (s : State) (is : List Input) : (s.withInputs is).par = s.par := rfl
@[simp] theorem State.withInputs_ctx (s : State) (is : List Input) : (s.withInputs is).ctx = s.ctx := rfl
@[simp] theorem State.withInputs_sb (s : State) (is : List Input) : (s.withInputs is).sb = s.sb := rfl
@[simp] theorem State.withInputs_reg (s : State) (is : List Input) : (s.withInputs is).reg = s.reg := rfl
@[simp] theorem State.withInputs_env (s : State) (is : List Input) : (s.withInputs is).env = { s.env with inputs := is } := rfl

@[simp] theorem emit_par (o : Output) (s : State) : (emit o s).par = s.par := rfl
@[simp] theorem emit_ctx (o : Output) (s : State) : (emit o s).ctx = s.ctx := rfl
@[simp] theorem emit_sb (o : Output) (s : State) : (emit o s).sb = s.sb := rfl
@[simp] theorem emit_reg (o : Output) (s : State) : (emit o s).reg = s.reg := rfl
@[simp] theorem emit_env (o : Output) (s : State) : (emit o s).env = { s.env with outputs := s.env.outputs ++ [o] } := rfl

@[simp] theorem emitAll_par (os : List Output) (s : State) : (emitAll os s).par = s.par := rfl
@[simp] theorem emitAll_ctx (os : List Output) (s : State) : (emitAll os s).ctx = s.ctx := rfl
@[simp] theorem emitAll_sb (os : List Output) (s : State) : (emitAll os s).sb = s.sb := rfl
@[simp] theorem emitAll_reg (os : List Output) (s : State) : (emitAll os s).reg = s.reg := rfl
@[simp] theorem emitAll_env (os : List Output) (s : State) :
    (emitAll os s).env = { s.env with outputs := s.env.outputs ++ os } := rfl

@[simp] theorem fillBytes_par (i : Nat) (v : List Byte) (s : State) : (fillBytes i v s).par = s.par := rfl
@[simp] theorem fillBytes_ctx (i : Nat) (v : List Byte) (s : State) : (fillBytes i v s).ctx = s.ctx := rfl
@[simp] theorem fillBytes_sb (i : Nat) (v : List Byte) (s : State) :
    (fillBytes i v s).sb = { s.sb with bytes := Memory.writeBytes s.sb.bytes i v } := rfl
@[simp] theorem fillBytes_reg (i : Nat) (v : List Byte) (s : State) : (fillBytes i v s).reg = s.reg := rfl
@[simp] theorem fillBytes_env (i : Nat) (v : List Byte) (s : State) : (fillBytes i v s).env = s.env := rfl

@[simp] theorem compact_par (s : State) : (compact s).par = s.par := rfl
@[simp] theorem compact_ctx (s : State) : (compact s).ctx = s.ctx := rfl
@[simp] theorem compact_sb (s : State) :
    (compact s).sb = { s.sb with bytes := Memory.writeBytes [] 0 (memRead s 0 s.sb.used), wr := s.sb.used, rd := 0 } := rfl
@[simp] theorem compact_reg (s : State) : (compact s).reg = s.reg := rfl
@[simp] theorem compact_env (s : State) : (compact s).env = s.env := rfl

@[simp] theorem setSlot_par (id : Nat) (v : Option Descriptor) (s : State) : (setSlot id v s).par = s.par := rfl
@[simp] theorem setSlot_ctx (id : Nat) (v : Option Descriptor) (s : State) : (setSlot id v s).ctx = s.ctx := rfl
@[simp] theorem setSlot_sb (id : Nat) (v : Option Descriptor) (s : State) : (setSlot id v s).sb = s.sb := rfl
@[simp] theorem setSlot_reg (id : Nat) (v : Option Descriptor) (s : State) :
    (setSlot id v s).reg = { s.reg with slots := s.reg.slots.set id v } := rfl
@[simp] theorem setSlot_env (id : Nat) (v : Option Descriptor) (s : State) : (setSlot id v s).env = s.env := rfl

@[simp] theorem setLastLock_par (id : Nat) (v : Option Word) (s : State) : (setLastLock id v s).par = s.par := rfl
@[simp] theorem setLastLock_ctx (id : Nat) (v : Option Word) (s : State) : (setLastLock id v s).ctx = s.ctx := rfl
@[simp] theorem setLastLock_sb (id : Nat) (v : Option Word) (s : State) : (setLastLock id v s).sb = s.sb := rfl
@[simp] theorem setLastLock_reg (id : Nat) (v : Option Word) (s : State) :
    (setLastLock id v s).reg = { s.reg with lastLock := s.reg.lastLock.set id v } := rfl
@[simp] theorem setLastLock_env (id : Nat) (v : Option Word) (s : State) : (setLastLock id v s).env = s.env := rfl

@[simp] theorem advanceSeq_par (s : State) : (advanceSeq s).par = s.par := rfl
@[simp] theorem advanceSeq_ctx (s : State) : (advanceSeq s).ctx = { s.ctx with seq := s.ctx.seq + 1#8 } := rfl
@[simp] theorem advanceSeq_sb (s : State) : (advanceSeq s).sb = s.sb := rfl
@[simp] theorem advanceSeq_reg (s : State) : (advanceSeq s).reg = s.reg := rfl
@[simp] theorem advanceSeq_env (s : State) : (advanceSeq s).env = s.env := rfl

@[simp] theorem setAckStatus_par (v : Half) (s : State) : (setAckStatus v s).par = s.par := rfl
@[simp] theorem setAckStatus_ctx (v : Half) (s : State) : (setAckStatus v s).ctx = { s.ctx with ackStatus := v } := rfl
@[simp] theorem setAckStatus_sb (v : Half) (s : State) : (setAckStatus v s).sb = s.sb := rfl
@[simp] theorem setAckStatus_reg (v : Half) (s : State) : (setAckStatus v s).reg = s.reg := rfl
@[simp] theorem setAckStatus_env (v : Half) (s : State) : (setAckStatus v s).env = s.env := rfl

@[simp] theorem setFragRest_par (cs : List Chunk) (s : State) : (setFragRest cs s).par = s.par := rfl
@[simp] theorem setFragRest_ctx (cs : List Chunk) (s : State) : (setFragRest cs s).ctx = { s.ctx with fragRest := cs } := rfl
@[simp] theorem setFragRest_sb (cs : List Chunk) (s : State) : (setFragRest cs s).sb = s.sb := rfl
@[simp] theorem setFragRest_reg (cs : List Chunk) (s : State) : (setFragRest cs s).reg = s.reg := rfl
@[simp] theorem setFragRest_env (cs : List Chunk) (s : State) : (setFragRest cs s).env = s.env := rfl

@[simp] theorem sendResult_par (v : Half) (s : State) : (sendResult v s).par = s.par := rfl
@[simp] theorem sendResult_ctx (v : Half) (s : State) : (sendResult v s).ctx = s.ctx := rfl
@[simp] theorem sendResult_sb (v : Half) (s : State) : (sendResult v s).sb = s.sb := rfl
@[simp] theorem sendResult_reg (v : Half) (s : State) : (sendResult v s).reg = s.reg := rfl
@[simp] theorem sendResult_env (v : Half) (s : State) :
    (sendResult v s).env = { s.env with outputs := s.env.outputs ++ [.sendResult v] } := rfl

@[simp] theorem exitWait_par (s : State) : (exitWait s).par = s.par := rfl
@[simp] theorem exitWait_ctx (s : State) :
    (exitWait s).ctx = { s.ctx with
        waitForAck := false
        retriesLeft := 0#8
        timeoutCur := 0#32
        elapsed := 0#32
        txHold := none
        state := .sync
        scanOffset := 0 } := rfl
@[simp] theorem exitWait_sb (s : State) : (exitWait s).sb = s.sb := rfl
@[simp] theorem exitWait_reg (s : State) : (exitWait s).reg = s.reg := rfl
@[simp] theorem exitWait_env (s : State) : (exitWait s).env = s.env := rfl

@[simp] theorem resetFields_par (s : State) : (resetFields s).par = s.par := rfl
@[simp] theorem resetFields_ctx (s : State) :
    (resetFields s).ctx = { s.ctx with
        cfg := s.ctx.defaultCfg
        state := .sync
        scanOffset := 0
        seq := 0#8
        waitForAck := false
        ackOpcode := 0#8
        ackSequence := 0#8
        retriesLeft := 0#8
        timeoutCur := 0#32
        elapsed := 0#32
        txHold := none
        fragRest := [] } := rfl
@[simp] theorem resetFields_sb (s : State) : (resetFields s).sb = s.sb := rfl
@[simp] theorem resetFields_reg (s : State) : (resetFields s).reg = s.reg := rfl
@[simp] theorem resetFields_env (s : State) : (resetFields s).env = s.env := rfl

@[simp] theorem waitStart_par (p : Pkt) (s : State) : (waitStart p s).par = s.par := rfl
@[simp] theorem waitStart_ctx (p : Pkt) (s : State) :
    (waitStart p s).ctx = { s.ctx with
        waitForAck := true
        ackOpcode := p.hdr.opcode
        ackSequence := p.hdr.sequence
        ackStatus := pendingCode
        retriesLeft := s.ctx.cfg.retryCount
        timeoutCur := s.ctx.cfg.baseTimeout
        elapsed := 0#32
        txHold := some p
        state := .waitAck
        scanOffset := 0 } := rfl
@[simp] theorem waitStart_sb (p : Pkt) (s : State) : (waitStart p s).sb = s.sb := rfl
@[simp] theorem waitStart_reg (p : Pkt) (s : State) : (waitStart p s).reg = s.reg := rfl
@[simp] theorem waitStart_env (p : Pkt) (s : State) : (waitStart p s).env = s.env := rfl

@[simp] theorem markHold_par (s : State) : (markHold s).par = s.par := rfl
@[simp] theorem markHold_ctx (s : State) : (markHold s).ctx = { s.ctx with txHold := s.ctx.txHold.map (rtxPkt s.par) } := rfl
@[simp] theorem markHold_sb (s : State) : (markHold s).sb = s.sb := rfl
@[simp] theorem markHold_reg (s : State) : (markHold s).reg = s.reg := rfl
@[simp] theorem markHold_env (s : State) : (markHold s).env = s.env := rfl

@[simp] theorem tick_par (s : State) : (tick s).par = s.par := rfl
@[simp] theorem tick_ctx (s : State) :
    (tick s).ctx = { s.ctx with
        now := s.ctx.now + 1#32
        elapsed := if s.ctx.waitForAck then sat32 (s.ctx.elapsed.toNat + 1) else s.ctx.elapsed } := rfl
@[simp] theorem tick_sb (s : State) : (tick s).sb = s.sb := rfl
@[simp] theorem tick_reg (s : State) : (tick s).reg = s.reg := rfl
@[simp] theorem tick_env (s : State) : (tick s).env = s.env := rfl

@[simp] theorem countSent_par (s : State) : (countSent s).par = s.par := rfl
@[simp] theorem countSent_ctx (s : State) :
    (countSent s).ctx = { s.ctx with stats := { s.ctx.stats with sent := s.ctx.stats.sent + 1#32 } } := rfl
@[simp] theorem countSent_sb (s : State) : (countSent s).sb = s.sb := rfl
@[simp] theorem countSent_reg (s : State) : (countSent s).reg = s.reg := rfl
@[simp] theorem countSent_env (s : State) : (countSent s).env = s.env := rfl

@[simp] theorem countReceived_par (s : State) : (countReceived s).par = s.par := rfl
@[simp] theorem countReceived_ctx (s : State) :
    (countReceived s).ctx = { s.ctx with stats := { s.ctx.stats with received := s.ctx.stats.received + 1#32 } } := rfl
@[simp] theorem countReceived_sb (s : State) : (countReceived s).sb = s.sb := rfl
@[simp] theorem countReceived_reg (s : State) : (countReceived s).reg = s.reg := rfl
@[simp] theorem countReceived_env (s : State) : (countReceived s).env = s.env := rfl

@[simp] theorem countChecksumError_par (s : State) : (countChecksumError s).par = s.par := rfl
@[simp] theorem countChecksumError_ctx (s : State) :
    (countChecksumError s).ctx = { s.ctx with
        stats := { s.ctx.stats with checksumErrors := s.ctx.stats.checksumErrors + 1#32 } } := rfl
@[simp] theorem countChecksumError_sb (s : State) : (countChecksumError s).sb = s.sb := rfl
@[simp] theorem countChecksumError_reg (s : State) : (countChecksumError s).reg = s.reg := rfl
@[simp] theorem countChecksumError_env (s : State) : (countChecksumError s).env = s.env := rfl

@[simp] theorem countSequenceError_par (s : State) : (countSequenceError s).par = s.par := rfl
@[simp] theorem countSequenceError_ctx (s : State) :
    (countSequenceError s).ctx = { s.ctx with
        stats := { s.ctx.stats with sequenceErrors := s.ctx.stats.sequenceErrors + 1#32 } } := rfl
@[simp] theorem countSequenceError_sb (s : State) : (countSequenceError s).sb = s.sb := rfl
@[simp] theorem countSequenceError_reg (s : State) : (countSequenceError s).reg = s.reg := rfl
@[simp] theorem countSequenceError_env (s : State) : (countSequenceError s).env = s.env := rfl

@[simp] theorem countRetransmit_par (s : State) : (countRetransmit s).par = s.par := rfl
@[simp] theorem countRetransmit_ctx (s : State) :
    (countRetransmit s).ctx = { s.ctx with stats := { s.ctx.stats with retransmits := s.ctx.stats.retransmits + 1#32 } } := rfl
@[simp] theorem countRetransmit_sb (s : State) : (countRetransmit s).sb = s.sb := rfl
@[simp] theorem countRetransmit_reg (s : State) : (countRetransmit s).reg = s.reg := rfl
@[simp] theorem countRetransmit_env (s : State) : (countRetransmit s).env = s.env := rfl

@[simp] theorem countTransportError_par (s : State) : (countTransportError s).par = s.par := rfl
@[simp] theorem countTransportError_ctx (s : State) :
    (countTransportError s).ctx = { s.ctx with
        stats := { s.ctx.stats with transportErrors := s.ctx.stats.transportErrors + 1#32 } } := rfl
@[simp] theorem countTransportError_sb (s : State) : (countTransportError s).sb = s.sb := rfl
@[simp] theorem countTransportError_reg (s : State) : (countTransportError s).reg = s.reg := rfl
@[simp] theorem countTransportError_env (s : State) : (countTransportError s).env = s.env := rfl

@[simp] theorem countEventSent_par (s : State) : (countEventSent s).par = s.par := rfl
@[simp] theorem countEventSent_ctx (s : State) :
    (countEventSent s).ctx = { s.ctx with stats := { s.ctx.stats with eventsSent := s.ctx.stats.eventsSent + 1#32 } } := rfl
@[simp] theorem countEventSent_sb (s : State) : (countEventSent s).sb = s.sb := rfl
@[simp] theorem countEventSent_reg (s : State) : (countEventSent s).reg = s.reg := rfl
@[simp] theorem countEventSent_env (s : State) : (countEventSent s).env = s.env := rfl

@[simp] theorem withSb_same (s : State) : s.withSb s.sb = s := rfl

@[simp] theorem withCtx_same (s : State) : s.withCtx s.ctx = s := rfl

@[simp] theorem codeOf_withCtx (s : State) (c : Ctx) (st : Status) : codeOf (s.withCtx c) st = codeOf s st := rfl

/-- Two states with the same parts are the same. -/
theorem State.ext_parts {s t : State} (hp : s.par = t.par) (hc : s.ctx = t.ctx) (hb : s.sb = t.sb) (hr : s.reg = t.reg)
    (he : s.env = t.env) : s = t := by
  cases s; cases t; simp_all

/-! ### A device restart (70_reset_and_hazards.md R704) -/

@[simp] theorem powerOn_par (s : State) : (powerOn s).par = s.par := rfl

@[simp] theorem powerOn_initialised (s : State) : (powerOn s).ctx.initialised = false := rfl

@[simp] theorem powerOn_env (s : State) : (powerOn s).env = s.env := rfl

end Sys2Proof.Machine
end

