-- ==== Sys2Proof/Laws/Memory.lean ====
section
/-! SUPPORT. The listed bytes of the staging buffer: what a read gives after each memory operation, and that each keeps the
canonical form. -/

namespace Sys2Proof.Machine

@[simp] theorem Memory.read_nil (k : Nat) : Memory.read [] k = none := rfl

theorem Memory.read_write (m : Memory) (k : Nat) (v : Byte) (j : Nat) :
    Memory.read (Memory.write m k v) j = if j = k then some v else Memory.read m j := by
  induction m with
  | nil => simp [Memory.write, Memory.read, eq_comm]
  | cons c m ih =>
    obtain ⟨a, b⟩ := c
    simp only [Memory.write]
    split
    · simp [Memory.read, eq_comm]
    · split
      · simp only [Memory.read]; grind
      · simp only [Memory.read, ih]; grind

theorem Memory.read_writeBytes (v : List Byte) : ∀ (m : Memory) (i j : Nat),
    Memory.read (Memory.writeBytes m i v) j
      = if i ≤ j ∧ j < i + v.length then v[j - i]? else Memory.read m j := by
  induction v with
  | nil => intro m i j; simp only [Memory.writeBytes, List.length_nil]; grind
  | cons b v ih =>
    intro m i j
    simp only [Memory.writeBytes, ih, Memory.read_write, List.length_cons]
    by_cases h : j = i
    · subst h; simp
    · by_cases h2 : i + 1 ≤ j ∧ j < i + 1 + v.length
      · have : j - i = (j - (i + 1)) + 1 := by omega
        rw [if_pos h2, if_pos (by omega), this]; simp
      · rw [if_neg h2, if_neg h, if_neg (by omega)]

theorem Memory.read_keep (m : Memory) (lo hi k : Nat) :
    Memory.read (Memory.keep m lo hi) k = if lo ≤ k ∧ k < hi then Memory.read m k else none := by
  induction m with
  | nil => simp [Memory.keep, Memory.read]
  | cons c m ih =>
    obtain ⟨a, b⟩ := c
    simp only [Memory.keep] at ih ⊢
    by_cases h : lo ≤ a ∧ a < hi
    · rw [List.filter_cons_of_pos (by simpa using h)]
      simp only [Memory.read, ih]; grind
    · rw [List.filter_cons_of_neg (by simpa using h)]
      simp only [Memory.read, ih]; grind

/-! ### The canonical form -/

theorem Memory.risingFrom_mono (m : Memory) : ∀ {lo lo' : Nat}, lo' ≤ lo → Memory.risingFrom lo m = true →
    Memory.risingFrom lo' m = true := by
  cases m with
  | nil => intros; rfl
  | cons c m => intro lo lo' h; simp only [Memory.risingFrom, Bool.and_eq_true, decide_eq_true_eq]; grind

theorem Memory.risingFrom_write (m : Memory) : ∀ (lo k : Nat) (v : Byte), lo ≤ k → Memory.risingFrom lo m = true →
    Memory.risingFrom lo (Memory.write m k v) = true := by
  induction m with
  | nil => intro lo k v h _; simpa [Memory.write, Memory.risingFrom] using h
  | cons c m ih =>
    obtain ⟨a, b⟩ := c
    intro lo k v h hr
    simp only [Memory.risingFrom, Bool.and_eq_true, decide_eq_true_eq] at hr
    simp only [Memory.write]
    split
    · simp only [Memory.risingFrom, Bool.and_eq_true, decide_eq_true_eq]
      exact ⟨h, by omega, hr.2⟩
    · split
      · subst_vars; simp only [Memory.risingFrom, Bool.and_eq_true, decide_eq_true_eq]; exact ⟨h, hr.2⟩
      · simp only [Memory.risingFrom, Bool.and_eq_true, decide_eq_true_eq]
        exact ⟨hr.1, ih _ _ _ (by omega) hr.2⟩

theorem Memory.wf_write (m : Memory) (k : Nat) (v : Byte) (h : Memory.wf m = true) :
    Memory.wf (Memory.write m k v) = true := Memory.risingFrom_write m 0 k v (Nat.zero_le _) h

theorem Memory.wf_writeBytes (v : List Byte) : ∀ (m : Memory) (i : Nat), Memory.wf m = true →
    Memory.wf (Memory.writeBytes m i v) = true := by
  induction v with
  | nil => intro m i h; exact h
  | cons b v ih => intro m i h; exact ih _ _ (Memory.wf_write m i b h)

theorem Memory.risingFrom_keep (m : Memory) (lo hi : Nat) : ∀ n, Memory.risingFrom n m = true →
    Memory.risingFrom n (Memory.keep m lo hi) = true := by
  induction m with
  | nil => intro n h; rfl
  | cons c m ih =>
    obtain ⟨a, b⟩ := c
    intro n h
    simp only [Memory.risingFrom, Bool.and_eq_true, decide_eq_true_eq] at h
    simp only [Memory.keep] at ih ⊢
    by_cases hc : lo ≤ a ∧ a < hi
    · rw [List.filter_cons_of_pos (by simpa using hc)]
      simp only [Memory.risingFrom, Bool.and_eq_true, decide_eq_true_eq]
      exact ⟨h.1, ih _ h.2⟩
    · rw [List.filter_cons_of_neg (by simpa using hc)]
      exact Memory.risingFrom_mono _ (by omega) (ih _ h.2)

theorem Memory.wf_keep (m : Memory) (lo hi : Nat) (h : Memory.wf m = true) :
    Memory.wf (Memory.keep m lo hi) = true := Memory.risingFrom_keep m lo hi 0 h

theorem Memory.wf_drawBytes (drawn n : Nat) : ∀ (m : Memory) (i : Nat), Memory.wf m = true →
    Memory.wf (drawBytes m drawn i n) = true := by
  induction n with
  | zero => intro m i h; exact h
  | succ n ih =>
    intro m i h
    simp only [drawBytes]
    split
    · exact ih _ _ h
    · exact ih _ _ (Memory.wf_write _ _ _ h)

/-! ### Drawn bytes -/

/-- A byte that is listed keeps its value, and so does every byte outside the drawn ones. -/
theorem Memory.read_drawBytes_some (drawn n : Nat) : ∀ (m : Memory) (i j : Nat) (b : Byte), Memory.read m j = some b →
    Memory.read (drawBytes m drawn i n) j = some b := by
  induction n with
  | zero => intro m i j b h; exact h
  | succ n ih =>
    intro m i j b h
    simp only [drawBytes]
    apply ih
    split
    · exact h
    · rw [Memory.read_write]; grind

theorem Memory.read_drawBytes_outside (drawn n : Nat) : ∀ (m : Memory) (i j : Nat), ¬ (i ≤ j ∧ j < i + n) →
    Memory.read (drawBytes m drawn i n) j = Memory.read m j := by
  induction n with
  | zero => intro m i j h; rfl
  | succ n ih =>
    intro m i j h
    simp only [drawBytes]
    rw [ih _ _ _ (by omega)]
    split
    · rfl
    · rw [Memory.read_write, if_neg (by omega)]

/-- Every byte of the drawn range is listed. -/
theorem Memory.read_drawBytes_isSome (drawn n : Nat) : ∀ (m : Memory) (i j : Nat), i ≤ j → j < i + n →
    (Memory.read (drawBytes m drawn i n) j).isSome = true := by
  induction n with
  | zero => intro m i j h h2; omega
  | succ n ih =>
    intro m i j h h2
    simp only [drawBytes]
    by_cases hj : i + 1 ≤ j
    · exact ih _ _ _ hj (by omega)
    · have : j = i := by omega
      subst this
      split
      · next b hb => rw [Memory.read_drawBytes_some drawn n _ _ j b hb]; rfl
      · rw [Memory.read_drawBytes_some drawn n _ _ j _ (by rw [Memory.read_write, if_pos rfl])]; rfl

/-! ### Addresses -/

theorem Memory.mem_write {m : Memory} {k : Nat} {v : Byte} {c : Host.Cell} (h : c ∈ Memory.write m k v) :
    c.1 = k ∨ c ∈ m := by
  induction m with
  | nil => simp [Memory.write] at h; simp [h]
  | cons d m ih =>
    obtain ⟨a, b⟩ := d
    simp only [Memory.write] at h
    split at h
    · simp only [List.mem_cons] at h ⊢; grind
    · split at h
      · simp only [List.mem_cons] at h ⊢; grind
      · simp only [List.mem_cons] at h ⊢; grind

theorem Memory.mem_writeBytes (v : List Byte) : ∀ {m : Memory} {i : Nat} {c : Host.Cell},
    c ∈ Memory.writeBytes m i v → (i ≤ c.1 ∧ c.1 < i + v.length) ∨ c ∈ m := by
  induction v with
  | nil => intro m i c h; exact Or.inr h
  | cons b v ih =>
    intro m i c h
    rcases ih h with h | h
    · simp only [List.length_cons]; omega
    · rcases Memory.mem_write h with h | h
      · simp only [List.length_cons]; omega
      · exact Or.inr h

theorem Memory.mem_drawBytes (drawn n : Nat) : ∀ {m : Memory} {i : Nat} {c : Host.Cell},
    c ∈ drawBytes m drawn i n → (i ≤ c.1 ∧ c.1 < i + n) ∨ c ∈ m := by
  induction n with
  | zero => intro m i c h; exact Or.inr h
  | succ n ih =>
    intro m i c h
    simp only [drawBytes] at h
    rcases ih h with h | h
    · omega
    · split at h
      · exact Or.inr h
      · rcases Memory.mem_write h with h | h
        · omega
        · exact Or.inr h

theorem Memory.mem_keep {m : Memory} {lo hi : Nat} {c : Host.Cell} (h : c ∈ Memory.keep m lo hi) : c ∈ m :=
  (List.mem_filter.mp h).1

/-! ### MemRead -/

@[simp] theorem memRead_length (s : State) (k n : Nat) : (memRead s k n).length = n := by simp [memRead]

@[simp] theorem memRead_getElem? (s : State) (k n i : Nat) :
    (memRead s k n)[i]? = if i < n then some (byteAt s (s.sb.rd + k + i)) else none := by
  unfold memRead
  by_cases h : i < n <;> simp [h]

theorem memRead_congr {s t : State} (k n : Nat) (hb : s.sb.bytes = t.sb.bytes) (hr : s.sb.rd = t.sb.rd) :
    memRead s k n = memRead t k n := by simp [memRead, byteAt, hb, hr]

end Sys2Proof.Machine
end

