-- ==== Sys2Proof/Laws/Ops.lean ====
section
/-! SUPPORT. What each shared operation over the environment, the buffer, the registry and the context can do: one lemma an
operation, to be cited instead of unfolding it. -/

namespace Sys2Proof.Machine

/-! ### The environment -/

/-- A draw takes the oldest scripted answer, or a free value; either way only `answers` and `drawn` change. -/
theorem draw_cases (s : State) :
    (∃ a rest, s.env.answers = a :: rest ∧ draw s = (a, s.withEnv { s.env with answers := rest })) ∨
    (s.env.answers = [] ∧ draw s = (Config.freeAnswer s.env.drawn, s.withEnv { s.env with drawn := s.env.drawn + 1 })) := by
  unfold draw
  cases h : s.env.answers with
  | nil => exact Or.inr ⟨rfl, rfl⟩
  | cons a rest => exact Or.inl ⟨a, rest, rfl, rfl⟩

theorem draw_cons {s : State} {a : Bool} {rest : List Bool} (h : s.env.answers = a :: rest) :
    draw s = (a, s.withEnv { s.env with answers := rest }) := by
  unfold draw; rw [h]

/-- A draw leaves everything but the environment, and there only `answers` and `drawn` change. -/
theorem draw_frame (s : State) : ∃ ans n, (draw s).2 = s.withEnv { s.env with answers := ans, drawn := n } := by
  rcases draw_cases s with ⟨a, rest, -, h⟩ | ⟨-, h⟩
  · exact ⟨rest, s.env.drawn, by rw [h]⟩
  · exact ⟨s.env.answers, s.env.drawn + 1, by rw [h]⟩

/-! ### The staging buffer -/

/-- The fields of a committed buffer; its bytes are the drawn ones (40_staging_buffer.md R209). -/
theorem commitBytes_eq (n : Nat) (s : State) :
    commitBytes n s = { s with
      sb := { bytes := drawBytes s.sb.bytes s.env.drawn s.sb.wr n, rd := s.sb.rd, wr := s.sb.wr + n,
              used := s.sb.used + n, claimLen := 0 }
      env := { s.env with drawn := s.env.drawn + n } } := rfl

theorem consumeBytes_zero (s : State) : consumeBytes 0 s = s := rfl

/-- A consume that leaves something: the read cursor moves (40_staging_buffer.md R210). -/
theorem consumeBytes_part {n : Nat} {s : State} (h : 0 < n) (h2 : n < s.sb.used) :
    consumeBytes n s = s.withSb { s.sb with rd := s.sb.rd + n, used := s.sb.used - n, claimLen := 0 } := by
  unfold consumeBytes; rw [if_neg (by omega), if_neg (by omega)]

/-- A consume that drains the buffer resets both cursors (40_staging_buffer.md R210). -/
theorem consumeBytes_drain {n : Nat} {s : State} (h : 0 < n) (h2 : s.sb.used ≤ n) :
    consumeBytes n s = s.withSb { s.sb with rd := 0, wr := 0, used := 0, claimLen := 0 } := by
  unfold consumeBytes; rw [if_neg (by omega), if_pos (by omega)]

@[simp] theorem consumeBytes_par (n : Nat) (s : State) : (consumeBytes n s).par = s.par := by
  unfold consumeBytes; split <;> [rfl; split <;> rfl]
@[simp] theorem consumeBytes_ctx (n : Nat) (s : State) : (consumeBytes n s).ctx = s.ctx := by
  unfold consumeBytes; split <;> [rfl; split <;> rfl]
@[simp] theorem consumeBytes_reg (n : Nat) (s : State) : (consumeBytes n s).reg = s.reg := by
  unfold consumeBytes; split <;> [rfl; split <;> rfl]
@[simp] theorem consumeBytes_env (n : Nat) (s : State) : (consumeBytes n s).env = s.env := by
  unfold consumeBytes; split <;> [rfl; split <;> rfl]

/-- A consume never changes a byte. -/
@[simp] theorem consumeBytes_bytes (n : Nat) (s : State) : (consumeBytes n s).sb.bytes = s.sb.bytes := by
  unfold consumeBytes; split <;> [rfl; split <;> rfl]

@[simp] theorem consumeBytes_used (n : Nat) (s : State) : (consumeBytes n s).sb.used = s.sb.used - n := by
  unfold consumeBytes; split <;> rename_i h
  · subst h; rfl
  · split
    · simp; omega
    · rfl

@[simp] theorem commitBytes_par (n : Nat) (s : State) : (commitBytes n s).par = s.par := rfl
@[simp] theorem commitBytes_ctx (n : Nat) (s : State) : (commitBytes n s).ctx = s.ctx := rfl
@[simp] theorem commitBytes_reg (n : Nat) (s : State) : (commitBytes n s).reg = s.reg := rfl

@[simp] theorem claimRegion_par (n : Nat) (s : State) : (claimRegion n s).par = s.par := by
  unfold claimRegion; split <;> rfl
@[simp] theorem claimRegion_ctx (n : Nat) (s : State) : (claimRegion n s).ctx = s.ctx := by
  unfold claimRegion; split <;> rfl
@[simp] theorem claimRegion_reg (n : Nat) (s : State) : (claimRegion n s).reg = s.reg := by
  unfold claimRegion; split <;> rfl
@[simp] theorem claimRegion_env (n : Nat) (s : State) : (claimRegion n s).env = s.env := by
  unfold claimRegion; split <;> rfl

/-- A claim with room in the tail moves nothing (40_staging_buffer.md R206). -/
theorem claimRegion_tail {n : Nat} {s : State} (h : n ≤ s.par.cap - s.sb.wr) :
    claimRegion n s = s.withSb { s.sb with bytes := Memory.keep s.sb.bytes s.sb.rd s.sb.wr, claimLen := n } := by
  unfold claimRegion; rw [if_neg (by omega)]

/-- A claim without room in the tail compacts first (40_staging_buffer.md R206, R207). -/
theorem claimRegion_compact {n : Nat} {s : State} (h : s.par.cap - s.sb.wr < n) :
    claimRegion n s = s.withSb
      { bytes := Memory.keep (Memory.writeBytes [] 0 (memRead s 0 s.sb.used)) 0 s.sb.used
        rd := 0, wr := s.sb.used, used := s.sb.used, claimLen := n } := by
  unfold claimRegion; rw [if_pos h]; rfl

/-! ### The registry -/

theorem registryFind_congr {s t : State} (hp : s.par = t.par) (hr : s.reg = t.reg) (id : Nat) :
    registryFind s id = registryFind t id := by unfold registryFind; rw [hp, hr]

theorem findTransport_congr {s t : State} (hp : s.par = t.par) (hr : s.reg = t.reg) :
    findTransport s = findTransport t := by unfold findTransport; rw [registryFind_congr hp hr]

/-! ### The context -/

@[simp] theorem codeOf_congr_par (s : State) (e : Env) (st : Status) : codeOf (s.withEnv e) st = codeOf s st := rfl

/-- The end of a wait that `reset` or `deinit` finds open (70_reset_and_hazards.md R702, R703). -/
theorem failOpenWait_waiting {s : State} (h : s.ctx.waitForAck = true) :
    failOpenWait s = emit (.sendResult (codeOf s .failed)) (setAckStatus (codeOf s .failed) s) := by
  unfold failOpenWait; rw [if_pos h]

theorem failOpenWait_idle {s : State} (h : s.ctx.waitForAck = false) : failOpenWait s = s := by
  unfold failOpenWait; rw [if_neg (by simp [h])]

/-- A protocol reset without a wait: the fields of 70_reset_and_hazards.md R705 and the unlock hooks. -/
theorem protocolReset_idle {s : State} (h : s.ctx.waitForAck = false) :
    protocolReset s = emitAll (unlockCalls s) (resetFields s) := by
  unfold protocolReset; rw [failOpenWait_idle h]; rfl

/-- A protocol reset that finds a wait ends it with FAILED first. -/
theorem protocolReset_waiting {s : State} (h : s.ctx.waitForAck = true) :
    protocolReset s = emitAll (unlockCalls s)
      (resetFields (emit (.sendResult (codeOf s .failed)) (setAckStatus (codeOf s .failed) s))) := by
  unfold protocolReset; rw [failOpenWait_waiting h]; rfl

/-- What a protocol reset leaves of the parts of the state other than the outputs. -/
theorem protocolReset_parts (s : State) :
    (protocolReset s).par = s.par ∧ (protocolReset s).sb = s.sb ∧ (protocolReset s).reg = s.reg ∧
    ∃ st, (protocolReset s).ctx = { (resetFields s).ctx with ackStatus := st } := by
  cases h : s.ctx.waitForAck
  · rw [protocolReset_idle h]; exact ⟨rfl, rfl, rfl, s.ctx.ackStatus, rfl⟩
  · rw [protocolReset_waiting h]; exact ⟨rfl, rfl, rfl, codeOf s .failed, rfl⟩

end Sys2Proof.Machine
end

