-- ==== Sys2Proof/Laws/Buffer.lean ====
section
/-! SUPPORT. The invariants of the staging buffer (10_state.md R48-R50) under each buffer operation, and what each does to
the readable bytes. -/

namespace Sys2Proof.Machine

theorem freshBuffer_valid (cap : Nat) : BufferValid cap freshBuffer :=
  ⟨rfl, Nat.zero_le _, fun _ => ⟨rfl, rfl⟩, rfl, fun _ h => absurd h (List.not_mem_nil), fun i h1 h2 => by
    simp only [freshBuffer] at h1 h2; omega⟩

/-- A claim length of 0 keeps the invariants (40_staging_buffer.md R206, R214). -/
theorem BufferValid.unclaim {cap : Nat} {b : StagingBuffer} (h : BufferValid cap b) :
    BufferValid cap { b with claimLen := 0 } :=
  ⟨h.cursors, by have := h.room; simp only; omega, h.drained, h.canonical, h.inside, h.readable⟩

/-- Consuming keeps the invariants (40_staging_buffer.md R210). -/
theorem BufferValid.consume {s : State} {cap n : Nat} (h : BufferValid cap s.sb) : BufferValid cap (consumeBytes n s).sb := by
  have hc := h.cursors
  have hr := h.room
  by_cases h0 : n = 0
  · subst h0; exact h
  by_cases h1 : s.sb.used ≤ n
  · rw [consumeBytes_drain (by omega) h1]
    exact ⟨rfl, Nat.zero_le _, fun _ => ⟨rfl, rfl⟩, h.canonical, h.inside, fun i h1 h2 => by simp at h1 h2⟩
  · rw [consumeBytes_part (by omega) (by omega)]
    refine ⟨?_, ?_, ?_, h.canonical, h.inside, ?_⟩
    · simp; omega
    · simp; omega
    · intro hz; simp at hz; omega
    · intro i hi1 hi2; exact h.readable i (by simp at hi1; omega) hi2

/-- Compaction keeps every readable byte (40_staging_buffer.md R207). -/
theorem byteAt_compact {s : State} {i : Nat} (h : i < s.sb.used) : byteAt (compact s) i = byteAt s (s.sb.rd + i) := by
  unfold byteAt
  rw [compact_sb]
  simp only [Memory.read_writeBytes, memRead_length]
  rw [if_pos ⟨Nat.zero_le _, by omega⟩, memRead_getElem?, if_pos (by omega)]
  simp [byteAt]

theorem memRead_compact {s : State} {k n : Nat} (h : k + n ≤ s.sb.used) : memRead (compact s) k n = memRead s k n := by
  unfold memRead
  apply List.map_congr_left
  intro i hi
  have hi' : i < n := List.mem_range.mp hi
  rw [compact_sb]
  simp only [Nat.zero_add]
  rw [byteAt_compact (by omega), Nat.add_assoc]

theorem BufferValid.compact {s : State} {cap : Nat} (h : BufferValid cap s.sb) :
    BufferValid cap { (compact s).sb with claimLen := 0 } := by
  have hc := h.cursors
  have hr := h.room
  rw [compact_sb]
  refine ⟨by simp, by simp only; omega, fun hz => ⟨rfl, hz⟩, Memory.wf_writeBytes _ _ _ rfl, ?_, ?_⟩
  · intro c hm
    rcases Memory.mem_writeBytes _ hm with hh | hh
    · rw [memRead_length] at hh; omega
    · cases hh
  · intro i _ h2
    simp only at h2 ⊢
    rw [Memory.read_writeBytes, memRead_length, if_pos ⟨Nat.zero_le _, by omega⟩]
    simp [h2]

/-- Forgetting the bytes outside the readable region, and claiming what fits behind it (40_staging_buffer.md R206). -/
theorem BufferValid.claimTail {cap n : Nat} {b : StagingBuffer} (h : BufferValid cap b) (hn : b.wr + n ≤ cap) :
    BufferValid cap { b with bytes := Memory.keep b.bytes b.rd b.wr, claimLen := n } := by
  refine ⟨h.cursors, hn, h.drained, Memory.wf_keep _ _ _ h.canonical, fun c hc => h.inside c (Memory.mem_keep hc), ?_⟩
  intro i h1 h2
  simp only at h1 h2 ⊢
  rw [Memory.read_keep, if_pos ⟨h1, h2⟩]; exact h.readable i h1 h2

/-- A successful claim keeps the invariants (40_staging_buffer.md R206). -/
theorem BufferValid.claim {s : State} {n : Nat} (h : BufferValid s.par.cap s.sb) (hn : s.sb.used + n ≤ s.par.cap) :
    BufferValid s.par.cap (claimRegion n s).sb := by
  by_cases hc : n ≤ s.par.cap - s.sb.wr
  · rw [claimRegion_tail hc]
    exact h.claimTail (by have := h.room; omega)
  · rw [claimRegion_compact (by omega)]
    exact h.compact.claimTail (by simpa using hn)

/-- A write inside the claimed region keeps the invariants (40_staging_buffer.md R208). -/
theorem BufferValid.fill {s : State} {i : Nat} {v : List Byte} (h : BufferValid s.par.cap s.sb)
    (hf : fillAllowed i v.length s = true) : BufferValid s.par.cap (fillBytes i v s).sb := by
  simp only [fillAllowed, Bool.and_eq_true, decide_eq_true_eq] at hf
  have hr := h.room
  rw [fillBytes_sb]
  refine ⟨h.cursors, h.room, h.drained, Memory.wf_writeBytes _ _ _ h.canonical, ?_, ?_⟩
  · intro c hc
    rcases Memory.mem_writeBytes _ hc with hh | hh
    · omega
    · exact h.inside c hh
  · intro j h1 h2
    simp only at h1 h2 ⊢
    rw [Memory.read_writeBytes, if_neg (by omega)]; exact h.readable j h1 h2

/-- A commit within the claim keeps the invariants (40_staging_buffer.md R209). -/
theorem BufferValid.commit {s : State} {n : Nat} (h : BufferValid s.par.cap s.sb) (hn : n ≤ s.sb.claimLen) (h0 : 0 < n) :
    BufferValid s.par.cap (commitBytes n s).sb := by
  have hr := h.room
  have hc := h.cursors
  rw [commitBytes_eq]
  refine ⟨by simp only; omega, by simp only; omega, fun hz => by simp only at hz; omega,
    Memory.wf_drawBytes _ _ _ _ h.canonical, ?_, ?_⟩
  · intro c hm
    rcases Memory.mem_drawBytes _ _ hm with hh | hh
    · omega
    · exact h.inside c hh
  · intro i h1 h2
    simp only at h1 h2 ⊢
    by_cases hi : i < s.sb.wr
    · rw [Memory.read_drawBytes_outside _ _ _ _ _ (by omega)]; exact h.readable i h1 hi
    · exact Memory.read_drawBytes_isSome _ _ _ _ _ (by omega) (by omega)

/-- What is left of a port operation on the buffer: it keeps the invariants, and changes only the buffer. -/
theorem claim_valid {s t : State} {n : Nat} {r : Option Nat} (h : BufferValid s.par.cap s.sb)
    (hc : Machine.claim n s = (r, t)) :
    BufferValid s.par.cap t.sb ∧ t.par = s.par ∧ t.ctx = s.ctx ∧ t.reg = s.reg ∧ t.env = s.env := by
  unfold Machine.claim at hc
  split at hc
  · cases hc; exact ⟨h, rfl, rfl, rfl, rfl⟩
  · split at hc
    · cases hc; exact ⟨h.unclaim, rfl, rfl, rfl, rfl⟩
    · rename_i h0 h1
      cases hc
      exact ⟨h.claim (by omega), by simp, by simp, by simp, by simp⟩

/-! ### The readable bytes -/

@[simp] theorem readable_length (s : State) : (readable s).length = s.sb.used := by simp [readable]

theorem readable_getElem? (s : State) (i : Nat) :
    (readable s)[i]? = if i < s.sb.used then some (byteAt s (s.sb.rd + i)) else none := by
  unfold readable; rw [memRead_getElem?]; simp

/-- Consuming removes bytes from the front and nothing else (40_staging_buffer.md R210, 20_memory.md R107). -/
theorem readable_consume (n : Nat) (s : State) : readable (consumeBytes n s) = (readable s).drop n := by
  apply List.ext_getElem?
  intro i
  rw [readable_getElem?, consumeBytes_used, List.getElem?_drop, readable_getElem?]
  by_cases h0 : n = 0
  · subst h0; simp [consumeBytes_zero]
  by_cases h1 : s.sb.used ≤ n
  · rw [if_neg (by omega), if_neg (by omega)]
  · by_cases hi : i < s.sb.used - n
    · rw [if_pos hi, if_pos (by omega), consumeBytes_part (by omega) (by omega)]
      simp [byteAt, Nat.add_assoc]
    · rw [if_neg hi, if_neg (by omega)]

@[simp] theorem claimRegion_used (n : Nat) (s : State) : (claimRegion n s).sb.used = s.sb.used := by
  unfold claimRegion; split <;> rfl

/-- A claim moves the readable bytes at most; it changes none (40_staging_buffer.md R206, R207). -/
theorem readable_claimRegion {s : State} (h : s.sb.rd + s.sb.used = s.sb.wr) (n : Nat) :
    readable (claimRegion n s) = readable s := by
  apply List.ext_getElem?
  intro i
  rw [readable_getElem?, readable_getElem?, claimRegion_used]
  by_cases hi : i < s.sb.used
  · rw [if_pos hi, if_pos hi]
    congr 1
    by_cases hc : n ≤ s.par.cap - s.sb.wr
    · rw [claimRegion_tail hc]
      simp only [byteAt, State.withSb_sb, Memory.read_keep]
      rw [if_pos (by omega)]
    · rw [← byteAt_compact hi, claimRegion_compact (by omega)]
      simp only [byteAt, State.withSb_sb, Memory.read_keep, compact_sb]
      rw [if_pos (by omega), Nat.zero_add]
  · rw [if_neg hi, if_neg hi]

theorem readable_lt {s : State} {i : Nat} (h : i < s.sb.used) : (readable s)[i]? = some (byteAt s (s.sb.rd + i)) := by
  rw [readable_getElem?, if_pos h]

theorem readable_ge {s : State} {i : Nat} (h : s.sb.used ≤ i) : (readable s)[i]? = none := by
  rw [readable_getElem?, if_neg (by omega)]

/-- A write behind the readable region leaves it alone (40_staging_buffer.md R208). -/
theorem readable_fill {s : State} (h : s.sb.rd + s.sb.used = s.sb.wr) {i : Nat} (hi : s.sb.wr ≤ i) (v : List Byte) :
    readable (fillBytes i v s) = readable s := by
  apply List.ext_getElem?
  intro j
  by_cases hj : j < s.sb.used
  · rw [readable_lt (s := fillBytes i v s) hj, readable_lt hj]
    simp only [byteAt, fillBytes_sb, Memory.read_writeBytes]
    rw [if_neg (by omega)]
  · rw [readable_ge (s := fillBytes i v s) (Nat.le_of_not_lt hj), readable_ge (Nat.le_of_not_lt hj)]

/-- Committing what was filled at the write cursor appends it (40_staging_buffer.md R209, R211). -/
theorem readable_commit_filled {s : State} (h : s.sb.rd + s.sb.used = s.sb.wr)
    (hr : ∀ i, s.sb.rd ≤ i → i < s.sb.wr → (Memory.read s.sb.bytes i).isSome = true) (v : List Byte) :
    readable (commitBytes v.length (fillBytes s.sb.wr v s)) = readable s ++ v := by
  apply List.ext_getElem?
  intro j
  have hb : ∀ b, Memory.read (Memory.writeBytes s.sb.bytes s.sb.wr v) (s.sb.rd + j) = some b →
      byteAt (commitBytes v.length (fillBytes s.sb.wr v s)) (s.sb.rd + j) = b := by
    intro b hw
    show (Memory.read (drawBytes (Memory.writeBytes s.sb.bytes s.sb.wr v) _ _ _) _).getD _ = b
    rw [Memory.read_drawBytes_some _ _ _ _ _ b hw]; rfl
  by_cases hj : j < s.sb.used
  · rw [readable_lt (s := commitBytes v.length (fillBytes s.sb.wr v s)) (show j < s.sb.used + v.length by omega),
      List.getElem?_append_left (by simpa using hj), readable_lt hj]
    obtain ⟨b, hr⟩ := Option.isSome_iff_exists.mp (hr (s.sb.rd + j) (by omega) (by omega))
    congr 1
    refine (hb b (by rw [Memory.read_writeBytes, if_neg (by omega), hr])).trans ?_
    simp [byteAt, hr]
  · rw [List.getElem?_append_right (by simpa using hj), readable_length]
    by_cases hj2 : j < s.sb.used + v.length
    · rw [readable_lt (s := commitBytes v.length (fillBytes s.sb.wr v s)) hj2, List.getElem?_eq_getElem (by omega)]
      congr 1
      apply hb
      rw [Memory.read_writeBytes, if_pos (by omega), List.getElem?_eq_some_iff]
      exact ⟨by omega, by congr 1; omega⟩
    · rw [readable_ge (s := commitBytes v.length (fillBytes s.sb.wr v s)) (Nat.le_of_not_lt hj2),
        List.getElem?_eq_none (by omega)]

end Sys2Proof.Machine
end

