-- ==== Sys2Proof/Laws/Codec.lean ====
section
/-! SUPPORT. Little-endian assembly is undone by its encoding; the sizes and the bytes of a built header and packet. -/

namespace Sys2Proof

/-- Two bytes put together and taken apart again (00_scope.md R13). -/
theorem half_of_bytes (v : Half) : v.extractLsb' 8 8 ++ v.extractLsb' 0 8 = v := by
  apply BitVec.eq_of_getLsbD_eq
  intro i hi
  rw [BitVec.getLsbD_append, BitVec.getLsbD_extractLsb', BitVec.getLsbD_extractLsb']
  by_cases h : i < 8
  · simp [h]
  · rw [if_neg h, decide_eq_true (show i - 8 < 8 by omega), Bool.true_and]; congr 1; omega

theorem word_of_bytes (v : Word) :
    v.extractLsb' 24 8 ++ v.extractLsb' 16 8 ++ v.extractLsb' 8 8 ++ v.extractLsb' 0 8 = v := by
  apply BitVec.eq_of_getLsbD_eq
  intro i hi
  rw [BitVec.getLsbD_append, BitVec.getLsbD_append, BitVec.getLsbD_append, BitVec.getLsbD_extractLsb',
    BitVec.getLsbD_extractLsb', BitVec.getLsbD_extractLsb', BitVec.getLsbD_extractLsb']
  by_cases h : i < 8
  · simp [h]
  by_cases h2 : i - 8 < 8
  · rw [if_neg h, if_pos h2, decide_eq_true h2, Bool.true_and]; congr 1; omega
  by_cases h3 : i - 8 - 8 < 8
  · rw [if_neg h, if_neg h2, if_pos h3, decide_eq_true h3, Bool.true_and]; congr 1; omega
  · rw [if_neg h, if_neg h2, if_neg h3, decide_eq_true (show i - 8 - 8 - 8 < 8 by omega), Bool.true_and]; congr 1; omega

theorem bytes_of_half (a b : Byte) : (b ++ a : Half).extractLsb' 0 8 = a ∧ (b ++ a : Half).extractLsb' 8 8 = b := by
  constructor <;>
  · apply BitVec.eq_of_getLsbD_eq
    intro i hi
    rw [BitVec.getLsbD_extractLsb', BitVec.getLsbD_append, decide_eq_true hi, Bool.true_and]
    grind

theorem bytes_of_word (a b c d : Byte) :
    (d ++ c ++ b ++ a : Word).extractLsb' 0 8 = a ∧ (d ++ c ++ b ++ a : Word).extractLsb' 8 8 = b ∧
    (d ++ c ++ b ++ a : Word).extractLsb' 16 8 = c ∧ (d ++ c ++ b ++ a : Word).extractLsb' 24 8 = d := by
  refine ⟨?_, ?_, ?_, ?_⟩ <;>
  · apply BitVec.eq_of_getLsbD_eq
    intro i hi
    rw [BitVec.getLsbD_extractLsb', BitVec.getLsbD_append, BitVec.getLsbD_append, BitVec.getLsbD_append,
      decide_eq_true hi, Bool.true_and]
    grind

/-- `enc16` of an assembled half (00_scope.md R13). -/
@[simp] theorem enc16_append (a b : Byte) : enc16 (b ++ a) = [a, b] := by
  unfold enc16; rw [(bytes_of_half a b).1, (bytes_of_half a b).2]

@[simp] theorem enc32_append (a b c d : Byte) : enc32 (d ++ c ++ b ++ a) = [a, b, c, d] := by
  obtain ⟨h0, h1, h2, h3⟩ := bytes_of_word a b c d
  unfold enc32; rw [h0, h1, h2, h3]

@[simp] theorem enc16_length (v : Half) : (enc16 v).length = 2 := rfl
@[simp] theorem enc32_length (v : Word) : (enc32 v).length = 4 := rfl

/-- `le16` reads what `enc16` wrote, wherever it stands (00_scope.md R13). -/
theorem le16_enc16 (pre post : List Byte) (v : Half) : le16 (pre ++ enc16 v ++ post) pre.length = v := by
  unfold le16 byteOf enc16
  simp [List.getD_eq_getElem?_getD]
  exact half_of_bytes v

theorem le32_enc32 (pre post : List Byte) (v : Word) : le32 (pre ++ enc32 v ++ post) pre.length = v := by
  unfold le32 byteOf enc32
  simp [List.getD_eq_getElem?_getD]
  exact word_of_bytes v

@[simp] theorem headerBytes_length (h : Hdr) : (headerBytes h).length = 10 := rfl

/-- The header fields that ten header bytes spell, whatever follows them (00_scope.md R16). -/
theorem hdrOf_headerBytes (h : Hdr) (post : List Byte) : hdrOf (headerBytes h ++ post) = h := by
  obtain ⟨sq, ch, fl, op, ln, cr⟩ := h
  unfold hdrOf headerBytes
  congr 1
  · exact half_of_bytes ln
  · exact half_of_bytes cr

theorem le16_headerBytes_sync (h : Hdr) (post : List Byte) : le16 (headerBytes h ++ post) 0 = Config.syncWord := by
  unfold le16 byteOf headerBytes Config.syncWord
  simp

theorem bodyBytes_length (pl : List Byte) (c : Word) :
    (bodyBytes pl c).length = if pl.length = 0 then 0 else pl.length + 4 := by
  unfold bodyBytes
  cases pl <;> simp

/-- The size of a packet whose length field fits (30_encoding.md R142). -/
theorem packetTotalSize_ofNat {n : Nat} (h : n < 65536) :
    packetTotalSize (BitVec.ofNat 16 n) = 10 + (if n = 0 then 0 else n + 4) := by
  have e : (BitVec.ofNat 16 n).toNat = n := by simp; omega
  have z : BitVec.ofNat 16 n = 0#16 ↔ n = 0 := by
    constructor
    · intro h0; rw [h0] at e; simpa using e.symm
    · rintro rfl; rfl
  unfold packetTotalSize Config.headerSize Config.payloadCrcSize
  rw [e]
  by_cases h0 : n = 0
  · simp [h0]
  · simp [h0, z]; omega

end Sys2Proof

namespace Sys2Proof.Machine

open Sys2Proof.Config (Params)

@[simp] theorem buildHeader_length (par : Params) (sq ch fl op : Byte) (ln : Half) :
    (buildHeader par sq ch fl op ln).length = 10 := rfl

/-- A built header is a header on the wire: its fields, and the CRC of its first eight bytes (41_packet_codec.md R251). -/
theorem buildHeader_eq (par : Params) (sq ch fl op : Byte) (ln : Half) :
    buildHeader par sq ch fl op ln = headerBytes ⟨sq, ch, wireFlags fl, op, ln,
      crc16 par.crc16 ([0xAA#8, 0xD5#8, sq, ch, wireFlags fl, op] ++ enc16 ln)⟩ := rfl

/-- The size of a built packet (41_packet_codec.md R252, R255). -/
theorem buildPacket_length (par : Params) (sq ch fl op : Byte) (pl : List Byte) :
    (buildPacket par sq ch fl op pl).length = 10 + (if pl.length = 0 then 0 else pl.length + 4) := by
  unfold buildPacket
  rw [List.length_append, bodyBytes_length]; rfl

@[simp] theorem wireFlags_idem (fl : Byte) : wireFlags (wireFlags fl) = wireFlags fl := by
  unfold wireFlags; rw [BitVec.and_assoc, BitVec.and_self]

end Sys2Proof.Machine
end

