-- ==== Sys2Proof/Laws/Contract.lean ====
section
/-! SUPPORT. What the descriptors of the static channels can be (30_encoding.md R165), and what a LIST answer includes
(30_encoding.md R169). -/

namespace Sys2Proof.Machine

/-- Script-input has exactly the operations R165 lists. -/
theorem opsFit_scriptInput {ops : BitVec 13} (h : opsFit 1 ops = true) : ops = 0b1000010000000#13 := by
  revert ops; decide +kernel

/-- The transport has exactly the operations of the boot order (70_reset_and_hazards.md R704). -/
theorem opsFit_transport {ops : BitVec 13} (h : opsFit 0 ops = true) : ops = (transportSpec [] ⟨0, false⟩).ops := by
  revert ops; decide +kernel

/-- A read-only channel has neither write nor exec. -/
theorem opsFit_readOnly {id : Nat} (hid : id = 2 ∨ id = 3 ∨ id = 4) {ops : BitVec 13} (h : opsFit id ops = true) :
    hasOp ops .write = false ∧ hasOp ops .exec = false := by
  rcases hid with rfl | rfl | rfl <;> revert ops <;> decide +kernel

/-- Text-output, which is not lockable, has neither lock nor unlock. -/
theorem opsFit_textOutput {ops : BitVec 13} (h : opsFit 2 ops = true) :
    hasOp ops .lock = false ∧ hasOp ops .unlock = false := by
  revert ops; decide +kernel

/-- What the descriptor of a static channel holds. -/
theorem staticSpec_some {c : StaticChannel} {d : DescriptorSpec} (h : staticSpec c = some d) :
    c.id ≠ 0#8 ∧ d.staticId = some c.id ∧ reservedFlags c.id.toNat = some d.flags ∧
      opsFit c.id.toNat d.ops = true ∧ d.name = c.name ∧ d.hooks = c.hooks := by
  unfold staticSpec at h
  split at h
  · rename_i hc
    obtain ⟨f, hf, e⟩ := Option.map_eq_some_iff.mp h
    subst e
    exact ⟨hc.1, rfl, hf, hc.2, rfl, rfl⟩
  · cases h

theorem registryFind_valid {s : State} (hr : RegistryValid s.par s.reg) {i : Nat} {d : Descriptor}
    (h : registryFind s i = some d) : i < s.par.nch ∧ d.id.toNat = i ∧ d.name.length ≤ s.par.nameMax := by
  unfold registryFind at h
  split at h
  · rename_i hi
    have hs : s.reg.slots[i]? = some (some d) := by
      rcases hg : s.reg.slots[i]? with _ | _ | e <;> rw [hg] at h <;> cases h
      rfl
    exact ⟨hi, hr.ids i d hs⟩
  · cases h

/-- What stands in a LIST answer. -/
theorem mem_listEntries {s : State} {e : Config.ListEntry} :
    e ∈ listEntries s ↔ ∃ i d, i < s.par.nch ∧ registryFind s i = some d ∧ e = listEntry d := by
  unfold listEntries
  simp only [List.mem_filterMap, List.mem_range, Option.map_eq_some_iff]
  exact ⟨fun ⟨i, hi, d, hd, e⟩ => ⟨i, d, hi, hd, e.symm⟩, fun ⟨i, d, hi, hd, e⟩ => ⟨i, hi, d, hd, e.symm⟩⟩

theorem listEntries_names {s : State} (hr : RegistryValid s.par s.reg) :
    ∀ e ∈ listEntries s, e.name.length ≤ s.par.nameMax := by
  intro e he
  obtain ⟨i, d, -, hd, rfl⟩ := mem_listEntries.mp he
  exact (registryFind_valid hr hd).2.2

theorem listEntries_ascending {s : State} (hr : RegistryValid s.par s.reg) :
    (listEntries s).Pairwise (fun a b => a.id < b.id) := by
  unfold listEntries
  refine List.Pairwise.filterMap _ ?_ List.pairwise_lt_range
  intro i j hij a ha b hb
  obtain ⟨d, hd, rfl⟩ := Option.map_eq_some_iff.mp ha
  obtain ⟨e, he, rfl⟩ := Option.map_eq_some_iff.mp hb
  have h1 := (registryFind_valid hr hd).2.1
  have h2 := (registryFind_valid hr he).2.1
  show d.id < e.id
  rw [BitVec.lt_def]; omega

/-- A LIST answer includes an entry with the id and the name of each registered channel but the transport, and no other
(30_encoding.md R169, 45_opcodes.md R530). -/
theorem listAnswer_includes {s : State} (hr : RegistryValid s.par s.reg) :
    (∀ i d, i ≠ 0 → registryFind s i = some d →
      (d.id, d.name) ∈ (Config.listLayout s.par.nameMax).shown (listAnswer s)) ∧
    ∀ x ∈ (Config.listLayout s.par.nameMax).shown (listAnswer s), ∃ i d, registryFind s i = some d ∧ x = (d.id, d.name) := by
  refine ⟨fun i d hi hd => ?_, fun x hx => ?_⟩
  · obtain ⟨hn, hid, -⟩ := registryFind_valid hr hd
    refine (Config.listLayout s.par.nameMax).includes _ (listEntries_ascending hr) (listEntries_names hr) (listEntry d)
      (mem_listEntries.mpr ⟨i, d, hn, hd, rfl⟩) ?_
    intro h0
    have : d.id = 0#8 := h0
    rw [this] at hid; exact hi hid.symm
  · obtain ⟨e, he, rfl⟩ := (Config.listLayout s.par.nameMax).onlyRegistered _ (listEntries_ascending hr)
      (listEntries_names hr) x hx
    obtain ⟨i, d, -, hd, rfl⟩ := mem_listEntries.mp he
    exact ⟨i, d, hd, rfl⟩

end Sys2Proof.Machine
end

