-- ==== Sys2Proof/Laws/Crc.lean ====
section
/-! SUPPORT. The reference CRC-16 detects every change of one byte (00_scope.md R9, second assumption). -/

namespace Sys2Proof.Machine

/-- One bit of the reference CRC-16 can be undone. -/
theorem crc16Bit_injective (a b : Half) (h : crc16Bit a = crc16Bit b) : a = b := by
  have key : ∀ c : Half, (if (crc16Bit c).getLsbD 0 then ((crc16Bit c ^^^ 0x1021#16) >>> 1) ||| 0x8000#16
      else crc16Bit c >>> 1) = c := by
    intro c
    have hm : c.msb = c.getLsbD 15 := rfl
    unfold crc16Bit
    cases hc : c.msb
    · have e : (c <<< 1).getLsbD 0 = false := by simp
      simp only [Bool.false_eq_true, if_false, e]
      apply BitVec.eq_of_getLsbD_eq
      intro i hi
      rw [hm] at hc
      by_cases h15 : i = 15
      · subst h15; rw [hc]; simp
      · simp; omega
    · have e : ((c <<< 1) ^^^ 0x1021#16).getLsbD 0 = true := by simp
      simp only [if_true, e]
      rw [BitVec.xor_assoc, BitVec.xor_self, BitVec.xor_zero]
      apply BitVec.eq_of_getLsbD_eq
      intro i hi
      rw [hm] at hc
      by_cases h15 : i = 15
      · subst h15; simp [hc]
      · interval_cases i <;> simp_all
  rw [← key a, ← key b, h]

theorem crc16Byte_injective {a b : Half} {x y : Byte} (h : crc16Byte a x = crc16Byte b y) :
    a ^^^ (x ++ 0#8) = b ^^^ (y ++ 0#8) := by
  unfold crc16Byte at h
  iterate 8 replace h := crc16Bit_injective _ _ h
  exact h

theorem crc16_foldl_injective :
    ∀ (bs : List Byte) (a b : Half), bs.foldl crc16Byte a = bs.foldl crc16Byte b → a = b := by
  intro bs
  induction bs with
  | nil => intro a b h; exact h
  | cons x bs ih =>
    intro a b h
    have := crc16Byte_injective (ih _ _ h)
    simpa using congrArg (· ^^^ (x ++ 0#8 : Half)) this

/-- CRC-16/CCITT-FALSE detects any one changed byte. -/
theorem ccittFalse_detects : DetectsByteChange .ccittFalse := by
  intro bs hl k hk b hne heq
  have hk' : k < bs.length := by omega
  have e : bs = bs.take k ++ bs[k] :: bs.drop (k + 1) := by simp
  have e2 : bs.set k b = bs.take k ++ b :: bs.drop (k + 1) := by rw [List.set_eq_take_append_cons_drop, if_pos hk']
  rw [e2] at heq
  conv at heq => rhs; rw [e]
  unfold crc16 crc16CcittFalse at heq
  simp only [List.foldl_append, List.foldl_cons] at heq
  have h1 := crc16Byte_injective (crc16_foldl_injective _ _ _ heq)
  apply hne
  rw [List.getElem?_eq_getElem hk']
  have h2 := congrArg (fun v : Half => (v ^^^ (bs.take k).foldl crc16Byte 0xFFFF#16).extractLsb' 8 8) h1
  have h3 : ∀ (v : Half) (x : Byte), (v ^^^ (x ++ 0#8) ^^^ v).extractLsb' 8 8 = x := by
    intro v x
    rw [BitVec.xor_comm v, BitVec.xor_assoc, BitVec.xor_self, BitVec.xor_zero]
    apply BitVec.eq_of_getLsbD_eq; intro i hi
    rw [BitVec.getLsbD_extractLsb', decide_eq_true hi, Bool.true_and, BitVec.getLsbD_append,
      if_neg (by omega)]
    congr 1; omega
  simp only [h3] at h2
  rw [h2]

end Sys2Proof.Machine
end

