-- ==== Sys2Proof/Laws/Decode.lean ====
section
/-! SUPPORT. The pieces of the round trip between an instruction and its bytes. -/

namespace Sys2Proof

/-- Bits 7..2 of a flags byte are its upper flags (30_encoding.md R144). -/
theorem upperFlags_append (u : BitVec 6) (v : BitVec 2) : (u ++ v : Byte).extractLsb' 2 6 = u := by
  apply BitVec.eq_of_getLsbD_eq
  intro i hi
  rw [BitVec.getLsbD_extractLsb', BitVec.getLsbD_append, decide_eq_true hi, Bool.true_and]; grind

/-- Bits 1 and 0 of a flags byte. -/
theorem lowFlags_append (u : BitVec 6) (v : BitVec 2) (k : Nat) (hk : k < 2) : (u ++ v : Byte).getLsbD k = v.getLsbD k := by
  rw [BitVec.getLsbD_append, if_pos hk]

theorem Frame.rx_frame (f : Frame) (a b : Byte) : (f.rx a b).frame = f := rfl

/-- Every instruction's packet is classified as that instruction (30_encoding.md R151). -/
theorem classify_rx (i : Instr) : classify i.rx = some i := by
  cases i <;> simp only [Instr.rx, classify, Frame.rx_frame] <;>
    simp only [Frame.rx, commandFlags, ackFlags, nakFlags, upperFlags_append,
      lowFlags_append _ _ 0 (by decide), lowFlags_append _ _ 1 (by decide)] <;> try rfl
  rename_i op a u f
  cases a <;> rfl

/-- The packet that header bytes and body bytes spell, whatever follows them (30_encoding.md R140). -/
theorem rxOf_encode (h : Hdr) (pl : List Byte) (c : Word) (rest : List Byte) (hl : pl.length = h.length.toNat)
   (hc : pl = [] → c = 0#32) : rxOf (headerBytes h ++ bodyBytes pl c ++ rest) = ⟨h, pl, c⟩ := by
  unfold rxOf
  have e : hdrOf (headerBytes h ++ bodyBytes pl c ++ rest) = h := by rw [List.append_assoc, hdrOf_headerBytes]
  simp only [e]
  have d : (headerBytes h ++ bodyBytes pl c ++ rest).drop Config.headerSize = bodyBytes pl c ++ rest := by
    rw [List.append_assoc]; exact List.drop_left' (by rfl)
  rw [d, ← hl]
  cases pl with
  | nil =>
    have : h.length = 0#16 := BitVec.eq_of_toNat_eq (by simpa using hl.symm)
    simp [this, hc rfl]
  | cons b pl =>
    have : h.length ≠ 0#16 := by intro h0; rw [h0] at hl; simp at hl
    simp only [this, if_false, bodyBytes, List.isEmpty_cons, Bool.false_eq_true]
    congr 1
    · rw [List.append_assoc]; exact List.take_left' rfl
    · exact le32_enc32 _ _ _


/-- The length of an instruction's bytes, and what its packet holds, when the instruction is well-formed. -/
theorem encode_facts {i : Instr} (h : i.wellFormed = true) :
    (encode i).length = packetTotalSize i.rx.hdr.length ∧ i.rx.payload.length = i.rx.hdr.length.toNat ∧
      (i.rx.payload = [] → i.rx.payloadCrc = 0#32) := by
  have e : i.rx.payload = i.frame.payload ∧ i.rx.payloadCrc = i.frame.payloadCrc ∧
      i.rx.hdr.length = BitVec.ofNat 16 i.frame.payload.length := by cases i <;> exact ⟨rfl, rfl, rfl⟩
  simp only [Instr.wellFormed, Frame.lengthFits, Frame.crcPresence, Bool.and_eq_true, decide_eq_true_eq, Bool.or_eq_true,
    Bool.not_eq_true'] at h
  refine ⟨?_, ?_, ?_⟩
  · unfold encode; rw [List.length_append, bodyBytes_length, e.2.2, e.1, packetTotalSize_ofNat h.1]; rfl
  · rw [e.1, e.2.2]; simp; omega
  · rw [e.1, e.2.1]; intro h0; rw [h0] at h; simpa using h.2

/-- A flags byte is its upper flags and its two low bits. -/
theorem flags_of_parts (b : Byte) (v : BitVec 2) (h0 : b.getLsbD 0 = v.getLsbD 0) (h1 : b.getLsbD 1 = v.getLsbD 1) :
    (b.extractLsb' 2 6 ++ v : Byte) = b := by
  apply BitVec.eq_of_getLsbD_eq
  intro i hi
  rw [BitVec.getLsbD_append, BitVec.getLsbD_extractLsb']
  by_cases h : i < 2
  · rw [if_pos h]
    have : i = 0 ∨ i = 1 := by omega
    rcases this with rfl | rfl
    · exact h0.symm
    · exact h1.symm
  · rw [if_neg h, decide_eq_true (show i - 2 < 6 by omega), Bool.true_and]; congr 1; omega

/-- An instruction stands for the packet it was classified from (30_encoding.md R151). -/
theorem rx_of_classify (p : Rx) (j : Instr) (h : classify p = some j) (hl : p.hdr.length = BitVec.ofNat 16 p.payload.length) : j.rx = p := by
  obtain ⟨⟨sq, ch, fl, op, ln, cr⟩, pl, c⟩ := p
  simp only at hl
  subst hl
  unfold classify at h
  simp only at h
  split at h
  · rename_i h1
    cases h
    simp only [Instr.rx, Frame.rx, nakFlags, Rx.frame]
    congr 2
    cases h0 : fl.getLsbD 0
    · exact flags_of_parts _ _ (by simpa using h0) (by simpa using h1)
    · exact flags_of_parts _ _ (by simpa using h0) (by simpa using h1)
  · split at h
    · rename_i h1 h0
      cases h
      simp only [Instr.rx, Frame.rx, ackFlags, Rx.frame]
      congr 2
      exact flags_of_parts _ _ (by simpa using h0) (by simpa using h1)
    · rename_i h1 h0
      have e : commandFlags (fl.extractLsb' 2 6) = fl := flags_of_parts _ _ (by simpa using h0) (by simpa using h1)
      unfold commandOf at h
      split at h <;> first
        | (cases h; rename_i ho; simp only [Instr.rx, Frame.rx, Rx.frame, e]; congr 2; exact (BitVec.eq_of_toNat_eq ho).symm)
        | cases h

/-- Ten bytes by name. -/
theorem ten_bytes (bs : List Byte) (h : 10 ≤ bs.length) : ∃ a b c d e f g i j k t, bs = [a, b, c, d, e, f, g, i, j, k] ++ t := by
  match bs, h with
  | a :: b :: c :: d :: e :: f :: g :: i :: j :: k :: t, _ => exact ⟨a, b, c, d, e, f, g, i, j, k, t, rfl⟩

/-- Ten bytes that begin with the sync word are the header they spell (30_encoding.md R140). -/
theorem header_of_bytes (bs : List Byte) (h : 10 ≤ bs.length) (hs : le16 bs 0 = Config.syncWord) : bs = headerBytes (hdrOf bs) ++ bs.drop 10 := by
  obtain ⟨a, b, c, d, e, f, g, i, j, k, t, rfl⟩ := ten_bytes bs h
  have : [a, b] = [0xAA#8, 0xD5#8] := by
    have h2 : enc16 (b ++ a) = enc16 Config.syncWord := congrArg enc16 hs
    rw [enc16_append] at h2; exact h2
  simp only [List.cons.injEq, and_true] at this
  obtain ⟨rfl, rfl⟩ := this
  simp [headerBytes, hdrOf, byteOf, le16, enc16_append]

/-- Four consecutive bytes by index. -/
theorem four_bytes (t : List Byte) (k : Nat) (h : k + 4 ≤ t.length) :
    [byteOf t k, byteOf t (k + 1), byteOf t (k + 2), byteOf t (k + 3)] = (t.drop k).take 4 := by
  have e : ∀ j, byteOf t (k + j) = (t.drop k).getD j 0#8 := by
    intro j; simp [byteOf, List.getD_eq_getElem?_getD]
  have e0 := e 0
  rw [Nat.add_zero] at e0
  rw [e0, e 1, e 2, e 3]
  have hl : 4 ≤ (t.drop k).length := by simp; omega
  match t.drop k, hl with
  | a :: b :: c :: d :: r, _ => rfl


end Sys2Proof
end

