-- ==== Sys2Proof/Laws/Delivery.lean ====
section
/-! SUPPORT. What the send path can do: one lemma for each way a transport write and a send can end, and what they leave
alone. -/

namespace Sys2Proof.Machine

/-- Nothing but the counters, the sequence number and the environment's answers and outputs differs. -/
structure Quiet (s t : State) : Prop where
  par : t.par = s.par
  sb : t.sb = s.sb
  reg : t.reg = s.reg
  ctx : ∃ st sq, t.ctx = { s.ctx with stats := st, seq := sq }
  inputs : t.env.inputs = s.env.inputs

theorem Quiet.refl (s : State) : Quiet s s := ⟨rfl, rfl, rfl, ⟨s.ctx.stats, s.ctx.seq, rfl⟩, rfl⟩

theorem Quiet.trans {s t u : State} (h : Quiet s t) (g : Quiet t u) : Quiet s u := by
  obtain ⟨a, b, hc⟩ := h.ctx
  obtain ⟨c, d, gc⟩ := g.ctx
  exact ⟨g.par.trans h.par, g.sb.trans h.sb, g.reg.trans h.reg, ⟨c, d, by rw [gc, hc]⟩, g.inputs.trans h.inputs⟩

theorem Quiet.cfg {s t : State} (h : Quiet s t) : t.ctx.cfg = s.ctx.cfg := by
  obtain ⟨_, _, hc⟩ := h.ctx; rw [hc]

theorem Quiet.waiting {s t : State} (h : Quiet s t) : t.ctx.waitForAck = s.ctx.waitForAck := by
  obtain ⟨_, _, hc⟩ := h.ctx; rw [hc]

theorem Quiet.advanceSeq (s : State) : Quiet s (advanceSeq s) :=
  ⟨rfl, rfl, rfl, ⟨s.ctx.stats, s.ctx.seq + 1#8, rfl⟩, rfl⟩

theorem Quiet.emit (o : Output) (s : State) : Quiet s (emit o s) :=
  ⟨rfl, rfl, rfl, ⟨s.ctx.stats, s.ctx.seq, rfl⟩, rfl⟩

theorem Quiet.withStats (st : Stats) (s : State) : Quiet s (s.withStats st) :=
  ⟨rfl, rfl, rfl, ⟨st, s.ctx.seq, rfl⟩, rfl⟩

theorem Quiet.draw (s : State) : Quiet s (draw s).2 := by
  obtain ⟨ans, n, h⟩ := draw_frame s
  rw [h]; exact ⟨rfl, rfl, rfl, ⟨s.ctx.stats, s.ctx.seq, rfl⟩, rfl⟩

/-! ### transmit_once (44_reliable_delivery.md R423) -/

/-- Every way a transport write can end. -/
theorem transmitOnce_cases (p : Pkt) (s : State) :
    (findTransport s = none ∧ transmitOnce p s = (false, countTransportError s)) ∨
    (∃ d s1, findTransport s = some d ∧ draw s = (false, s1) ∧ transmitOnce p s = (false, countTransportError s1)) ∨
    (∃ d s1 s2, findTransport s = some d ∧ draw s = (true, s1) ∧ draw s1 = (false, s2) ∧
      transmitOnce p s = (false, countTransportError (emit (.tWrite (pktBytes s.par p) false) s2))) ∨
    (∃ d s1 s2, findTransport s = some d ∧ draw s = (true, s1) ∧ draw s1 = (true, s2) ∧
      transmitOnce p s = (true, countWrite p (emit (.tWrite (pktBytes s.par p) true) s2))) := by
  unfold transmitOnce
  rcases hf : findTransport s with _ | d
  · exact Or.inl ⟨rfl, rfl⟩
  · rcases h1 : draw s with ⟨_ | _, s1⟩
    · exact Or.inr (Or.inl ⟨d, s1, rfl, rfl, rfl⟩)
    · rcases h2 : draw s1 with ⟨_ | _, s2⟩
      · exact Or.inr (Or.inr (Or.inl ⟨d, s1, s2, rfl, rfl, h2, by simp [h2]⟩))
      · exact Or.inr (Or.inr (Or.inr ⟨d, s1, s2, rfl, rfl, h2, by simp [h2]⟩))

theorem countWrite_quiet (p : Pkt) (s : State) : Quiet s (countWrite p s) := by
  unfold countWrite
  simp only
  split
  · exact (Quiet.withStats _ s).trans (Quiet.withStats _ _)
  · exact Quiet.withStats _ s

/-- A transport write changes counters and the environment's answers and outputs, and `ctx.seq` not at all. -/
theorem transmitOnce_quiet (p : Pkt) (s : State) :
    Quiet s (transmitOnce p s).2 ∧ (transmitOnce p s).2.ctx.seq = s.ctx.seq := by
  have key : ∀ {t u : State}, draw t = (true, u) ∨ draw t = (false, u) → Quiet t u ∧ u.ctx.seq = t.ctx.seq := by
    intro t u h
    have hq := Quiet.draw t
    obtain ⟨ans, n, hd⟩ := draw_frame t
    rcases h with h | h <;> (rw [h] at hq hd; exact ⟨hq, by rw [show u = _ from hd]; rfl⟩)
  rcases transmitOnce_cases p s with ⟨-, h⟩ | ⟨d, s1, -, h1, h⟩ | ⟨d, s1, s2, -, h1, h2, h⟩ | ⟨d, s1, s2, -, h1, h2, h⟩
  · rw [h]; exact ⟨Quiet.withStats _ s, rfl⟩
  · rw [h]; obtain ⟨q1, e1⟩ := key (Or.inr h1)
    exact ⟨q1.trans (Quiet.withStats _ _), e1⟩
  · rw [h]; obtain ⟨q1, e1⟩ := key (Or.inl h1); obtain ⟨q2, e2⟩ := key (Or.inr h2)
    exact ⟨(q1.trans q2).trans ((Quiet.emit _ _).trans (Quiet.withStats _ _)), e2.trans e1⟩
  · rw [h]; obtain ⟨q1, e1⟩ := key (Or.inl h1); obtain ⟨q2, e2⟩ := key (Or.inl h2)
    refine ⟨(q1.trans q2).trans ((Quiet.emit _ _).trans (countWrite_quiet _ _)), ?_⟩
    unfold countWrite; simp only; split <;> exact e2.trans e1

/-- The transport is there, active, and takes the packet. -/
theorem transmitOnce_takes {s : State} {rest : List Bool} (h : TransportTakes s rest) (p : Pkt) :
    transmitOnce p s = (true, countWrite p (emit (.tWrite (pktBytes s.par p) true)
      (s.withEnv { s.env with answers := rest }))) := by
  obtain ⟨hf, ha⟩ := h
  obtain ⟨d, hd⟩ := Option.isSome_iff_exists.mp hf
  unfold transmitOnce
  rw [hd]
  simp only [draw_cons ha]
  rw [draw_cons (s := s.withEnv { s.env with answers := true :: rest }) rfl]
  rfl

/-- The same for a packet without the EVENT flag. -/
theorem transmitOnce_takes_plain {s : State} {rest : List Bool} (h : TransportTakes s rest) (p : Pkt)
    (he : hasFlag p.hdr.flags flagEvent = false) :
    transmitOnce p s = (true, s.afterWrite (pktBytes s.par p) rest) := by
  rw [transmitOnce_takes h p]
  unfold countWrite; simp only [he]; rfl

/-! ### send_one (44_reliable_delivery.md R420) -/

/-- Every way `send_one` can end. -/
theorem sendOne_cases (c : Chunk) (s : State) :
    (effAckRequired s.ctx.cfg.ackEn c.flags c.ackRequired = true ∧ s.ctx.waitForAck = true ∧ sendOne c s = (.busy, s)) ∨
    (∃ u, Quiet s u ∧ u.ctx.seq = s.ctx.seq ∧ sendOne c s = (.failed, u)) ∨
    (∃ u, Quiet s u ∧ effAckRequired s.ctx.cfg.ackEn c.flags c.ackRequired = false ∧ sendOne c s = (.success, u)) ∨
    (∃ u, Quiet s u ∧ effAckRequired s.ctx.cfg.ackEn c.flags c.ackRequired = true ∧ s.ctx.waitForAck = false ∧
      sendOne c s = (.pending, waitStart (chunkPkt s c) u)) := by
  unfold sendOne
  simp only
  cases ha : effAckRequired s.ctx.cfg.ackEn c.flags c.ackRequired <;> cases hw : s.ctx.waitForAck <;>
    simp only [Bool.and_true, Bool.and_false, Bool.false_eq_true, if_false, if_true]
  case true.true => exact Or.inl ⟨trivial, trivial, trivial⟩
  all_goals
    obtain ⟨hq, hseq⟩ := transmitOnce_quiet (chunkPkt s c) s
    rcases ht : transmitOnce (chunkPkt s c) s with ⟨_ | _, s1⟩ <;> rw [ht] at hq hseq <;> simp only at hq hseq ⊢
    · exact Or.inr (Or.inl ⟨s1, hq, hseq, rfl⟩)
  all_goals
    have hq2 : Quiet s (if (stamp s c.opcode c.flags c.echoSeq).2 = true then advanceSeq s1 else s1) := by
      split
      · exact hq.trans (Quiet.advanceSeq s1)
      · exact hq
  · exact Or.inr (Or.inr (Or.inl ⟨_, hq2, trivial, rfl⟩))
  · exact Or.inr (Or.inr (Or.inl ⟨_, hq2, trivial, rfl⟩))
  · exact Or.inr (Or.inr (Or.inr ⟨_, hq2, trivial, trivial, rfl⟩))

/-- A send that needs no ACK never waits and disturbs no wait (44_reliable_delivery.md R422, R425). -/
theorem sendOne_quiet {c : Chunk} {s : State} (h : effAckRequired s.ctx.cfg.ackEn c.flags c.ackRequired = false) :
    Quiet s (sendOne c s).2 := by
  rcases sendOne_cases c s with ⟨h1, -, -⟩ | ⟨u, hq, -, e⟩ | ⟨u, hq, -, e⟩ | ⟨u, -, h1, -, -⟩
  · rw [h] at h1; cases h1
  · rw [e]; exact hq
  · rw [e]; exact hq
  · rw [h] at h1; cases h1

/-- A send that needs no ACK and is written: the packet on the wire, one packet counted, the sequence number advanced
when it was stamped from `ctx.seq` (44_reliable_delivery.md R420, R421). -/
theorem sendOne_takes {s : State} {rest : List Bool} (h : TransportTakes s rest) {c : Chunk}
    (ha : effAckRequired s.ctx.cfg.ackEn c.flags c.ackRequired = false) :
    sendOne c s = (.success,
      let t := countWrite (chunkPkt s c) (emit (.tWrite (pktBytes s.par (chunkPkt s c)) true)
        (s.withEnv { s.env with answers := rest }))
      if (stamp s c.opcode c.flags c.echoSeq).2 then advanceSeq t else t) := by
  unfold sendOne
  simp only [ha, Bool.false_and, Bool.false_eq_true, if_false, transmitOnce_takes h]

/-- A transport that does not take a packet costs one count (44_reliable_delivery.md R423). -/
theorem transmitOnce_fails {s : State} {p : Pkt} {e : Env} (h : TransportFails s (pktBytes s.par p) e) :
    transmitOnce p s = (false, countTransportError (s.withEnv e)) := by
  unfold transmitOnce
  rcases h with ⟨ht, rfl⟩ | ⟨ht, h⟩
  · rw [ht]; rfl
  · obtain ⟨d, hd⟩ := Option.isSome_iff_exists.mp ht
    rw [hd]
    rcases h with ⟨rest, ha, rfl⟩ | ⟨rest, ha, rfl⟩
    · simp only [draw_cons ha]
    · simp only [draw_cons ha, draw_cons (s := s.withEnv { s.env with answers := false :: rest }) rfl]; rfl

/-- A send that is not turned away and whose packet is not taken is FAILED (44_reliable_delivery.md R420). -/
theorem sendOne_fails {s : State} {c : Chunk} {e : Env} (hw : s.ctx.waitForAck = false)
    (h : TransportFails s (pktBytes s.par (chunkPkt s c)) e) :
    sendOne c s = (.failed, countTransportError (s.withEnv e)) := by
  unfold sendOne
  simp only [hw, Bool.and_false, Bool.false_eq_true, if_false, transmitOnce_fails h]

/-! ### send (44_reliable_delivery.md R420, R440) -/

theorem sendChunk_short {c : Chunk} {s : State} (h : c.payload.length ≤ s.ctx.cfg.maxPayload.toNat) :
    sendChunk c s = sendOne c s := by
  unfold sendChunk; rw [if_neg (by omega)]

theorem sendAll_quiet (cs : List Chunk) : ∀ s : State,
    (∀ c ∈ cs, effAckRequired s.ctx.cfg.ackEn c.flags c.ackRequired = false) → Quiet s (sendAll cs s).2 := by
  induction cs with
  | nil => intro s _; exact Quiet.refl s
  | cons c cs ih =>
    intro s h
    have hq := sendOne_quiet (h c (List.mem_cons_self ..))
    unfold sendAll
    rcases hs : sendOne c s with ⟨r, s1⟩
    rw [hs] at hq
    cases r <;> try exact hq
    exact hq.trans (ih s1 (fun d hd => by rw [hq.cfg]; exact h d (List.mem_cons_of_mem _ hd)))

/-- FRAGMENT plays no part in the effective ACK requirement (44_reliable_delivery.md R422). -/
theorem effAckRequired_fragment (e : Bool) (fl : Byte) (last ar : Bool) :
    effAckRequired e (fragmentFlags fl last) ar = effAckRequired e fl ar := by
  have : isUnsequenced (fragmentFlags fl last) = isUnsequenced fl := by
    cases last <;> simp only [fragmentFlags, isUnsequenced, hasFlag, Bool.false_eq_true, if_false, if_true] <;>
      revert fl <;> decide
  unfold effAckRequired; rw [this]

/-- Every chunk of a fragmented send is the send with other flags, of the same requirement, and a part of the payload. -/
theorem fragments_mem {m : Nat} {c d : Chunk} (h : d ∈ fragments m c) :
    ∃ last, d.flags = fragmentFlags c.flags last ∧ d.ackRequired = c.ackRequired ∧ d.channel = c.channel ∧
      d.opcode = c.opcode ∧ d.echoSeq = c.echoSeq ∧ d.payload ∈ cutPayload m (c.payload.length + 1) c.payload := by
  unfold fragments at h
  simp only [List.mem_mapIdx] at h
  obtain ⟨i, hi, rfl⟩ := h
  exact ⟨_, rfl, rfl, rfl, rfl, rfl, List.getElem_mem hi⟩

/-- Full chunks and a last one that is neither empty nor too long are what their join is cut into
(44_reliable_delivery.md R440). -/
theorem cutPayload_flatten {m : Nat} : ∀ (parts : List (List Byte)) (fuel : Nat), parts ≠ [] → parts.flatten.length < fuel →
    (∀ i pl, parts[i]? = some pl → if i + 1 < parts.length then pl.length = m else 0 < pl.length ∧ pl.length ≤ m) →
    cutPayload m fuel parts.flatten = parts := by
  intro parts
  induction parts with
  | nil => intro _ h; exact absurd rfl h
  | cons a parts ih =>
    intro fuel _ hf hp
    obtain ⟨n, rfl⟩ : ∃ n, fuel = n + 1 := ⟨fuel - 1, by omega⟩
    have ha := hp 0 a rfl
    cases parts with
    | nil =>
      rw [if_neg (by simp)] at ha
      simp only [List.flatten_cons, List.flatten_nil, List.append_nil, cutPayload, if_pos ha.2]
    | cons b rest =>
      rw [if_pos (by simp)] at ha
      have hp' : ∀ i pl, (b :: rest)[i]? = some pl →
          if i + 1 < (b :: rest).length then pl.length = m else 0 < pl.length ∧ pl.length ≤ m := by
        intro i pl h
        have := hp (i + 1) pl (by simpa using h)
        simpa using this
      have hpos : 0 < m ∧ 0 < (b :: rest).flatten.length := by
        obtain ⟨l, hl⟩ : ∃ l, (b :: rest)[(b :: rest).length - 1]? = some l := by
          rw [← List.getLast?_eq_getElem?]; exact ⟨_, List.getLast?_eq_some_getLast (by simp)⟩
        have h := hp' _ _ hl
        rw [if_neg (by simp)] at h
        have := (List.sublist_flatten_of_mem (List.mem_of_getElem? hl)).length_le
        omega
      rw [List.flatten_cons, cutPayload, if_neg (by rw [List.length_append]; omega), ← ha, List.take_left, List.drop_left]
      rw [ha, ih n (by simp) (by rw [List.flatten_cons, List.length_append] at hf; omega) hp']

theorem cutPayload_length {m : Nat} : ∀ (fuel : Nat) (pl part : List Byte), part ∈ cutPayload m fuel pl →
    part.length ≤ m := by
  intro fuel
  induction fuel with
  | zero => intro pl part h; simp [cutPayload] at h
  | succ n ih =>
    intro pl part h
    unfold cutPayload at h
    split at h
    · simp only [List.mem_singleton] at h; subst h; assumption
    · rcases List.mem_cons.mp h with rfl | h
      · simp
      · exact ih _ _ h

/-- A send with an unset effective requirement changes only counters, `ctx.seq` and the environment. -/
theorem sendChunk_quiet {c : Chunk} {s : State} (h : effAckRequired s.ctx.cfg.ackEn c.flags c.ackRequired = false) :
    Quiet s (sendChunk c s).2 := by
  unfold sendChunk
  split
  · unfold sendFragmented
    simp only [h, Bool.false_and, Bool.false_eq_true, if_false, Bool.not_false, if_true]
    apply sendAll_quiet
    intro d hd
    obtain ⟨last, hf, hr, -⟩ := fragments_mem hd
    rw [hf, hr, effAckRequired_fragment]; exact h
  · exact sendOne_quiet h

theorem ackChunk_unacked (e : Bool) (h : Hdr) (pl : List Byte) :
    effAckRequired e (ackChunk h pl).flags (ackChunk h pl).ackRequired = false := rfl

theorem statusChunk_unacked (e : Bool) (code : Half) (h : Hdr) :
    effAckRequired e (statusChunk code h).flags (statusChunk code h).ackRequired = false := rfl

theorem sendAck_quiet (h : Hdr) (pl : List Byte) (s : State) : Quiet s (sendAck h pl s) :=
  sendChunk_quiet (ackChunk_unacked _ h pl)

theorem sendStatus_quiet (h : Hdr) (st : Status) (s : State) : Quiet s (sendStatus h st s) :=
  sendChunk_quiet (statusChunk_unacked _ _ h)

/-- The packet of an ACK that fits one packet. -/
theorem ackChunk_pkt (s : State) (h : Hdr) (pl : List Byte) :
    chunkPkt s (ackChunk h pl) = makePkt s.par h.sequence h.channel flagAck h.opcode pl := by
  unfold chunkPkt
  rw [ackChunk_unacked, show outgoingFlags (ackChunk h pl).flags false = flagAck from (by decide : outgoingFlags flagAck false = flagAck)]; rfl

/-- The packet of a NAK. -/
theorem statusChunk_pkt (s : State) (code : Half) (h : Hdr) :
    chunkPkt s (statusChunk code h) = makePkt s.par h.sequence h.channel flagNak h.opcode (enc16 code) := by
  unfold chunkPkt
  rw [statusChunk_unacked, show outgoingFlags (statusChunk code h).flags false = flagNak from (by decide : outgoingFlags flagNak false = flagNak)]; rfl

/-- An ACK that fits one packet and is written (44_reliable_delivery.md R426, 30_encoding.md R162). -/
theorem sendAck_takes {s : State} {rest : List Bool} (ht : TransportTakes s rest) (h : Hdr) {pl : List Byte}
    (hl : pl.length ≤ s.ctx.cfg.maxPayload.toNat) :
    sendAck h pl s = s.afterWrite (responseBytes s.par h flagAck pl) rest := by
  unfold sendAck
  rw [sendChunk_short hl]
  unfold sendOne
  simp only [ackChunk_unacked, Bool.false_and, Bool.false_eq_true, if_false, ackChunk_pkt]
  rw [transmitOnce_takes_plain ht _ (show hasFlag flagAck flagEvent = false from by decide)]
  rfl

/-- A NAK that is written (44_reliable_delivery.md R426, 30_encoding.md R161). -/
theorem sendStatus_takes {s : State} {rest : List Bool} (ht : TransportTakes s rest) (h : Hdr) (st : Status)
    (hl : 2 ≤ s.ctx.cfg.maxPayload.toNat) :
    sendStatus h st s = s.afterWrite (responseBytes s.par h flagNak (enc16 (codeOf s st))) rest := by
  unfold sendStatus
  rw [sendChunk_short (by simpa [statusChunk] using hl)]
  unfold sendOne
  simp only [statusChunk_unacked, Bool.false_and, Bool.false_eq_true, if_false, statusChunk_pkt]
  rw [transmitOnce_takes_plain ht _ (show hasFlag flagNak flagEvent = false from by decide)]
  rfl

/-- An ACK that fits one packet, written or not (44_reliable_delivery.md R426, 30_encoding.md R162). -/
theorem sendAck_ends {s t : State} (h : Hdr) {pl : List Byte} (hl : pl.length ≤ s.ctx.cfg.maxPayload.toNat)
    (he : WriteEnds s (responseBytes s.par h flagAck pl) t) : sendAck h pl s = t := by
  rcases he with ⟨rest, ht, rfl⟩ | ⟨e, hf, rfl⟩
  · exact sendAck_takes ht h hl
  · unfold sendAck
    rw [sendChunk_short hl]
    unfold sendOne
    simp only [ackChunk_unacked, Bool.false_and, Bool.false_eq_true, if_false, ackChunk_pkt,
      transmitOnce_fails (p := makePkt s.par h.sequence h.channel flagAck h.opcode pl) hf]
    rfl

/-- A NAK, written or not (44_reliable_delivery.md R426, 30_encoding.md R161). -/
theorem sendStatus_ends {s t : State} (h : Hdr) (st : Status) (hl : 2 ≤ s.ctx.cfg.maxPayload.toNat)
    (he : WriteEnds s (responseBytes s.par h flagNak (enc16 (codeOf s st))) t) : sendStatus h st s = t := by
  rcases he with ⟨rest, ht, rfl⟩ | ⟨e, hf, rfl⟩
  · exact sendStatus_takes ht h st hl
  · unfold sendStatus
    rw [sendChunk_short (by simpa [statusChunk] using hl)]
    unfold sendOne
    simp only [statusChunk_unacked, Bool.false_and, Bool.false_eq_true, if_false, statusChunk_pkt,
      transmitOnce_fails (p := makePkt s.par h.sequence h.channel flagNak h.opcode (enc16 (codeOf s st))) hf]
    rfl

/-! ### Status codes (30_encoding.md R160) -/

theorem statusCode_mem (t : Config.StatusTable) (st : Status) : statusCode t st ∈ statusCodes t := by
  cases st <;> simp [statusCode, statusCodes, failureCodes]

/-- With a legal STATUS_CODE table no status a block sends is PENDING. -/
theorem codeOf_ne_pending {s : State} (h : ParamsValid s.par) (st : Status) : codeOf s st ≠ pendingCode :=
  fun e => h.pendingUnused (e ▸ statusCode_mem s.par.statusCode st)

/-- A NAK ends the wait with the code of a status (44_reliable_delivery.md R432). -/
theorem nakStatus_mem (s : State) (payload : List Byte) : nakStatus s payload ∈ statusCodes s.par.statusCode := by
  unfold nakStatus
  split
  · rename_i h; exact List.mem_cons_of_mem _ h.2
  · exact statusCode_mem _ .failed

/-- PENDING in a NAK's payload is no status: the wait ends with FAILED (44_reliable_delivery.md R432). -/
theorem nakStatus_pending {s : State} (h : ParamsValid s.par) {payload : List Byte} (hp : le16 payload 0 = pendingCode) :
    nakStatus s payload = codeOf s .failed :=
  if_neg (fun g => h.pendingUnused (List.mem_cons_of_mem _ (hp ▸ g.2)))

end Sys2Proof.Machine
end

