-- ==== Sys2Proof/Laws/Invariant.lean ====
section
/-! SUPPORT. What an initialised block keeps (`Live`) under each shared operation of the send path, the waits and the
registry. -/

namespace Sys2Proof.Machine

/-- `Live` when only the context differs. -/
theorem Live.withCtx {s : State} {c : Ctx} (h : Live s) (hcfg : CfgValid s.par.cap c.cfg)
    (hd : CfgValid s.par.cap c.defaultCfg) (hw : WaitValid c) (hs : ScanValid s.par.cap c) : Live (s.withCtx c) :=
  ⟨h.buffer, hcfg, hd, hw, hs, h.registry⟩

/-- `Live` speaks of these parts only. -/
theorem Live.of_parts {s t : State} (h : Live s) (hp : t.par = s.par) (hb : t.sb = s.sb) (hr : t.reg = s.reg)
    (hcfg : CfgValid s.par.cap t.ctx.cfg) (hd : CfgValid s.par.cap t.ctx.defaultCfg) (hw : WaitValid t.ctx)
    (hs : ScanValid s.par.cap t.ctx) : Live t :=
  ⟨by rw [hp, hb]; exact h.buffer, by rw [hp]; exact hcfg, by rw [hp]; exact hd, hw, by rw [hp]; exact hs,
    by rw [hp, hr]; exact h.registry⟩

theorem Live.quiet {s t : State} (h : Live s) (q : Quiet s t) : Live t := by
  obtain ⟨st, sq, hc⟩ := q.ctx
  refine h.of_parts q.par q.sb q.reg ?_ ?_ ?_ ?_ <;> rw [hc]
  · exact h.cfg
  · exact h.defaultCfg
  · exact ⟨h.wait.flag, h.wait.timeout, h.wait.held, h.wait.idle, h.wait.chunks⟩
  · exact ⟨h.scan.bound, h.scan.unused⟩

theorem Live.env {s : State} (h : Live s) (e : Env) : Live (s.withEnv e) :=
  ⟨h.buffer, h.cfg, h.defaultCfg, h.wait, h.scan, h.registry⟩

theorem Live.sb {s : State} (h : Live s) {b : StagingBuffer} (hb : BufferValid s.par.cap b) : Live (s.withSb b) :=
  ⟨hb, h.cfg, h.defaultCfg, h.wait, h.scan, h.registry⟩

theorem Live.consume {s : State} (h : Live s) (n : Nat) : Live (consumeBytes n s) := by
  have e : consumeBytes n s = s.withSb (consumeBytes n s).sb := State.ext_parts (by simp) (by simp) rfl (by simp) (by simp)
  rw [e]; exact h.sb h.buffer.consume

/-- A wait starts: its packet fits, and so do the chunks behind it (44_reliable_delivery.md R424). -/
theorem Live.waitStart {s u : State} (h : Live s) (hp : u.par = s.par) (hb : u.sb = s.sb) (hr : u.reg = s.reg)
    (hcfg : u.ctx.cfg = s.ctx.cfg) (hd : u.ctx.defaultCfg = s.ctx.defaultCfg)
    (hk : ∀ k ∈ u.ctx.fragRest, k.payload.length ≤ s.ctx.cfg.maxPayload.toNat) {p : Pkt}
    (hl : p.payload.length ≤ s.ctx.cfg.maxPayload.toNat) : Live (waitStart p u) := by
  refine h.of_parts hp hb hr ?_ ?_ ?_ ?_
  · rw [waitStart_ctx]; simp only; rw [hcfg]; exact h.cfg
  · rw [waitStart_ctx]; simp only; rw [hd]; exact h.defaultCfg
  · rw [waitStart_ctx]
    refine ⟨by simp, fun _ => ?_, fun _ => ⟨p, rfl, ?_⟩, fun hf => by simp at hf, ?_⟩
    · simp only; rw [hcfg]; exact h.cfg.timeout
    · simp only; rw [hcfg]; exact hl
    · simp only; rw [hcfg]; exact hk
  · rw [waitStart_ctx]; exact ⟨Nat.zero_le _, fun _ _ => rfl⟩

theorem chunkPkt_payload (s : State) (c : Chunk) : (chunkPkt s c).payload = c.payload := rfl

theorem Live.sendOne {s : State} (h : Live s) {c : Chunk} (hl : c.payload.length ≤ s.ctx.cfg.maxPayload.toNat) :
    Live (sendOne c s).2 := by
  rcases sendOne_cases c s with ⟨-, -, e⟩ | ⟨u, hq, -, e⟩ | ⟨u, hq, -, e⟩ | ⟨u, hq, -, -, e⟩ <;> rw [e]
  · exact h
  · exact h.quiet hq
  · exact h.quiet hq
  · obtain ⟨st, sq, hc⟩ := hq.ctx
    exact h.waitStart hq.par hq.sb hq.reg (by rw [hc]) (by rw [hc]) (by rw [hc]; exact h.wait.chunks) hl

theorem Live.send {s : State} (h : Live s) (c : Chunk) : Live (sendChunk c s).2 := by
  have hm : ∀ d ∈ fragments s.ctx.cfg.maxPayload.toNat c, d.payload.length ≤ s.ctx.cfg.maxPayload.toNat := by
    intro d hd
    obtain ⟨_, -, -, -, -, -, hd⟩ := fragments_mem hd
    exact cutPayload_length _ _ _ hd
  cases ha : effAckRequired s.ctx.cfg.ackEn c.flags c.ackRequired
  · exact h.quiet (sendChunk_quiet ha)
  · unfold sendChunk
    split
    · unfold sendFragmented
      simp only [ha, Bool.true_and, Bool.not_true, Bool.false_eq_true, if_false]
      split
      · exact h
      · rename_i hw
        have hw : s.ctx.waitForAck = false := by simpa using hw
        split
        · exact h
        · rename_i c1 rest hf
          rw [hf] at hm
          rcases sendOne_cases c1 (setFragRest rest s) with ⟨-, h2, -⟩ | ⟨u, hq, -, e⟩ | ⟨u, hq, -, e⟩ | ⟨u, hq, -, -, e⟩
          · rw [setFragRest_ctx] at h2; simp only [hw] at h2; cases h2
          all_goals obtain ⟨st, sq, hc⟩ := hq.ctx
          · rw [e]
            refine h.of_parts hq.par hq.sb hq.reg ?_ ?_ ?_ ?_ <;> rw [setFragRest_ctx, hc]
            · exact h.cfg
            · exact h.defaultCfg
            · refine ⟨h.wait.flag, h.wait.timeout, h.wait.held, fun hi => ?_, fun k hk => by simp at hk⟩
              obtain ⟨a, b, c, d, -⟩ := h.wait.idle hi
              exact ⟨a, b, c, d, rfl⟩
            · exact ⟨h.scan.bound, h.scan.unused⟩
          · rw [e]
            refine h.of_parts hq.par hq.sb hq.reg ?_ ?_ ?_ ?_ <;> rw [setFragRest_ctx, hc]
            · exact h.cfg
            · exact h.defaultCfg
            · refine ⟨h.wait.flag, h.wait.timeout, h.wait.held, fun hi => ?_, fun k hk => by simp at hk⟩
              obtain ⟨a, b, c, d, -⟩ := h.wait.idle hi
              exact ⟨a, b, c, d, rfl⟩
            · exact ⟨h.scan.bound, h.scan.unused⟩
          · rw [e]
            exact h.waitStart hq.par hq.sb hq.reg (by rw [hc]; rfl) (by rw [hc]; rfl)
              (by rw [hc]; exact fun k hk => hm k (List.mem_cons_of_mem _ hk)) (hm c1 (List.mem_cons_self ..))
    · exact h.sendOne (by omega)

/-! ### The ends of a wait -/

/-- A context in which no send waits. -/
theorem WaitValid.ended {c : Ctx} (h1 : c.waitForAck = false) (h2 : c.state = .sync) (h3 : c.retriesLeft = 0#8)
    (h4 : c.timeoutCur = 0#32) (h5 : c.elapsed = 0#32) (h6 : c.txHold = none) (h7 : c.fragRest = []) : WaitValid c :=
  ⟨by rw [h1, h2]; simp, by rw [h1]; simp, by rw [h1]; simp, fun _ => ⟨h3, h4, h5, h6, h7⟩, by rw [h7]; simp⟩

theorem ScanValid.zero {cap : Nat} {c : Ctx} (h : c.scanOffset = 0) : ScanValid cap c :=
  ⟨by rw [h]; exact Nat.zero_le _, fun _ _ => h⟩

theorem Live.failWait {s : State} (h : Live s) (code : Half) : Live (failWait code s) :=
  h.of_parts rfl rfl rfl h.cfg h.defaultCfg (WaitValid.ended rfl rfl rfl rfl rfl rfl rfl) (ScanValid.zero rfl)

theorem Live.reset {s : State} (h : Live s) : Live (protocolReset s) := by
  obtain ⟨hp, hb, hr, st, hc⟩ := protocolReset_parts s
  refine h.of_parts hp hb hr ?_ ?_ ?_ ?_ <;> rw [hc, resetFields_ctx]
  · exact h.defaultCfg
  · exact h.defaultCfg
  · exact WaitValid.ended rfl rfl rfl rfl rfl rfl rfl
  · exact ScanValid.zero rfl

theorem Live.endAck {s : State} (h : Live s) : Live (endAck s) := by
  unfold Machine.endAck
  simp only
  split
  · rename_i he
    have he : s.ctx.fragRest = [] := by simpa using he
    exact h.of_parts rfl rfl rfl h.cfg h.defaultCfg (WaitValid.ended rfl rfl rfl rfl rfl rfl he) (ScanValid.zero rfl)
  · unfold continueFragments
    rcases hf : (exitWait (setAckStatus (codeOf s .success) s)).ctx.fragRest with _ | ⟨c, rest⟩
    · rename_i he; rw [hf] at he; simp at he
    · have hf' : s.ctx.fragRest = c :: rest := hf
      have hch := h.wait.chunks
      rw [hf'] at hch
      simp only
      rcases sendOne_cases c (setFragRest rest (exitWait (setAckStatus (codeOf s .success) s))) with
        ⟨-, h2, -⟩ | ⟨u, hq, -, e⟩ | ⟨u, hq, -, e⟩ | ⟨u, hq, -, -, e⟩
      · cases h2
      all_goals obtain ⟨st, sq, hc⟩ := hq.ctx
      · rw [e]
        refine h.of_parts hq.par hq.sb hq.reg ?_ ?_ ?_ ?_ <;> simp only [sendResult_ctx, setAckStatus_ctx, setFragRest_ctx, hc]
        · exact h.cfg
        · exact h.defaultCfg
        · exact WaitValid.ended rfl rfl rfl rfl rfl rfl rfl
        · exact ScanValid.zero rfl
      · rw [e]
        refine h.of_parts hq.par hq.sb hq.reg ?_ ?_ ?_ ?_ <;> simp only [sendResult_ctx, setAckStatus_ctx, setFragRest_ctx, hc]
        · exact h.cfg
        · exact h.defaultCfg
        · exact WaitValid.ended rfl rfl rfl rfl rfl rfl rfl
        · exact ScanValid.zero rfl
      · rw [e]
        exact h.waitStart hq.par hq.sb hq.reg (by rw [hc]; rfl) (by rw [hc]; rfl)
          (by rw [hc]; exact fun k hk => hch k (List.mem_cons_of_mem _ hk)) (hch c (List.mem_cons_self ..))

/-- A doubled timeout is still positive (44_reliable_delivery.md R430, R433). -/
theorem sat32_double_pos {v : Word} (h : 1#32 ≤ v) : 1#32 ≤ sat32 (2 * v.toNat) := by
  have hv : 1 ≤ v.toNat := by simpa [BitVec.le_def] using h
  unfold sat32
  have : min (2 * v.toNat) (2 ^ 32 - 1) < 2 ^ 32 := by omega
  rw [BitVec.le_def, BitVec.toNat_ofNat, BitVec.toNat_ofNat, Nat.mod_eq_of_lt this]
  omega

theorem resendHold_quiet (s : State) : Quiet s (resendHold s) := by
  unfold resendHold
  split
  · exact (transmitOnce_quiet _ s).1
  · exact Quiet.refl s

theorem Live.retransmit {s : State} (h : Live s) (hw : s.ctx.waitForAck = true) : Live (retransmit s) := by
  unfold Machine.retransmit
  simp only
  have hq := resendHold_quiet (countRetransmit (markHold (s.withCtx
    { s.ctx with
      retriesLeft := s.ctx.retriesLeft - 1#8
      timeoutCur := sat32 (2 * s.ctx.timeoutCur.toNat) })))
  obtain ⟨st, sq, hc⟩ := hq.ctx
  refine h.of_parts hq.par hq.sb hq.reg ?_ ?_ ?_ ?_ <;> rw [State.withCtx_ctx, hc]
  · exact h.cfg
  · exact h.defaultCfg
  · refine ⟨h.wait.flag, fun _ => sat32_double_pos (h.wait.timeout hw), fun _ => ?_, fun hi => ?_, h.wait.chunks⟩
    · obtain ⟨p, hp, hl⟩ := h.wait.held hw
      refine ⟨rtxPkt s.par p, ?_, hl⟩
      show s.ctx.txHold.map (rtxPkt s.par) = _
      rw [hp]; rfl
    · exact absurd hi (by show ¬ s.ctx.waitForAck = false; rw [hw]; simp)
  · exact ⟨h.scan.bound, h.scan.unused⟩

theorem Live.exhaust {s : State} (h : Live s) : Live (exhaust s) := by
  unfold Machine.exhaust
  simp only
  have h1 : Live (setFragRest [] (exitWait s)) :=
    h.of_parts rfl rfl rfl h.cfg h.defaultCfg (WaitValid.ended rfl rfl rfl rfl rfl rfl rfl) (ScanValid.zero rfl)
  have h2 := h1.reset
  exact h2.of_parts rfl rfl rfl h2.cfg h2.defaultCfg
    ⟨h2.wait.flag, h2.wait.timeout, h2.wait.held, h2.wait.idle, h2.wait.chunks⟩ ⟨h2.scan.bound, h2.scan.unused⟩

theorem Live.timeoutStep {s : State} (h : Live s) (hw : s.ctx.waitForAck = true) : Live (timeoutStep s) := by
  unfold Machine.timeoutStep
  split
  · exact h.exhaust
  · exact h.retransmit hw

theorem Live.tick {s : State} (h : Live s) : Live (tick s) := by
  refine h.of_parts rfl rfl rfl h.cfg h.defaultCfg ⟨h.wait.flag, h.wait.timeout, h.wait.held, fun hi => ?_, h.wait.chunks⟩
    ⟨h.scan.bound, h.scan.unused⟩
  obtain ⟨a, b, c, d, e⟩ := h.wait.idle hi
  refine ⟨a, b, ?_, d, e⟩
  have hi' : s.ctx.waitForAck = false := hi
  rw [tick_ctx]; simp only [hi', Bool.false_eq_true, if_false]; exact c

/-! ### The registry -/

theorem RegistryValid.setSlot_none {p : Config.Params} {r : Registry} (h : RegistryValid p r) (id : Nat) :
    RegistryValid p { r with slots := r.slots.set id none } := by
  refine ⟨by simpa using h.slots, h.locks, ?_⟩
  intro i d hd
  simp only [List.getElem?_set] at hd
  split at hd
  · split at hd <;> simp at hd
  · exact h.ids i d hd

theorem RegistryValid.setSlot_some {p : Config.Params} {r : Registry} (h : RegistryValid p r) {id : Nat} {d : Descriptor}
    (hi : d.id.toNat = id) (hn : d.name.length ≤ p.nameMax) :
    RegistryValid p { r with slots := r.slots.set id (some d) } := by
  refine ⟨by simpa using h.slots, h.locks, ?_⟩
  intro i e he
  simp only [List.getElem?_set] at he
  split at he
  · split at he
    · simp only [Option.some.injEq] at he; subst he; rename_i h1 _; exact ⟨by omega, hn⟩
    · simp at he
  · exact h.ids i e he

theorem RegistryValid.setLastLock {p : Config.Params} {r : Registry} (h : RegistryValid p r) (id : Nat) (v : Option Word) :
    RegistryValid p { r with lastLock := r.lastLock.set id v } :=
  ⟨h.slots, by simpa using h.locks, h.ids⟩

theorem Live.reg {s : State} (h : Live s) {r : Registry} (hr : RegistryValid s.par r) : Live (s.withReg r) :=
  ⟨h.buffer, h.cfg, h.defaultCfg, h.wait, h.scan, hr⟩

theorem Live.unregister {s : State} (h : Live s) (id : Nat) : Live (unregisterSlot id s) := by
  unfold unregisterSlot
  split
  · exact h
  · have h1 : ∀ t : State, Live t → Live (setLastLock id none (setSlot id none t)) := fun t ht =>
      (ht.reg (ht.registry.setSlot_none id)).reg ((ht.registry.setSlot_none id).setLastLock id none)
    apply h1
    split
    · exact h.env _
    · exact h

theorem unregisterSlot_parts (id : Nat) (s : State) :
    (unregisterSlot id s).par = s.par ∧ (unregisterSlot id s).ctx = s.ctx ∧ (unregisterSlot id s).sb = s.sb := by
  unfold unregisterSlot
  split
  · exact ⟨rfl, rfl, rfl⟩
  · split <;> exact ⟨rfl, rfl, rfl⟩

theorem foldl_unregister {P : State → Prop} (hP : ∀ id t, P t → P (unregisterSlot id t)) :
    ∀ (ids : List Nat) (s : State), P s → P (ids.foldl (fun t id => unregisterSlot id t) s) := by
  intro ids
  induction ids with
  | nil => intro s h; exact h
  | cons id ids ih => intro s h; exact ih _ (hP id s h)

theorem Live.deinitAll {s : State} (h : Live s) : Live (deinitAll s) :=
  foldl_unregister (P := Live) (fun id _ ht => ht.unregister id) _ _ h

theorem deinitAll_parts (s : State) : (deinitAll s).par = s.par ∧ (deinitAll s).ctx = s.ctx ∧ (deinitAll s).sb = s.sb := by
  unfold Machine.deinitAll
  apply foldl_unregister (P := fun t => t.par = s.par ∧ t.ctx = s.ctx ∧ t.sb = s.sb)
  · intro id t ht
    obtain ⟨a, b, c⟩ := unregisterSlot_parts id t
    exact ⟨a.trans ht.1, b.trans ht.2.1, c.trans ht.2.2⟩
  · exact ⟨rfl, rfl, rfl⟩

/-- A chosen id below 256 is the id the stored descriptor carries (10_state.md R51). -/
theorem storedDescriptor_id (d : DescriptorSpec) {id : Nat} (h : id < 256) (dyn : Bool) :
    (storedDescriptor d id dyn).id.toNat = id := by
  show (BitVec.ofNat 8 id).toNat = id
  simp; omega

/-- Every way a registration can end (42_channel_registry.md R301). -/
theorem registerChannel_cases (d : DescriptorSpec) (s : State) :
    (∃ st t, Quiet s t ∧ registerChannel d s = (.status st, t)) ∨
    (∃ id dyn t, Quiet s t ∧ chooseId s d = .ok (id, dyn) ∧ id < s.par.nch ∧ registryFind s id = none ∧
      d.name.length ≤ s.par.nameMax ∧ registerChannel d s = (.channelId id, storeChannel d id dyn t)) := by
  unfold registerChannel
  rcases hc : chooseId s d with st | ⟨id, dyn⟩
  · exact Or.inl ⟨st, s, Quiet.refl s, rfl⟩
  simp only
  split
  · exact Or.inl ⟨_, s, Quiet.refl s, rfl⟩
  split
  · exact Or.inl ⟨_, s, Quiet.refl s, rfl⟩
  split
  · exact Or.inl ⟨_, s, Quiet.refl s, rfl⟩
  rename_i h1 h2 h3
  have hq : Quiet s (callInitHook d id s).2 := by
    unfold callInitHook
    split
    · exact (Quiet.draw s).trans (Quiet.emit _ _)
    · exact Quiet.refl s
  rcases hi : callInitHook d id s with ⟨_ | _, t⟩ <;> rw [hi] at hq
  · exact Or.inl ⟨_, t, hq, rfl⟩
  · exact Or.inr ⟨id, dyn, t, hq, rfl, by omega, by simpa using h2, by omega, rfl⟩

theorem Live.store {s : State} (h : Live s) {d : DescriptorSpec} {id : Nat} (hid : id < 256)
    (hn : d.name.length ≤ s.par.nameMax) (dyn : Bool) : Live (storeChannel d id dyn s) := by
  have h1 : Live (setSlot id (some (storedDescriptor d id dyn)) s) :=
    h.reg (h.registry.setSlot_some (storedDescriptor_id d hid dyn) hn)
  unfold storeChannel
  simp only
  split
  · exact h1.send _
  · exact h1

end Sys2Proof.Machine
end

