-- ==== Sys2Proof/Laws/Exec.lean ====
section
/-! SUPPORT. The two shapes every meaning has, a command (`accept`) and a response (`respond`), and what each can do. -/

namespace Sys2Proof.Machine

/-- A command that runs was rejected with one NAK, or handled after the sequence advance (43_framing_fsm.md R364). -/
theorem accept_next {p : Rx} {s t : State} {handle : State → State} (h : accept p s handle = .next t) :
    s.ctx.initialised = true ∧
      ((∃ st, rejection s p = some st ∧ t = reject st p s) ∨ (rejection s p = none ∧ t = handle (acceptSeq p s))) := by
  unfold accept at h
  split at h
  · rename_i hi
    refine ⟨hi, ?_⟩
    split at h <;> cases h
    · exact Or.inl ⟨_, ‹_›, rfl⟩
    · exact Or.inr ⟨‹_›, rfl⟩
  · cases h

theorem accept_rejected {p : Rx} {s : State} {handle : State → State} {st : Status} (hi : s.ctx.initialised = true)
    (hr : rejection s p = some st) : accept p s handle = .next (reject st p s) := by
  unfold accept; rw [if_pos hi, hr]

theorem accept_handled {p : Rx} {s : State} {handle : State → State} (hi : s.ctx.initialised = true)
    (hr : rejection s p = none) : accept p s handle = .next (handle (acceptSeq p s)) := by
  unfold accept; rw [if_pos hi, hr]

/-- A response that runs ends the wait or changes nothing (45_opcodes.md R540, R541). -/
theorem respond_next {p : Rx} {s t : State} {finish : State → State} (h : respond p s finish = .next t) :
    s.ctx.initialised = true ∧ ((endsWait s p = true ∧ t = finish s) ∨ (endsWait s p = false ∧ t = s)) := by
  unfold respond at h
  split at h
  · rename_i hi
    refine ⟨hi, ?_⟩
    cases h
    cases he : endsWait s p
    · exact Or.inr ⟨rfl, by simp⟩
    · exact Or.inl ⟨rfl, by simp⟩
  · cases h

theorem reject_quiet (st : Status) (p : Rx) (s : State) : Quiet s (reject st p s) := by
  unfold reject
  split
  · exact (Quiet.withStats _ s).trans (sendStatus_quiet _ _ _)
  · exact sendStatus_quiet _ _ _

theorem acceptSeq_quiet (p : Rx) (s : State) : Quiet s (acceptSeq p s) := by
  unfold acceptSeq
  split
  · exact Quiet.refl s
  · exact Quiet.advanceSeq s

theorem acceptSeq_afterAccept (p : Rx) (s : State) : acceptSeq p s = s.afterAccept p.hdr := by
  unfold acceptSeq State.afterAccept
  cases exempt p.hdr <;> rfl

theorem Live.deliver {s : State} (h : Live s) (p : Rx) : Live (deliver p s) :=
  h.of_parts rfl rfl rfl h.cfg h.defaultCfg ⟨h.wait.flag, h.wait.timeout, h.wait.held, h.wait.idle, h.wait.chunks⟩
    ⟨h.scan.bound, h.scan.unused⟩

theorem Live.acceptDelivered {p : Rx} {s t : State} (h : Live s) (he : acceptDelivered p s = .next t) : Live t := by
  rcases accept_next he with ⟨-, ⟨st, -, rfl⟩ | ⟨-, rfl⟩⟩
  · exact h.quiet (reject_quiet _ _ _)
  · exact (h.quiet (acceptSeq_quiet _ _)).deliver p

theorem Live.sendAck {s : State} (h : Live s) (hd : Hdr) (pl : List Byte) : Live (sendAck hd pl s) :=
  h.quiet (sendAck_quiet _ _ _)

/-- SYNC processing keeps the invariants, in a wait or not (43_framing_fsm.md R380, 44_reliable_delivery.md R435). -/
theorem Live.syncFound {s : State} (h : Live s) (hd : Hdr) : Live (syncFound hd s) := by
  unfold Machine.syncFound
  simp only
  apply Live.sendAck
  apply Live.reset
  split
  · have h1 := h.failWait (codeOf s .failed)
    exact h1.of_parts rfl rfl rfl h1.cfg h1.defaultCfg (WaitValid.ended rfl rfl rfl rfl rfl rfl rfl) (ScanValid.zero rfl)
  · exact h.of_parts rfl rfl rfl h.cfg h.defaultCfg
      ⟨h.wait.flag, h.wait.timeout, h.wait.held, h.wait.idle, h.wait.chunks⟩ (ScanValid.zero rfl)

/-- SET_CAPS outside a wait keeps the invariants (45_opcodes.md R502). -/
theorem Live.setCaps {s : State} (h : Live s) (hp : 64 ≤ s.par.cap) (hw : s.ctx.waitForAck = false) (p : Rx) :
    Live (setCaps p s) := by
  unfold Machine.setCaps
  split
  · exact h.quiet (sendStatus_quiet _ _ _)
  split
  · exact h.quiet (sendStatus_quiet _ _ _)
  rename_i hn
  have hn' : 50 ≤ (le16 p.payload 4).toNat ∧ (le16 p.payload 4).toNat ≤ s.par.cap - 14 := by
    obtain ⟨a, b⟩ := Bool.and_eq_true_iff.mp (show negotiable s (le16 p.payload 4) = true by simpa using hn)
    exact ⟨of_decide_eq_true a, of_decide_eq_true b⟩
  have hq := sendAck_quiet p.hdr [] s
  have h1 := h.quiet hq
  obtain ⟨st, sq, hc⟩ := hq.ctx
  refine h1.of_parts rfl rfl rfl ?_ h1.defaultCfg ?_ ⟨h1.scan.bound, h1.scan.unused⟩
  · refine ⟨?_, ?_, ?_⟩
    · exact hn'.1
    · simp only [State.withCtx, negotiated]; rw [hq.par]; omega
    · exact h1.cfg.timeout
  · have hi := h1.wait.idle (by rw [hc]; exact hw)
    refine ⟨h1.wait.flag, h1.wait.timeout, fun hf => ?_, fun _ => hi, fun k hk => ?_⟩
    · have : (Machine.sendAck p.hdr [] s).ctx.waitForAck = true := hf
      rw [hc] at this; exact absurd this (by simp [hw])
    · have hk' : k ∈ (Machine.sendAck p.hdr [] s).ctx.fragRest := hk
      rw [hi.2.2.2.2] at hk'; simp at hk'

/-- Outside a wait every instruction keeps the invariants. -/
theorem Live.exec {i : Instr} {s t : State} (h : Live s) (hp : 64 ≤ s.par.cap) (hw : s.ctx.waitForAck = false)
    (he : exec i s = .next t) : Live t := by
  have hack : ∀ (p : Rx) (g : State → List Byte), accept p s (fun u => Machine.sendAck p.hdr (g u) u) = .next t → Live t := by
    intro p g he
    rcases accept_next he with ⟨-, ⟨st, -, rfl⟩ | ⟨-, rfl⟩⟩
    · exact h.quiet (reject_quiet _ _ _)
    · exact (h.quiet (acceptSeq_quiet _ _)).sendAck _ _
  cases i with
  | sync u f =>
    rcases accept_next he with ⟨-, ⟨st, -, rfl⟩ | ⟨-, rfl⟩⟩
    · exact h.quiet (reject_quiet _ _ _)
    · exact (h.quiet (acceptSeq_quiet _ _)).syncFound _
  | getCaps u f => exact hack _ (fun t => capsPayload t.ctx.cfg) he
  | stats u f => exact hack _ (fun t => statsPayload t.par.statsLayout t.ctx.stats) he
  | version u f => exact hack _ (fun t => t.par.versionPayload) he
  | setCaps u f =>
    rcases accept_next he with ⟨-, ⟨st, -, rfl⟩ | ⟨-, rfl⟩⟩
    · exact h.quiet (reject_quiet _ _ _)
    · have hq := acceptSeq_quiet (Instr.setCaps u f).rx s
      exact (h.quiet hq).setCaps (by rw [hq.par]; exact hp) (by rw [hq.waiting]; exact hw) _
  | lock u f =>
    rcases accept_next (show accept (Instr.lock u f).rx s (fun t => Machine.deliver (Instr.lock u f).rx
      (setLastLock (Instr.lock u f).rx.hdr.channel.toNat (some t.ctx.now) t)) = _ from he) with ⟨-, ⟨st, -, rfl⟩ | ⟨-, rfl⟩⟩
    · exact h.quiet (reject_quiet _ _ _)
    · have h1 := h.quiet (acceptSeq_quiet (Instr.lock u f).rx s)
      exact (h1.reg (h1.registry.setLastLock _ _)).deliver _
  | ack op u f =>
    rcases respond_next he with ⟨-, ⟨-, rfl⟩ | ⟨-, rfl⟩⟩
    · exact h.endAck
    · exact h
  | nak op a u f =>
    rcases respond_next he with ⟨-, ⟨-, rfl⟩ | ⟨-, rfl⟩⟩
    · exact h.failWait _
    · exact h
  | _ => exact h.acceptDelivered he

/-- A response, or a SYNC, keeps the invariants in any state. -/
theorem Live.exec_in_wait {i : Instr} {s t : State} (h : Live s)
    (hi : isResponse i.rx.hdr.flags = true ∨ i.rx.hdr.opcode = 0x00#8) (he : Machine.exec i s = .next t) : Live t := by
  have hcf : ∀ u : UpperFlags, isResponse (commandFlags u) = false := by
    intro u; unfold isResponse hasFlag commandFlags flagAck flagNak; revert u; decide
  cases i with
  | sync u f =>
    rcases accept_next he with ⟨-, ⟨st, -, rfl⟩ | ⟨-, rfl⟩⟩
    · exact h.quiet (reject_quiet _ _ _)
    · exact (h.quiet (acceptSeq_quiet _ _)).syncFound _
  | ack op u f =>
    rcases respond_next he with ⟨-, ⟨-, rfl⟩ | ⟨-, rfl⟩⟩
    · exact h.endAck
    · exact h
  | nak op a u f =>
    rcases respond_next he with ⟨-, ⟨-, rfl⟩ | ⟨-, rfl⟩⟩
    · exact h.failWait _
    · exact h
  | _ =>
    exfalso
    rcases hi with hi | hi
    · simp [Instr.rx, Frame.rx, hcf] at hi
    · simp [Instr.rx, Frame.rx] at hi

/-- An undefined opcode changes no more than a rejection does (43_framing_fsm.md R367). -/
theorem Live.undefined {p : Rx} {s t : State} (h : Live s) (he : accept p s id = .next t) : Live t := by
  rcases accept_next he with ⟨-, ⟨st, -, rfl⟩ | ⟨-, rfl⟩⟩
  · exact h.quiet (reject_quiet _ _ _)
  · exact h.quiet (acceptSeq_quiet _ _)

end Sys2Proof.Machine
end

