-- ==== Sys2Proof/Laws/Scan.lean ====
section
/-! SUPPORT. Where the scans of SYNC_RECOVERY and WAIT_ACK can end, and what the packet found there is. -/

namespace Sys2Proof.Machine

/-! ### A packet read at an offset -/

theorem hdrOf_congr {a b : List Byte} (h : ∀ i, i < 10 → a[i]? = b[i]?) : hdrOf a = hdrOf b := by
  have hb : ∀ i, i < 10 → byteOf a i = byteOf b i := by
    intro i hi; simp [byteOf, List.getD_eq_getElem?_getD, h i hi]
  simp only [hdrOf, le16, hb 2 (by decide), hb 3 (by decide), hb 4 (by decide), hb 5 (by decide), hb 6 (by decide),
    hb 7 (by decide), hb 8 (by decide), hb 9 (by decide)]

theorem sizeAt_ge (s : State) (k : Nat) : 10 ≤ sizeAt s k := by
  unfold sizeAt packetTotalSize Config.headerSize; omega

/-- The header of the packet at an offset is `hdr_at` of that offset (41_packet_codec.md R257). -/
theorem rxAt_hdr (s : State) (k : Nat) : (rxAt s k).hdr = hdrAt s k := by
  unfold rxAt rxOf hdrAt
  simp only
  apply hdrOf_congr
  intro i hi
  have := sizeAt_ge s k
  rw [memRead_getElem?, memRead_getElem?, if_pos (by omega), if_pos (by simpa [Config.headerSize] using hi)]

/-- Its payload has the declared length (30_encoding.md R142). -/
theorem rxAt_payload_length (s : State) (k : Nat) : (rxAt s k).payload.length = (hdrAt s k).length.toNat := by
  have hh := rxAt_hdr s k
  have : (rxAt s k).payload = ((memRead s k (sizeAt s k)).drop 10).take (rxAt s k).hdr.length.toNat := rfl
  rw [this, hh, List.length_take, List.length_drop, memRead_length]
  unfold sizeAt packetTotalSize Config.headerSize
  omega

/-- The instruction the packet at an offset is, with its header. -/
theorem classify_rxAt {s : State} {k : Nat} {i : Instr} (h : classify (rxAt s k) = some i) : i.rx = rxAt s k :=
  rx_of_classify _ _ h (by rw [rxAt_payload_length, rxAt_hdr]; simp)

/-! ### The scans -/

/-- What `sync_cmd_at` has checked when it answers YES (43_framing_fsm.md R363). -/
theorem syncCmdAt_yes {s : State} {k : Nat} (h : syncCmdAt s k = .yes) :
    headerOkAt s k = true ∧ (hdrAt s k).opcode = 0x00#8 ∧ (hdrAt s k).channel = 0#8 ∧
      isResponse (hdrAt s k).flags = false ∧ lengthOk s (hdrAt s k) = true ∧ k + sizeAt s k ≤ s.sb.used ∧
      payloadOkAt s k = true := by
  unfold syncCmdAt at h
  simp only at h
  split at h; · cases h
  split at h; · cases h
  split at h; · cases h
  split at h; · cases h
  split at h; · cases h
  split at h; · cases h
  simp_all

/-- A recovery scan ends at a SYNC command, or at an offset it had to stop at. -/
theorem recoveryScan_cases (s : State) : ∀ (fuel k : Nat),
    (∃ j, recoveryScan s fuel k = .found j ∧ k ≤ j ∧ j + 10 ≤ s.sb.used ∧ syncWordAt s j = true ∧ syncCmdAt s j = .yes) ∨
    (∃ j, recoveryScan s fuel k = .stopped j ∧ k ≤ j ∧ (j ≤ s.sb.used ∨ j = k)) := by
  intro fuel
  induction fuel with
  | zero => intro k; exact Or.inr ⟨k, rfl, le_refl _, Or.inr rfl⟩
  | succ n ih =>
    intro k
    unfold recoveryScan
    have next : k + 2 ≤ s.sb.used →
        (∃ j, recoveryScan s n (k + 1) = .found j ∧ k ≤ j ∧ j + 10 ≤ s.sb.used ∧ syncWordAt s j = true ∧
          syncCmdAt s j = .yes) ∨
        (∃ j, recoveryScan s n (k + 1) = .stopped j ∧ k ≤ j ∧ (j ≤ s.sb.used ∨ j = k)) := by
      intro hu
      rcases ih (k + 1) with ⟨j, e, h1, h2⟩ | ⟨j, e, h1, h2⟩
      · exact Or.inl ⟨j, e, by omega, h2⟩
      · exact Or.inr ⟨j, e, by omega, Or.inl (by omega)⟩
    split
    · exact Or.inr ⟨k, rfl, le_refl _, Or.inr rfl⟩
    rename_i hu
    split
    · exact next (by omega)
    rename_i hs
    split
    · exact Or.inr ⟨k, rfl, le_refl _, Or.inr rfl⟩
    rename_i h10
    cases hc : syncCmdAt s k <;> simp only
    · exact next (by omega)
    · exact Or.inr ⟨k, rfl, le_refl _, Or.inr rfl⟩
    · exact Or.inl ⟨k, rfl, le_refl _, by simpa [Config.headerSize] using h10, by simpa using hs, hc⟩

/-- A WAIT_ACK scan ends at a matching response, at a SYNC command, or at an offset it had to stop at. -/
theorem waitScan_cases (s : State) : ∀ (fuel k : Nat),
    (∃ j, waitScan s fuel k = .response j ∧ k ≤ j ∧ j + sizeAt s j ≤ s.sb.used ∧ syncWordAt s j = true ∧
      headerOkAt s j = true ∧ lengthOk s (hdrAt s j) = true ∧ ackMatch s (hdrAt s j) = true ∧ payloadOkAt s j = true) ∨
    (∃ j, waitScan s fuel k = .sync j ∧ k ≤ j ∧ j + 10 ≤ s.sb.used ∧ syncWordAt s j = true ∧ syncCmdAt s j = .yes) ∨
    (∃ j, waitScan s fuel k = .stopped j ∧ k ≤ j ∧ (j ≤ s.sb.used ∨ j = k)) := by
  intro fuel
  induction fuel with
  | zero => intro k; exact Or.inr (Or.inr ⟨k, rfl, le_refl _, Or.inr rfl⟩)
  | succ n ih =>
    intro k
    have next : ∀ m, k < m → m ≤ s.sb.used →
        (∃ j, waitScan s n m = .response j ∧ k ≤ j ∧ j + sizeAt s j ≤ s.sb.used ∧ syncWordAt s j = true ∧
          headerOkAt s j = true ∧ lengthOk s (hdrAt s j) = true ∧ ackMatch s (hdrAt s j) = true ∧
          payloadOkAt s j = true) ∨
        (∃ j, waitScan s n m = .sync j ∧ k ≤ j ∧ j + 10 ≤ s.sb.used ∧ syncWordAt s j = true ∧ syncCmdAt s j = .yes) ∨
        (∃ j, waitScan s n m = .stopped j ∧ k ≤ j ∧ (j ≤ s.sb.used ∨ j = k)) := by
      intro m hm hu
      rcases ih m with ⟨j, e, h1, h2⟩ | ⟨j, e, h1, h2⟩ | ⟨j, e, h1, h2⟩
      · exact Or.inl ⟨j, e, by omega, h2⟩
      · exact Or.inr (Or.inl ⟨j, e, by omega, h2⟩)
      · exact Or.inr (Or.inr ⟨j, e, by omega, Or.inl (by omega)⟩)
    unfold waitScan
    split
    · exact Or.inr (Or.inr ⟨k, rfl, le_refl _, Or.inr rfl⟩)
    rename_i hu
    split
    · exact next _ (by omega) (by omega)
    rename_i hs
    split
    · exact Or.inr (Or.inr ⟨k, rfl, le_refl _, Or.inr rfl⟩)
    rename_i h10
    split
    · exact next _ (by omega) (by omega)
    rename_i hh
    simp only [Bool.or_eq_true, Bool.not_eq_true', not_or, Bool.not_eq_false] at hh
    split
    · rename_i ha
      split
      · exact Or.inr (Or.inr ⟨k, rfl, le_refl _, Or.inr rfl⟩)
      rename_i hn
      split
      · exact next _ (by omega) (by omega)
      rename_i hp
      exact Or.inl ⟨k, rfl, le_refl _, by omega, by simpa using hs, hh.1, hh.2, ha, by simpa using hp⟩
    · cases hc : syncCmdAt s k <;> simp only
      · split
        · exact next _ (by have := sizeAt_ge s k; omega) (by omega)
        · exact next _ (by omega) (by omega)
      · exact Or.inr (Or.inr ⟨k, rfl, le_refl _, Or.inr rfl⟩)
      · exact Or.inr (Or.inl ⟨k, rfl, le_refl _, by simpa [Config.headerSize] using h10, by simpa using hs, hc⟩)

/-! ### Where a scan goes on and where it stops -/

/-- A recovery scan goes on over the offsets it passes; the fuel suffices as long as it exceeds what is left to scan. -/
theorem recoveryScan_passes {s : State} {j : Nat} : ∀ (n k fuel : Nat), k + n = j → s.sb.used < fuel + k →
    (∀ i, k ≤ i → i < j → RecoveryPasses s i) →
    ∃ fuel', s.sb.used < fuel' + j ∧ recoveryScan s fuel k = recoveryScan s fuel' j := by
  intro n
  induction n with
  | zero => intro k fuel hk hf _; obtain rfl : k = j := hk; exact ⟨fuel, hf, rfl⟩
  | succ n ih =>
    intro k fuel hk hf hp
    obtain ⟨h2, hw⟩ := hp k (le_refl _) (by omega)
    obtain ⟨m, rfl⟩ : ∃ m, fuel = m + 1 := ⟨fuel - 1, by omega⟩
    obtain ⟨f, hf', e⟩ := ih (k + 1) m (by omega) (by omega) (fun i hi => hp i (by omega))
    refine ⟨f, hf', Eq.trans ?_ e⟩
    rw [recoveryScan, if_neg (by omega)]
    cases hs : syncWordAt s k
    · rfl
    · obtain ⟨h10, hc⟩ := hw hs
      simp only [Bool.not_true, Bool.false_eq_true, if_false, hc]
      rw [if_neg (by simpa [Config.headerSize] using h10)]

/-- A recovery scan stops where it waits for bytes. -/
theorem recoveryScan_stops {s : State} {j fuel : Nat} (h : RecoveryStops s j) : recoveryScan s fuel j = .stopped j := by
  cases fuel with
  | zero => rfl
  | succ n =>
    unfold recoveryScan
    rcases h with h | ⟨hs, h | h⟩
    · rw [if_pos h]
    · split
      · rfl
      · rw [hs, if_neg (by simp)]; exact if_pos h
    · split
      · rfl
      · rw [hs, if_neg (by simp), h]; split <;> rfl

/-- A WAIT_ACK scan goes on over what it passes; the fuel suffices as long as it exceeds what is left to scan. -/
theorem waitScan_passes {s : State} {k j : Nat} (h : WaitPasses s k j) : ∀ fuel, s.sb.used < fuel + k →
    ∃ fuel', s.sb.used < fuel' + j ∧ waitScan s fuel k = waitScan s fuel' j := by
  induction h with
  | here k => intro fuel hf; exact ⟨fuel, hf, rfl⟩
  | @noSyncWord k j room word _ ih =>
    intro fuel hf
    obtain ⟨m, rfl⟩ : ∃ m, fuel = m + 1 := ⟨fuel - 1, by omega⟩
    obtain ⟨f, hf', e⟩ := ih m (by omega)
    refine ⟨f, hf', Eq.trans ?_ e⟩
    rw [waitScan, if_neg (by omega), word]; rfl
  | @badHeader k j room word bad _ ih =>
    intro fuel hf
    obtain ⟨m, rfl⟩ : ∃ m, fuel = m + 1 := ⟨fuel - 1, by omega⟩
    obtain ⟨f, hf', e⟩ := ih m (by omega)
    refine ⟨f, hf', Eq.trans ?_ e⟩
    have hb : (!headerOkAt s k || !lengthOk s (hdrAt s k)) = true := by
      rcases bad with h | h
      · simp [h]
      · simp [lengthOk, BitVec.not_le.mpr h]
    rw [waitScan, if_neg (by omega), word, if_neg (by simp), if_neg (by simp [Config.headerSize]; omega), if_pos hb]
  | @badPayload k j word good fits matching complete bad _ ih =>
    intro fuel hf
    have hge := sizeAt_ge s k
    obtain ⟨m, rfl⟩ : ∃ m, fuel = m + 1 := ⟨fuel - 1, by omega⟩
    obtain ⟨f, hf', e⟩ := ih m (by omega)
    refine ⟨f, hf', Eq.trans ?_ e⟩
    rw [waitScan, if_neg (by omega), word, if_neg (by simp), if_neg (by simp [Config.headerSize]; omega), good,
      if_neg (by simp [lengthOk, fits]), if_pos matching, if_neg (by omega), bad, if_pos (by simp)]
  | @skipped k j word good fits other noSync complete _ ih =>
    intro fuel hf
    have hge := sizeAt_ge s k
    obtain ⟨m, rfl⟩ : ∃ m, fuel = m + 1 := ⟨fuel - 1, by omega⟩
    obtain ⟨f, hf', e⟩ := ih m (by omega)
    refine ⟨f, hf', Eq.trans ?_ e⟩
    rw [waitScan, if_neg (by omega), word, if_neg (by simp), if_neg (by simp [Config.headerSize]; omega), good,
      if_neg (by simp [lengthOk, fits]), if_neg (by simp [other]), noSync]
    exact if_pos complete
  | @incomplete k j room word good fits other noSync short _ ih =>
    intro fuel hf
    obtain ⟨m, rfl⟩ : ∃ m, fuel = m + 1 := ⟨fuel - 1, by omega⟩
    obtain ⟨f, hf', e⟩ := ih m (by omega)
    refine ⟨f, hf', Eq.trans ?_ e⟩
    rw [waitScan, if_neg (by omega), word, if_neg (by simp), if_neg (by simp [Config.headerSize]; omega), good,
      if_neg (by simp [lengthOk, fits]), if_neg (by simp [other]), noSync]
    exact if_neg (by omega)

/-- A WAIT_ACK scan stops where it waits for bytes. -/
theorem waitScan_stops {s : State} {j fuel : Nat} (h : WaitStops s j) : waitScan s fuel j = .stopped j := by
  cases fuel with
  | zero => rfl
  | succ n =>
    unfold waitScan
    rcases h with h | ⟨hs, h | ⟨hh, hl, h | h⟩⟩
    · rw [if_pos h]
    · split
      · rfl
      · rw [hs, if_neg (by simp)]; exact if_pos h
    · split
      · rfl
      · rw [hs, if_neg (by simp), hh, h.1]
        simp [lengthOk, hl, h.2]
    · split
      · rfl
      · rw [hs, if_neg (by simp), hh, h.1, h.2]
        simp [lengthOk, hl]

end Sys2Proof.Machine
end

