-- ==== Sys2Proof/Laws/Ports.lean ====
section
/-! SUPPORT. The invariants under every port operation. -/

namespace Sys2Proof.Machine

/-- A guarded operation that runs runs on an initialised block (10_state.md R32). -/
theorem guarded_next {s t : State} {r : Host.Outcome State Fault Refusal} (h : guarded s r = .next t) :
    s.ctx.initialised = true ∧ r = .next t := by
  unfold guarded at h
  split at h
  · exact ⟨‹_›, h⟩
  · cases h

theorem failOpenWait_parts (s : State) : (failOpenWait s).par = s.par ∧ (failOpenWait s).sb = s.sb ∧
    (failOpenWait s).reg = s.reg := by
  unfold failOpenWait; split <;> exact ⟨rfl, rfl, rfl⟩

/-- No send changes the parameters, the buffer or the registry, or takes a pending action. -/
theorem sendChunk_parts (c : Chunk) (s : State) : (sendChunk c s).2.par = s.par ∧ (sendChunk c s).2.sb = s.sb ∧
    (sendChunk c s).2.reg = s.reg ∧ (sendChunk c s).2.env.inputs = s.env.inputs := by
  have one : ∀ (d : Chunk) (t : State), (sendOne d t).2.par = t.par ∧ (sendOne d t).2.sb = t.sb ∧
      (sendOne d t).2.reg = t.reg ∧ (sendOne d t).2.env.inputs = t.env.inputs := by
    intro d t
    rcases sendOne_cases d t with ⟨-, -, e⟩ | ⟨u, hq, -, e⟩ | ⟨u, hq, -, e⟩ | ⟨u, hq, -, -, e⟩ <;> rw [e]
    · exact ⟨rfl, rfl, rfl, rfl⟩
    all_goals exact ⟨hq.par, hq.sb, hq.reg, hq.inputs⟩
  cases ha : effAckRequired s.ctx.cfg.ackEn c.flags c.ackRequired
  · have hq := sendChunk_quiet ha
    exact ⟨hq.par, hq.sb, hq.reg, hq.inputs⟩
  · unfold sendChunk
    split
    · unfold sendFragmented
      simp only [ha, Bool.true_and, Bool.not_true, Bool.false_eq_true, if_false]
      split
      · exact ⟨rfl, rfl, rfl, rfl⟩
      split
      · exact ⟨rfl, rfl, rfl, rfl⟩
      rename_i c1 rest _
      have h1 := one c1 (setFragRest rest s)
      rcases he : sendOne c1 (setFragRest rest s) with ⟨r, u⟩
      rw [he] at h1
      cases r <;> exact h1
    · exact one c s

/-- A successful `init` establishes the invariants (70_reset_and_hazards.md R700, R705). -/
theorem Live.init {s : State} (h : ParamsValid s.par) {c : Config.Cfg} (hv : validCfg s.par.cap c = true) :
    Live (initBlock c s) := by
  have hc := h.cap
  simp only [validCfg, Bool.and_eq_true, decide_eq_true_eq] at hv
  have hcfg : CfgValid s.par.cap c := ⟨hv.1.1, by omega, hv.2⟩
  refine ⟨freshBuffer_valid _, hcfg, hcfg, WaitValid.ended rfl rfl rfl rfl rfl rfl rfl, ScanValid.zero rfl,
    by simp [initBlock, freshRegistry], by simp [initBlock, freshRegistry], ?_⟩
  intro i d hd
  simp [initBlock, freshRegistry, List.getElem?_replicate] at hd

theorem Live.fill {s : State} (h : Live s) {i : Nat} {v : List Byte} (hf : fillAllowed i v.length s = true) :
    Live (fillBytes i v s) := h.sb (h.buffer.fill hf)

theorem Live.commit {s : State} (h : Live s) {n : Nat} (hn : n ≤ s.sb.claimLen) (h0 : 0 < n) : Live (commitBytes n s) :=
  (h.sb (h.buffer.commit hn h0)).env { s.env with drawn := s.env.drawn + n }

theorem Live.claim {s u : State} (h : Live s) {n : Nat} {r : Option Nat} (hc : Machine.claim n s = (r, u)) :
    Live u ∧ u.par = s.par ∧ u.ctx = s.ctx := by
  obtain ⟨a, b, c, d, e⟩ := claim_valid h.buffer hc
  have hu : u = s.withSb u.sb := State.ext_parts b c rfl d e
  exact ⟨by rw [hu]; exact h.sb a, b, c⟩

@[simp] theorem claimRegion_claimLen (n : Nat) (s : State) : (claimRegion n s).sb.claimLen = n := by
  unfold claimRegion; split <;> rfl

/-- A claim that is granted (40_staging_buffer.md R206). -/
theorem claim_granted {n : Nat} {s : State} (h0 : 0 < n) (h : s.sb.used + n ≤ s.par.cap) :
    Machine.claim n s = (some (claimRegion n s).sb.wr, claimRegion n s) := by
  unfold Machine.claim; rw [if_neg (by omega), if_neg (by omega)]

/-- A claim that is refused (40_staging_buffer.md R206). -/
theorem claim_refused {n : Nat} {s : State} (h0 : 0 < n) (h : s.par.cap < s.sb.used + n) :
    Machine.claim n s = (none, s.withSb { s.sb with claimLen := 0 }) := by
  unfold Machine.claim; rw [if_neg (by omega), if_pos h]

/-- Every port operation that runs keeps the parameters, and keeps the invariants of the block it leaves initialised. -/
theorem Live.port {s t : State} (hp : ParamsValid s.par) (h : s.ctx.initialised = true → Live s) (op : PortOp)
    (he : execPort op s = .next t) : t.par = s.par ∧ (t.ctx.initialised = true → Live t) := by
  have noted : ∀ {r : Ret} {u : State}, Machine.answer r u = .next t → u.par = s.par → Live u →
      t.par = s.par ∧ (t.ctx.initialised = true → Live t) := by
    intro r u e hpar hl
    cases e
    exact ⟨hpar, fun _ => hl.env _⟩
  cases op with
  | init c =>
    unfold execPort portInit at he
    simp only at he
    split at he; · cases he
    split at he
    · exact noted he rfl (Live.init hp ‹_›)
    · cases he; exact ⟨rfl, fun hi => (h hi).env _⟩
  | reset =>
    obtain ⟨hi, he⟩ := guarded_next he
    exact noted he (protocolReset_parts s).1 (h hi).reset
  | deinit =>
    obtain ⟨hi, he⟩ := guarded_next he
    cases he
    refine ⟨(deinitAll_parts _).1.trans (failOpenWait_parts s).1, fun hh => ?_⟩
    cases hh
  | sbAvailableToRead => obtain ⟨hi, he⟩ := guarded_next he; exact noted he rfl (h hi)
  | sbAvailableToWrite => obtain ⟨hi, he⟩ := guarded_next he; exact noted he rfl (h hi)
  | sbPeekU16 =>
    obtain ⟨hi, he⟩ := guarded_next he
    unfold portPeekU16 at he
    split at he
    · cases he
    · exact noted he rfl (h hi)
  | sbDataPtr => obtain ⟨hi, he⟩ := guarded_next he; exact noted he rfl (h hi)
  | sbClaim n =>
    obtain ⟨hi, he⟩ := guarded_next he
    unfold portClaim at he
    rcases hc : Machine.claim n s with ⟨_ | r, u⟩ <;> rw [hc] at he <;>
      exact noted he ((h hi).claim hc).2.1 ((h hi).claim hc).1
  | sbFill i v =>
    obtain ⟨hi, he⟩ := guarded_next he
    unfold portFill at he
    split at he
    · exact noted he rfl ((h hi).fill ‹_›)
    · cases he
  | sbCommit n =>
    obtain ⟨hi, he⟩ := guarded_next he
    unfold portCommit at he
    split at he
    · exact noted he rfl (h hi)
    split at he
    · cases he
    · exact noted he rfl ((h hi).commit (by omega) (by omega))
  | sbConsume n =>
    obtain ⟨hi, he⟩ := guarded_next he
    unfold portConsume at he
    split at he
    · exact noted he rfl (h hi)
    split at he
    · cases he
    · exact noted he (consumeBytes_par _ _) ((h hi).consume n)
  | sbPush b =>
    obtain ⟨hi, he⟩ := guarded_next he
    unfold portPush at he
    rcases hc : Machine.claim b.length s with ⟨_ | st, u⟩ <;> rw [hc] at he <;>
      obtain ⟨hu, hpar, -⟩ := (h hi).claim hc
    · exact noted he hpar hu
    · simp only at he
      split at he
      · exact noted he hpar hu
      · rename_i hb
        have hb' : 0 < b.length := by cases b <;> simp_all
        by_cases hroom : s.sb.used + b.length ≤ s.par.cap
        · rw [claim_granted hb' hroom] at hc
          cases hc
          have hf : fillAllowed (claimRegion b.length s).sb.wr b.length (claimRegion b.length s) = true := by
            simp [fillAllowed]
          exact noted he hpar ((hu.fill hf).commit (Nat.le_of_eq (claimRegion_claimLen b.length s).symm) hb')
        · rw [claim_refused hb' (by omega)] at hc; cases hc
  | registryRegister d =>
    obtain ⟨hi, he⟩ := guarded_next he
    unfold portRegister at he
    rcases registerChannel_cases d s with ⟨st, u, hq, e⟩ | ⟨id, dyn, u, hq, -, hid, -, hn, e⟩ <;> rw [e] at he
    · exact noted he hq.par ((h hi).quiet hq)
    · refine noted he ?_ (((h hi).quiet hq).store (by have := hp.nchMax; omega) (by rw [hq.par]; exact hn) dyn)
      unfold storeChannel
      simp only
      split
      · exact (sendChunk_parts _ _).1.trans hq.par
      · exact hq.par
  | registryFind id => obtain ⟨hi, he⟩ := guarded_next he; exact noted he rfl (h hi)
  | registryFindTransport => obtain ⟨hi, he⟩ := guarded_next he; exact noted he rfl (h hi)
  | registryUnregister id => obtain ⟨hi, he⟩ := guarded_next he; cases he
  | registryDeinitAll => obtain ⟨hi, he⟩ := guarded_next he; exact noted he (deinitAll_parts s).1 (h hi).deinitAll
  | send c => obtain ⟨hi, he⟩ := guarded_next he; exact noted he (sendChunk_parts c s).1 ((h hi).send c)
  | sendAck hd pl => obtain ⟨hi, he⟩ := guarded_next he; exact noted he (sendChunk_parts _ s).1 ((h hi).send _)
  | sendStatus hd st => obtain ⟨hi, he⟩ := guarded_next he; exact noted he (sendChunk_parts _ s).1 ((h hi).send _)
  | tick => obtain ⟨hi, he⟩ := guarded_next he; cases he; exact ⟨rfl, fun _ => (h hi).tick⟩
  | dispatchDone =>
    obtain ⟨hi, he⟩ := guarded_next he
    unfold portDispatchDone at he
    split at he <;> cases he
    have hl := h hi
    exact ⟨rfl, fun _ => hl.withCtx hl.cfg hl.defaultCfg
      ⟨hl.wait.flag, hl.wait.timeout, hl.wait.held, hl.wait.idle, hl.wait.chunks⟩ ⟨hl.scan.bound, hl.scan.unused⟩⟩

end Sys2Proof.Machine
end

