-- ==== Sys2Proof/Laws/Framing.lean ====
section
/-! SUPPORT. The invariants under every framing and delivery transition. -/

namespace Sys2Proof.Machine

/-- A packet that reaches the dispatch stage keeps the invariants: any packet outside a wait, a response or SYNC in one. -/
theorem runReceived_live {p : Rx} {s t : State} (h : Live s) (hp : 64 ≤ s.par.cap)
    (hw : s.ctx.waitForAck = false ∨ ((isResponse p.hdr.flags = true ∨ p.hdr.opcode = 0x00#8) ∧ p.hdr.length = BitVec.ofNat 16 p.payload.length))
    (he : runReceived p s = .next t) : Live t := by
  unfold runReceived at he
  split at he
  · rename_i i hi
    rcases hw with hw | ⟨hw, hl⟩
    · exact h.exec hp hw he
    · exact h.exec_in_wait (by rw [rx_of_classify _ _ hi hl]; exact hw) he
  · exact h.undefined he

/-- Taking a packet out of the buffer (43_framing_fsm.md R380). -/
theorem Live.takeAt {s : State} (h : Live s) (k : Nat) : Live (takeAt k s) := by
  unfold Machine.takeAt
  exact ((h.consume k).consume _).quiet (Quiet.withStats _ _)

/-- Entering a framing state other than WAIT_ACK outside a wait. -/
theorem Live.enter {s : State} (h : Live s) (f : FramingState) (hf : f ≠ .waitAck) (hs : s.ctx.waitForAck = false) (k : Nat) (hk : k ≤ s.par.cap) (hk0 : f ≠ .syncRecovery → k = 0) : Live (s.enter f k) := by
  refine h.withCtx h.cfg h.defaultCfg ⟨?_, h.wait.timeout, h.wait.held, h.wait.idle, h.wait.chunks⟩ ⟨hk, fun a _ => hk0 a⟩
  show s.ctx.waitForAck = true ↔ f = .waitAck
  rw [hs]; simp [hf]

/-- The WAIT_ACK scan step (44_reliable_delivery.md R427). -/
theorem waitStep_live {s t : State} (h : Live s) (hp : 64 ≤ s.par.cap) (hw : s.ctx.state = .waitAck) (he : waitStep s = some (.next t)) : Live t := by
  have hlen : ∀ k, (rxAt s k).hdr.length = BitVec.ofNat 16 (rxAt s k).payload.length := by
    intro k; rw [rxAt_payload_length, rxAt_hdr]; simp
  unfold waitStep at he
  rcases waitScan_cases s (s.sb.used + 1) s.ctx.scanOffset with ⟨j, e, h1, h2, h3, h4, h5, h6, h7⟩ | ⟨j, e, h1, h2, h3, h4⟩ | ⟨j, e, h1, h2⟩ <;> rw [e] at he <;> simp only at he
  · injection he with he
    have hr : isResponse (rxAt s j).hdr.flags = true := by
      rw [rxAt_hdr]; unfold ackMatch at h6; simp at h6; exact h6.1.1
    refine runReceived_live (s := takeResponse j s) ?_ ?_ (Or.inr ⟨Or.inl hr, hlen j⟩) he
    · unfold takeResponse; split
      · exact h.takeAt _
      · exact h
    · unfold takeResponse Machine.takeAt; split <;> simpa using hp
  · injection he with he
    refine runReceived_live (s := takeAt j s) (h.takeAt _) (by unfold Machine.takeAt; simpa using hp) (Or.inr ⟨Or.inr ?_, hlen j⟩) he
    rw [rxAt_hdr]; exact (syncCmdAt_yes h4).2.1
  · split at he
    · cases he
    · cases he
      refine h.withCtx h.cfg h.defaultCfg ⟨?_, h.wait.timeout, h.wait.held, h.wait.idle, h.wait.chunks⟩ ⟨?_, fun _ a => absurd rfl a⟩
      · simp [h.wait.flag, hw]
      · have := h.buffer.room; have := h.buffer.cursors; have := h.scan.bound
        simp only; omega

/-- Every transition (43_framing_fsm.md R350). -/
theorem transition_live {s t : State} (h : Live s) (hp : 64 ≤ s.par.cap) (he : transition s = some (.next t)) : Live t := by
  unfold transition at he
  split at he; · cases he
  have hcap : s.sb.used ≤ s.par.cap := by have := h.buffer.room; have := h.buffer.cursors; omega
  have hidle : s.ctx.state ≠ .waitAck → s.ctx.waitForAck = false := by
    intro hn
    cases hwf : s.ctx.waitForAck
    · rfl
    · exact absurd (h.wait.flag.mp hwf) hn
  have h0 : s.ctx.state ≠ .waitAck → s.ctx.state ≠ .syncRecovery → s.ctx.scanOffset = 0 := fun a b => h.scan.unused b a
  split at he
  · rename_i hst
    have hw : s.ctx.waitForAck = true := h.wait.flag.mpr hst
    unfold waitTransition at he
    split at he
    · split at he
      · cases he; exact h.timeoutStep hw
      · have hq := Quiet.draw s
        split at he
        · rename_i u hu
          rw [hu] at hq
          cases he; exact (h.quiet hq).timeoutStep (by rw [hq.waiting]; exact hw)
        · rename_i u hu
          rw [hu] at hq
          obtain ⟨st, sq, hc⟩ := hq.ctx
          exact waitStep_live (h.quiet hq) (by rw [hq.par]; exact hp) (by show u.ctx.state = _; have : u.ctx = _ := hc; rw [this]; exact hst) he
    · exact waitStep_live h hp hst he
  · rename_i hst
    split at he <;> cases he
    unfold syncStep
    split
    · exact h.enter _ (by simp) (hidle (by simp [hst])) _ h.scan.bound (fun _ => h0 (by simp [hst]) (by simp [hst]))
    · exact h.consume 1
  · rename_i hst
    split at he <;> cases he
    unfold headerStep
    have hs0 := h0 (by simp [hst]) (by simp [hst])
    split
    · exact h.enter _ (by simp) (hidle (by simp [hst])) _ h.scan.bound (fun _ => hs0)
    · rename_i st _
      have hq1 : Quiet s (sendStatus (hdrAt s 0) st (countHeaderFailure st s)) := by
        refine Quiet.trans ?_ (sendStatus_quiet _ _ _)
        unfold countHeaderFailure
        split <;> exact Quiet.withStats _ s
      obtain ⟨a, b, hc⟩ := hq1.ctx
      have h2 := (h.quiet hq1).consume 1
      simp only
      refine h2.enter _ (by simp) ?_ _ h2.scan.bound (fun _ => ?_)
      · rw [consumeBytes_ctx, hc]; exact hidle (by simp [hst])
      · rw [consumeBytes_ctx, hc]; exact hs0
  · rename_i hst
    split at he; · cases he
    injection he with he
    have hwf := hidle (by simp [hst])
    unfold payloadStep at he
    split at he
    · have h2 : Live (countReceived (consumeBytes (sizeAt s 0) s)) := (h.consume _).quiet (Quiet.withStats _ _)
      refine runReceived_live (s := afterFetch s) ?_ (by unfold afterFetch; simpa using hp) (Or.inl (by unfold afterFetch; simpa using hwf)) he
      unfold afterFetch
      refine h2.enter _ (by simp) (by simpa using hwf) _ h2.scan.bound (fun _ => ?_)
      simpa using h0 (by simp [hst]) (by simp [hst])
    · cases he
      exact h.enter _ (by simp) hwf _ (by omega) (by simp)
  · rename_i hst
    split at he; · cases he
    have hwf := hidle (by simp [hst])
    unfold recoveryStep at he
    rcases recoveryScan_cases s (s.sb.used + 1) (max s.ctx.scanOffset 1) with ⟨j, e, h1, h2, h3, h4⟩ | ⟨j, e, h1, h2⟩ <;> rw [e] at he <;> simp only at he
    · injection he with he
      exact runReceived_live (s := takeAt j s) (h.takeAt _) (by unfold takeAt; simpa using hp) (Or.inl (by unfold takeAt; simpa using hwf)) he
    · split at he
      · cases he
        exact h.enter _ (by simp) hwf _ (by omega) (by simp)
      · split at he
        · cases he
        · cases he
          exact h.enter _ (by simp) hwf _ (by have := h.scan.bound; omega) (by simp)

end Sys2Proof.Machine
end

