-- ==== Sys2Proof/Laws/PerInstr.lean ====
section
/-! SUPPORT. The family `EncodingShape` of LAWS.json: one lemma for each constructor of `Instr`. -/

namespace Sys2Proof.Laws

/-- What the bytes of a well-formed instruction look like (30_encoding.md R140, R142, R151): as many as its `length` field
says, the sync word in front, the flags and the opcode of its packet in bytes 4 and 5; and its packet is classified as it. -/
def EncodingShape.Statement (i : Instr) : Prop :=
  i.wellFormed = true →
    (encode i).length = packetTotalSize i.rx.hdr.length ∧
      (encode i).take 6 = [0xAA#8, 0xD5#8, i.frame.sequence, i.frame.channel, i.rx.hdr.flags, i.rx.hdr.opcode] ∧
      classify i.rx = some i

/-- The whole family at once; each lemma below is its case. -/
theorem encodingShape (i : Instr) : EncodingShape.Statement i := by
  intro h
  refine ⟨(encode_facts h).1, ?_, classify_rx i⟩
  cases i <;> rfl

theorem EncodingShape.sync (u : UpperFlags) (f : Frame) : EncodingShape.Statement (.sync u f) := encodingShape _
theorem EncodingShape.getCaps (u : UpperFlags) (f : Frame) : EncodingShape.Statement (.getCaps u f) := encodingShape _
theorem EncodingShape.setCaps (u : UpperFlags) (f : Frame) : EncodingShape.Statement (.setCaps u f) := encodingShape _
theorem EncodingShape.stats (u : UpperFlags) (f : Frame) : EncodingShape.Statement (.stats u f) := encodingShape _
theorem EncodingShape.version (u : UpperFlags) (f : Frame) : EncodingShape.Statement (.version u f) := encodingShape _
theorem EncodingShape.reset (u : UpperFlags) (f : Frame) : EncodingShape.Statement (.reset u f) := encodingShape _
theorem EncodingShape.enterBootloader (u : UpperFlags) (f : Frame) : EncodingShape.Statement (.enterBootloader u f) := encodingShape _
theorem EncodingShape.systemInfo (u : UpperFlags) (f : Frame) : EncodingShape.Statement (.systemInfo u f) := encodingShape _
theorem EncodingShape.systemEvent (u : UpperFlags) (f : Frame) : EncodingShape.Statement (.systemEvent u f) := encodingShape _
theorem EncodingShape.list (u : UpperFlags) (f : Frame) : EncodingShape.Statement (.list u f) := encodingShape _
theorem EncodingShape.poll (u : UpperFlags) (f : Frame) : EncodingShape.Statement (.poll u f) := encodingShape _
theorem EncodingShape.lock (u : UpperFlags) (f : Frame) : EncodingShape.Statement (.lock u f) := encodingShape _
theorem EncodingShape.unlock (u : UpperFlags) (f : Frame) : EncodingShape.Statement (.unlock u f) := encodingShape _
theorem EncodingShape.shape (u : UpperFlags) (f : Frame) : EncodingShape.Statement (.shape u f) := encodingShape _
theorem EncodingShape.size (u : UpperFlags) (f : Frame) : EncodingShape.Statement (.size u f) := encodingShape _
theorem EncodingShape.read (u : UpperFlags) (f : Frame) : EncodingShape.Statement (.read u f) := encodingShape _
theorem EncodingShape.write (u : UpperFlags) (f : Frame) : EncodingShape.Statement (.write u f) := encodingShape _
theorem EncodingShape.ioctl (u : UpperFlags) (f : Frame) : EncodingShape.Statement (.ioctl u f) := encodingShape _
theorem EncodingShape.event (u : UpperFlags) (f : Frame) : EncodingShape.Statement (.event u f) := encodingShape _
theorem EncodingShape.ack (op : Byte) (u : UpperFlags) (f : Frame) : EncodingShape.Statement (.ack op u f) := encodingShape _
theorem EncodingShape.nak (op : Byte) (a : Bool) (u : UpperFlags) (f : Frame) : EncodingShape.Statement (.nak op a u f) :=
  encodingShape _

end Sys2Proof.Laws
end

