-- ==== Sys2Proof/Laws/Schedule.lean ====
section
/-! SUPPORT. What one step can do: the environment's action, a device restart, or the block's own transition. -/

namespace Sys2Proof.Machine

/-- The power-on state is a device restart's (70_reset_and_hazards.md R704). -/
theorem powerOn_reset : powerOn State.reset = State.reset := rfl

/-- If a step gives a next state, it is that of a port operation, of a device restart or of a transition; the actions still
pending afterwards are at most those that were pending, from the same end of the list. -/
theorem runInputs_next {t : State} : ∀ (is : List Input) (s : State), runInputs is s = .next t →
    (∃ op rest, .port op :: rest <:+ is ∧ execPort op (s.withInputs rest) = .next t) ∨
    (∃ rest, .restart :: rest <:+ is ∧ t = powerOn (s.withInputs rest)) ∨
    (∃ rest, rest <:+ is ∧ transition (s.withInputs rest) = some (.next t)) := by
  intro is
  induction is with
  | nil =>
    intro s h
    unfold runInputs at h
    split at h
    · rename_i r e; subst h; exact Or.inr (Or.inr ⟨[], List.suffix_refl _, e⟩)
    · cases h
  | cons i rest ih =>
    intro s h
    have later : runInputs rest s = .next t →
        (∃ op r, .port op :: r <:+ i :: rest ∧ execPort op (s.withInputs r) = .next t) ∨
        (∃ r, .restart :: r <:+ i :: rest ∧ t = powerOn (s.withInputs r)) ∨
        (∃ r, r <:+ i :: rest ∧ transition (s.withInputs r) = some (.next t)) := by
      intro h
      rcases ih s h with ⟨op, r, hr, e⟩ | ⟨r, hr, e⟩ | ⟨r, hr, e⟩
      · exact Or.inl ⟨op, r, hr.trans (List.suffix_cons _ _), e⟩
      · exact Or.inr (Or.inl ⟨r, hr.trans (List.suffix_cons _ _), e⟩)
      · exact Or.inr (Or.inr ⟨r, hr.trans (List.suffix_cons _ _), e⟩)
    cases i with
    | port op => exact Or.inl ⟨op, rest, List.suffix_refl _, h⟩
    | restart => cases h; exact Or.inr (Or.inl ⟨rest, List.suffix_refl _, rfl⟩)
    | turn =>
      unfold runInputs at h
      split at h
      · rename_i r e; subst h; exact Or.inr (Or.inr ⟨rest, List.suffix_cons _ _, e⟩)
      · exact later h
    | pump =>
      unfold runInputs at h
      split at h
      · rename_i r e; subst h; exact Or.inr (Or.inr ⟨_, List.suffix_refl _, e⟩)
      · exact later h

end Sys2Proof.Machine
end

