-- ==== Sys2Proof/Machine/Stimulus.lean ====
section
/-! DEFINITION. The stimulus scripts of 30_encoding.md R175 and their expansions (R176), as plain data over the machine. No
state of the block is here; scripts are how a run is written down (log 3). -/

namespace Sys2Proof.Machine

/-- One line of a script (R175). -/
inductive Stimulus where
  | init (c : Config.Cfg) (cap nch : Nat)
  | push (b : List Byte)
  | step
  | pump
  | tick (n : Nat)
  | send (c : Chunk)
  | reg (d : DescriptorSpec)
  | expectTx (b : List Byte)
  | expectDeliver (opcode channel sequence : Byte)
  | answerStatus (st : Status)
  | answerPayload (payload : List Byte)
  | done
  | expectResult (st : Status)
  deriving DecidableEq, Repr

/-- The packets delivered so far, oldest first. -/
def delivered (s : State) : List Pkt :=
  s.env.outputs.filterMap (fun o => match o with | .deliver p => some p | _ => none)

/-- The byte sequences handed to the transport so far, oldest first, those of a write that failed among them. DESIGN CHOICE
(log 28): R175 lets `tx?` assert the bytes "written through `t_write`" and does not say whether a write that answers an error
counts. -/
def transmitted (s : State) : List (List Byte) :=
  s.env.outputs.filterMap (fun o => match o with | .tWrite b _ => some b | _ => none)

/-- The results given to waiting senders so far, oldest first. -/
def resultsGiven (s : State) : List Half :=
  s.env.outputs.filterMap (fun o => match o with | .sendResult c => some c | _ => none)

/-- `answer` (R175): the response to the last delivered packet, then `dispatch_done`. DESIGN CHOICE (log 30): with no packet
delivered yet there is nothing to respond to, and only `dispatch_done` is signalled; R175 does not say. -/
def answerInputs (s : State) (respond : Hdr → PortOp) : List Input :=
  match (delivered s).getLast? with
  | some p => [.port (respond p.hdr), .port .dispatchDone]
  | none => [.port .dispatchDone]

/-- The environment actions a line stands for (R175, R176); an assertion stands for none. -/
def stimulusInputs (s : State) : Stimulus → List Input
  | .init c _ _ => [.port (.init c)]
  | .push b => [.port (.sbPush b)]
  | .step => [.turn]
  | .pump => [.pump]
  | .tick n => (List.replicate n [Input.port .tick, Input.pump]).flatten
  | .send c => [.port (.send c)]
  | .reg d => [.port (.registryRegister d)]
  | .expectTx _ => []
  | .expectDeliver _ _ _ => []
  | .answerStatus st => answerInputs s (fun h => .sendStatus h st)
  | .answerPayload pl => answerInputs s (fun h => .sendAck h pl)
  | .done => [.port .dispatchDone]
  | .expectResult _ => []

/-- Run until no action is pending; none at a fault or when `fuel` runs out. -/
def settle : Nat → State → Option State
  | 0, _ => none
  | fuel + 1, s =>
    if s.env.inputs.isEmpty then some s
    else match step s with
      | .next t => settle fuel t
      | .refused .quiescent => some (s.withInputs [])
      | _ => none

/-- A script in progress: the machine and how many outputs of each kind its assertions have met. DESIGN CHOICE (log 32): each
kind of assertion has its own place among the outputs of its kind. -/
structure ScriptRun where
  machine : State
  txSeen : Nat
  deliverSeen : Nat
  resultSeen : Nat
  deriving DecidableEq, Repr

/-- One line. `answers` are the environment's answers while it runs; an assertion that does not hold, or an operation that
faults, gives none (log 32). DESIGN CHOICE (log 28): a `tx?` line asserts exactly one whole `t_write` call, all its bytes and no
more; R175 says only "the next bytes written through `t_write`". -/
def runStimulus (fuel : Nat) (answers : List Bool) (r : ScriptRun) (c : Stimulus) : Option ScriptRun :=
  match c with
  | .expectTx b =>
    if (transmitted r.machine)[r.txSeen]? = some b then some { r with txSeen := r.txSeen + 1 } else none
  | .expectDeliver op ch sq =>
    match (delivered r.machine)[r.deliverSeen]? with
    | some p =>
      if p.hdr.opcode = op ∧ p.hdr.channel = ch ∧ p.hdr.sequence = sq then
        some { r with deliverSeen := r.deliverSeen + 1 }
      else none
    | none => none
  | .expectResult st =>
    if (resultsGiven r.machine)[r.resultSeen]? = some (codeOf r.machine st) then
      some { r with resultSeen := r.resultSeen + 1 }
    else none
  | .init cfg cap nch =>
    let s := { r.machine with par := { r.machine.par with cap := cap, nch := nch } }
    (settle fuel (s.withEnv { s.env with inputs := [.port (.init cfg)], answers := answers })).map
      (fun t => { r with machine := t })
  | c =>
    let s := r.machine
    (settle fuel (s.withEnv { s.env with inputs := stimulusInputs s c, answers := answers })).map
      (fun t => { r with machine := t })

/-- A whole script. -/
def runScript (fuel : Nat) (answers : List Bool) : List Stimulus → ScriptRun → Option ScriptRun
  | [], r => some r
  | c :: cs, r =>
    match runStimulus fuel answers r c with
    | some r' => runScript fuel answers cs r'
    | none => none

end Sys2Proof.Machine
end

