-- ==== Sys2Proof/Tests/Slice0.lean ====
section
/-! SUPPORT. The model's own tests, each about one operation or one step. A byte sequence is written out from spec/: the vector
named in the comment (95_test_vectors.md), or 30_encoding.md R140 and R147 by hand, with CRC fields of zeros where the CRC is
not checked. The theorems `witness_<statement>` give a state and operands that meet every hypothesis of a statement, at the
boundaries of its clauses. -/

namespace Sys2Proof.Tests

open Sys2Proof Sys2Proof.Machine

set_option Elab.async false

/-! ### Helpers -/

/-- A registered channel with a teardown hook. -/
def chan (id : Byte) (flags : BitVec 6) (ops : BitVec 13) : Descriptor := ⟨id, flags, [], ops, ⟨0, true⟩⟩

/-- The transport of 95_test_vectors.md: PHYSICAL, with read, write, size and is-active. -/
def transport : Descriptor := chan 0 0b010000 0b0100011010000

/-- An initialised block under EX with the transport at id 0, a LOCKABLE channel 1 with every operation, a channel 2 with none,
and these answers of the environment. -/
def ready (answers : List Bool) : State :=
  let t := initBlock Config.exampleCfg State.reset
  { t with
    reg := ⟨[some transport, some (chan 1 0b000100 0x1FFF), some (chan 2 0 0), none, none, none, none, none],
      List.replicate 8 none⟩
    env := ⟨[], answers, 0, []⟩ }

/-- `s` with these bytes in the buffer, in this framing state. -/
def holding (bs : List Byte) (fs : FramingState) (s : State) : State :=
  { s with
    sb := ⟨Memory.writeBytes [] 0 bs, 0, bs.length, bs.length, 0⟩
    ctx := { s.ctx with state := fs } }

/-- `s` with another expected sequence number. -/
def atSeq (n : Byte) (s : State) : State := { s with ctx := { s.ctx with seq := n } }

/-- `s` with the payload and header CRC checks off. -/
def noCrc (s : State) : State := { s with ctx := { s.ctx with cfg := { s.ctx.cfg with crcEn := false } } }

/-- `s` while it waits for the ACK of a POLL on channel 2 with sequence 0 (the "wait" of 95_test_vectors.md 2.5). -/
def waiting (s : State) : State :=
  { s with ctx := { waitingCtx s.ctx (makePkt s.par 0 2 0x08 0x21 []) with seq := 1 } }

/-- `s` with these bytes in a buffer of 16 (95_test_vectors.md 2.1), the readable ones from `rd` on. -/
def small (rd : Nat) (bs : List Byte) (claimLen : Nat) (s : State) : State :=
  { s with
    par := { s.par with cap := 16 }
    sb := ⟨Memory.writeBytes [] rd bs, rd, rd + bs.length, bs.length, claimLen⟩ }

/-- The next state, if there is one. -/
def nextOf : Host.Outcome State Fault Refusal → Option State
  | .next t => some t
  | _ => none

/-- The fault, if there is one. -/
def faultOf : Host.Outcome State Fault Refusal → Option Fault
  | .fault f => some f
  | _ => none

/-- The cursors (rd, wr, used, claim_len) of 95_test_vectors.md 2.1. -/
def cursors (s : State) : Nat × Nat × Nat × Nat := (s.sb.rd, s.sb.wr, s.sb.used, s.sb.claimLen)

/-- What a step puts on the ports, and the sequence number after it. -/
def effect (r : Host.Outcome State Fault Refusal) : Option (List Output × Byte) :=
  (nextOf r).map (fun t => (t.env.outputs, t.ctx.seq))

theorem next_with {r : Host.Outcome State Fault Refusal} {P : State → Bool} (h : (nextOf r).any P = true) :
    ∃ t, r = .next t ∧ P t = true := by
  cases r <;> first | exact ⟨_, rfl, h⟩ | cases h

theorem bufferValid_of {cap : Nat} {x : StagingBuffer}
    (h : x.rd + x.used = x.wr ∧ x.wr + x.claimLen ≤ cap ∧ (x.used = 0 → x.rd = 0 ∧ x.wr = 0) ∧ Memory.wf x.bytes = true ∧
      (∀ c ∈ x.bytes, c.1 < cap) ∧ ∀ i ∈ List.range x.wr, x.rd ≤ i → (Memory.read x.bytes i).isSome = true) :
    BufferValid cap x :=
  ⟨h.1, h.2.1, h.2.2.1, h.2.2.2.1, h.2.2.2.2.1, fun i hi hj => h.2.2.2.2.2 i (List.mem_range.mpr hj) hi⟩

theorem registryValid_of {p : Config.Params} {r : Registry}
    (h : r.slots.length = p.nch ∧ r.lastLock.length = p.nch ∧
      ∀ i ∈ List.range r.slots.length, (r.slots[i]?).join.all (fun d => d.id.toNat == i && d.name.length ≤ p.nameMax) = true) :
    RegistryValid p r := by
  refine ⟨h.1, h.2.1, fun i d hd => ?_⟩
  have hi : i < r.slots.length := by
    by_contra hn; rw [List.getElem?_eq_none (by omega)] at hd; cases hd
  have := h.2.2 i (List.mem_range.mpr hi)
  rw [hd] at this
  simpa using this

theorem ready_transport (rest : List Bool) : TransportTakes (ready (true :: true :: rest)) rest := ⟨by rfl, rfl⟩

/-- The three ways a transport does not take a packet: there is none, it is not active, its write fails. -/
theorem ready_fails (bs : List Byte) :
    TransportFails { ready [] with reg := freshRegistry 8 } bs (ready []).env ∧ TransportFails (ready [false]) bs (ready []).env ∧
      TransportFails (ready [true, false]) bs { (ready []).env with outputs := [.tWrite bs false] } :=
  ⟨.inl ⟨rfl, rfl⟩, .inr ⟨rfl, .inl ⟨[], rfl, rfl⟩⟩, .inr ⟨rfl, .inr ⟨[], rfl, rfl⟩⟩⟩

/-- With the registry, the parameters and the answers of `s`, one write ends, whatever is written and whatever else holds. -/
def Writes (s : State) : Prop :=
  ∀ (b : StagingBuffer) (c : Ctx) (os : List Output) (bs : List Byte),
    ∃ t, WriteEnds { s with sb := b, ctx := c, env := { s.env with outputs := os } } bs t

theorem writes_of {s : State} (hf : (findTransport s).isSome = true)
    (ha : s.env.answers = [true, true] ∨ s.env.answers = [false] ∨ s.env.answers = [true, false]) : Writes s := by
  intro b c os bs
  rcases ha with ha | ha | ha
  · exact ⟨_, .inl ⟨[], ⟨hf, ha⟩, rfl⟩⟩
  · exact ⟨_, .inr ⟨_, .inr ⟨hf, .inl ⟨[], ha, rfl⟩⟩, rfl⟩⟩
  · exact ⟨_, .inr ⟨_, .inr ⟨hf, .inr ⟨[], ha, rfl⟩⟩, rfl⟩⟩

/-- A write is taken, meets a transport that is not active, fails, or finds no transport. -/
theorem ready_writes :
    Writes (ready [true, true]) ∧ Writes (ready [false]) ∧ Writes (ready [true, false]) ∧
      Writes { ready [] with reg := freshRegistry 8 } :=
  ⟨writes_of rfl (.inl rfl), writes_of rfl (.inr (.inl rfl)), writes_of rfl (.inr (.inr rfl)),
    fun _ _ _ _ => ⟨_, .inr ⟨_, .inl ⟨rfl, rfl⟩, rfl⟩⟩⟩

theorem ready_registry (a : List Bool) : RegistryValid (ready a).par (ready a).reg :=
  (registryValid_of (by decide) : RegistryValid (ready []).par (ready []).reg)

theorem example_cfg_valid : CfgValid 512 Config.exampleCfg := ⟨by decide, by decide, by decide⟩

theorem example_params_valid : ParamsValid Config.exampleParams :=
  ⟨by decide, by decide, by decide, by decide, by decide, by decide⟩

theorem ready_live (a : List Bool) : Live (ready a) :=
  ⟨freshBuffer_valid _, example_cfg_valid, example_cfg_valid, WaitValid.ended rfl rfl rfl rfl rfl rfl rfl,
    ScanValid.zero rfl, ready_registry a⟩

theorem ready_inv (a : List Bool) : Inv (ready a) :=
  ⟨example_params_valid, fun _ => ready_live a⟩

theorem waiting_live (bs : List Byte) (a : List Bool)
    (hb : BufferValid 512 ⟨Memory.writeBytes [] 0 bs, 0, bs.length, bs.length, 0⟩) :
    Live (holding bs .waitAck (waiting (ready a))) :=
  ⟨hb, example_cfg_valid, example_cfg_valid,
    ⟨⟨fun _ => rfl, fun _ => rfl⟩, fun _ => (by decide : 1#32 ≤ 100#32), fun _ => ⟨_, rfl, (by decide : 0 ≤ 242)⟩,
      (fun h => by cases h), (fun _ h => by cases h)⟩,
    ScanValid.zero rfl, ready_registry a⟩

/-! ### WellFormed refuses -/

/-- A payload of 65536 bytes has no length (30_encoding.md R140). -/
theorem test_illFormed_length : (Instr.write 0 ⟨0, 1, 0, List.replicate 65536 0, 0⟩).wellFormed = false := by
  show (decide ((List.replicate 65536 (0 : Byte)).length < 65536) && _) = false
  rw [List.length_replicate]; rfl

/-- A packet without payload has no payload CRC field (30_encoding.md R142). -/
theorem test_illFormed_crc : (Instr.poll 0 ⟨0, 1, 0, [], 1⟩).wellFormed = false := by decide

/-! ### Decoding: each instruction from a packet written out byte by byte -/

/-- SYNC s7. -/
theorem test_decode_sync :
    decode [0xAA, 0xD5, 0x07, 0x00, 0x00, 0x00, 0x00, 0x00, 0x23, 0xD6]
      = .ok (.sync 0 ⟨0x07, 0, 0xD623, [], 0⟩, []) := by decide +kernel

/-- GET_CAPS s1. -/
theorem test_decode_getCaps :
    decode [0xAA, 0xD5, 0x01, 0x00, 0x00, 0x01, 0x00, 0x00, 0xF2, 0x6C]
      = .ok (.getCaps 0 ⟨0x01, 0, 0x6CF2, [], 0⟩, []) := by decide +kernel

/-- P1, SET_CAPS s1. -/
theorem test_decode_setCaps :
    decode [0xAA, 0xD5, 0x01, 0x00, 0x00, 0x02, 0x10, 0x00, 0xD1, 0x36, 0x0F, 0x00, 0x00, 0x00, 0x32, 0x00, 0x00, 0x00, 0x00, 0x00, 0x00, 0x00, 0x00, 0x00, 0x00, 0x00, 0xF4, 0x84, 0x43, 0x9A]
      = .ok (.setCaps 0 ⟨0x01, 0, 0x36D1, [0x0F, 0, 0, 0, 0x32, 0, 0, 0, 0, 0, 0, 0, 0, 0, 0, 0], 0x9A4384F4⟩, []) := by decide +kernel

/-- P1, STATS s2. -/
theorem test_decode_stats :
    decode [0xAA, 0xD5, 0x02, 0x00, 0x00, 0x03, 0x00, 0x00, 0x72, 0xCC]
      = .ok (.stats 0 ⟨0x02, 0, 0xCC72, [], 0⟩, []) := by decide +kernel

/-- OP-11. -/
theorem test_decode_version :
    decode [0xAA, 0xD5, 0x04, 0x00, 0x00, 0x04, 0x00, 0x00, 0x03, 0xC4]
      = .ok (.version 0 ⟨0x04, 0, 0xC403, [], 0⟩, []) := by decide +kernel

/-- OP-12. -/
theorem test_decode_reset :
    decode [0xAA, 0xD5, 0x00, 0x00, 0x00, 0x10, 0x00, 0x00, 0x01, 0x5D]
      = .ok (.reset 0 ⟨0, 0, 0x5D01, [], 0⟩, []) := by decide +kernel

/-- by hand; RTX and both unnamed flag bits set. -/
theorem test_decode_enterBootloader :
    decode [0xAA, 0xD5, 0xFF, 0x00, 0xC4, 0x11, 0x00, 0x00, 0x34, 0x12]
      = .ok (.enterBootloader 0b110001 ⟨0xFF, 0, 0x1234, [], 0⟩, []) := by decide +kernel

/-- by hand; ACK_REQUIRED set, one payload byte. -/
theorem test_decode_systemInfo :
    decode [0xAA, 0xD5, 0x09, 0x00, 0x08, 0x12, 0x01, 0x00, 0x78, 0x56, 0xEE, 0x04, 0x03, 0x02, 0x01]
      = .ok (.systemInfo 0b000010 ⟨0x09, 0, 0x5678, [0xEE], 0x01020304⟩, []) := by decide +kernel

/-- OP-13; EVENT set. -/
theorem test_decode_systemEvent :
    decode [0xAA, 0xD5, 0x00, 0x00, 0x20, 0x13, 0x01, 0x00, 0x2E, 0x00, 0x01, 0x1B, 0xDF, 0x05, 0xA5]
      = .ok (.systemEvent 0b001000 ⟨0, 0, 0x002E, [0x01], 0xA505DF1B⟩, []) := by decide +kernel

/-- OP-14. -/
theorem test_decode_list :
    decode [0xAA, 0xD5, 0x00, 0x09, 0x00, 0x20, 0x00, 0x00, 0xD8, 0x30]
      = .ok (.list 0 ⟨0, 9, 0x30D8, [], 0⟩, []) := by decide +kernel

/-- POLL ch2 s0; ACK_REQUIRED set. -/
theorem test_decode_poll :
    decode [0xAA, 0xD5, 0x00, 0x02, 0x08, 0x21, 0x00, 0x00, 0xD4, 0x6E]
      = .ok (.poll 0b000010 ⟨0, 2, 0x6ED4, [], 0⟩, []) := by decide +kernel

/-- P6, LOCK ch3 s2. -/
theorem test_decode_lock :
    decode [0xAA, 0xD5, 0x02, 0x03, 0x00, 0x22, 0x00, 0x00, 0x56, 0x93]
      = .ok (.lock 0 ⟨2, 3, 0x9356, [], 0⟩, []) := by decide +kernel

/-- by hand. -/
theorem test_decode_unlock :
    decode [0xAA, 0xD5, 0x80, 0xFF, 0x00, 0x23, 0x00, 0x00, 0x01, 0x80]
      = .ok (.unlock 0 ⟨0x80, 0xFF, 0x8001, [], 0⟩, []) := by decide +kernel

/-- by hand; FRAGMENT set. -/
theorem test_decode_shape :
    decode [0xAA, 0xD5, 0x10, 0x05, 0x10, 0x24, 0x00, 0x00, 0x0D, 0xF0]
      = .ok (.shape 0b000100 ⟨0x10, 5, 0xF00D, [], 0⟩, []) := by decide +kernel

/-- by hand; RTX set. -/
theorem test_decode_size :
    decode [0xAA, 0xD5, 0x11, 0x06, 0x04, 0x25, 0x00, 0x00, 0x02, 0x01]
      = .ok (.size 0b000001 ⟨0x11, 6, 0x0102, [], 0⟩, []) := by decide +kernel

/-- P6, READ ch1 s1. -/
theorem test_decode_read :
    decode [0xAA, 0xD5, 0x01, 0x01, 0x00, 0x26, 0x02, 0x00, 0x97, 0xA3, 0x78, 0x00, 0x01, 0xE1, 0x3F, 0xA6]
      = .ok (.read 0 ⟨1, 1, 0xA397, [0x78, 0], 0xA63FE101⟩, []) := by decide +kernel

/-- PC-2. -/
theorem test_decode_write :
    decode [0xAA, 0xD5, 0x02, 0x01, 0x00, 0x27, 0x02, 0x00, 0x47, 0x5A, 0x61, 0x62, 0x6D, 0x48, 0x83, 0x9E]
      = .ok (.write 0 ⟨2, 1, 0x5A47, [0x61, 0x62], 0x9E83486D⟩, []) := by decide +kernel

/-- by hand; bit 6 of the flags set. -/
theorem test_decode_ioctl :
    decode [0xAA, 0xD5, 0x12, 0x07, 0x40, 0x28, 0x03, 0x00, 0xAD, 0xDE, 0x01, 0x02, 0x03, 0xEF, 0xBE, 0xAD, 0xDE]
      = .ok (.ioctl 0b010000 ⟨0x12, 7, 0xDEAD, [1, 2, 3], 0xDEADBEEF⟩, []) := by decide +kernel

/-- OP-15. -/
theorem test_decode_event :
    decode [0xAA, 0xD5, 0x00, 0x06, 0x00, 0x29, 0x01, 0x00, 0x81, 0xF8, 0x01, 0x1B, 0xDF, 0x05, 0xA5]
      = .ok (.event 0 ⟨0, 6, 0xF881, [0x01], 0xA505DF1B⟩, []) := by decide +kernel

/-- ACK SYNC s9: an ACK carries any opcode. -/
theorem test_decode_ack :
    decode [0xAA, 0xD5, 0x09, 0x00, 0x01, 0x00, 0x00, 0x00, 0x34, 0x20]
      = .ok (.ack 0x00 0 ⟨9, 0, 0x2034, [], 0⟩, []) := by decide +kernel

/-- RD-13: NAK takes precedence over ACK. -/
theorem test_decode_nak :
    decode [0xAA, 0xD5, 0x00, 0x02, 0x03, 0x21, 0x02, 0x00, 0xA9, 0x16, 0x04, 0x00, 0xFB, 0xD7, 0xB5, 0x25]
      = .ok (.nak 0x21 true 0 ⟨0, 2, 0x16A9, [4, 0], 0x25B5D7FB⟩, []) := by decide +kernel

/-- What the decoder refuses, by name: fewer than ten bytes (FS-7), no sync word, a packet cut short, an opcode of
30_encoding.md R150 (FS-12). -/
theorem test_decode_refuses :
    decode [0xAA, 0xD5, 0x00, 0x00, 0x00, 0x01, 0x00, 0x00] = .error .shortHeader ∧
      decode [0xAB, 0xD5, 0, 0, 0, 0, 0, 0, 0x62, 0x1E] = .error .noSyncWord ∧
      decode [0xAA, 0xD5, 0x00, 0x01, 0x00, 0x27, 0x04, 0x00, 0xA1, 0x7B, 0x41, 0x42] = .error .incomplete ∧
      decode [0xAA, 0xD5, 0x01, 0x00, 0x00, 0x05, 0x00, 0x00, 0x32, 0xB0] = .error (.undefinedOpcode 0x05) := by
  decide +kernel

/-- The rows of spec/opcode_table.json by their match values. -/
theorem test_decodeTableWord :
    let f : Frame := ⟨0, 0, 0, [], 0⟩
    [0x0000, 0x0001, 0x0002, 0x0003, 0x0004, 0x0010, 0x0011, 0x0012, 0x0013, 0x0020, 0x0021, 0x0022, 0x0023, 0x0024, 0x0025,
        0x0026, 0x0027, 0x0028, 0x0029, 0x0100, 0x0200].map (decodeTableWord 16)
      = [.sync 0 f, .getCaps 0 f, .setCaps 0 f, .stats 0 f, .version 0 f, .reset 0 f, .enterBootloader 0 f, .systemInfo 0 f,
          .systemEvent 0 f, .list 0 f, .poll 0 f, .lock 0 f, .unlock 0 f, .shape 0 f, .size 0 f, .read 0 f, .write 0 f,
          .ioctl 0 f, .event 0 f, .ack 0 0 f, .nak 0 false 0 f].map some := by decide +kernel

/-- `withFetchWord` puts the packet where the very next step runs it: a RESET is delivered (R510). -/
theorem test_withFetchWord :
    effect (step (State.reset.withFetchWord 16 0x0010))
      = some ([.deliver ⟨⟨0, 0, 0, 0x10, 0, 0⟩, []⟩], 1) := by decide +kernel

/-! ### CRC and codec -/

/-- The check values of 93_implementation_defined.md section 6, for "123456789". -/
theorem test_crc_check :
    crc16CcittFalse [0x31, 0x32, 0x33, 0x34, 0x35, 0x36, 0x37, 0x38, 0x39] = 0x29B1 ∧
      crc32IsoHdlc [0x31, 0x32, 0x33, 0x34, 0x35, 0x36, 0x37, 0x38, 0x39] = 0xCBF43926 := by decide +kernel

/-- PC-1, PC-2, PC-4. -/
theorem test_build :
    buildHeader Config.exampleParams 0 0 0 0 0 = [0xAA, 0xD5, 0, 0, 0, 0, 0, 0, 0x62, 0x1E] ∧
      buildPacket Config.exampleParams 2 1 0 0x27 [0x61, 0x62]
        = [0xAA, 0xD5, 0x02, 0x01, 0x00, 0x27, 0x02, 0x00, 0x47, 0x5A, 0x61, 0x62, 0x6D, 0x48, 0x83, 0x9E] ∧
      buildPacket Config.exampleParams 0 0 0x01 0 [] = [0xAA, 0xD5, 0, 0, 1, 0, 0, 0, 0xD6, 0x68] := by decide +kernel

/-- PC-5, PC-6, PC-9. -/
theorem test_verify :
    verifyHeaderCrc Config.exampleParams true [0xAA, 0xD5, 1, 0, 0, 0, 0, 0, 0x62, 0x1E] = false ∧
      verifyHeaderCrc Config.exampleParams false [0xAA, 0xD5, 1, 0, 0, 0, 0, 0, 0x62, 0x1E] = true ∧
      verifyPayloadCrc Config.exampleParams true [0xAA, 0xD5, 0x02, 0x01, 0x00, 0x27, 0x02, 0x00, 0x47, 0x5A]
        [0x61, 0x62, 0x6D, 0x48, 0x83, 0x9F] = false := by decide +kernel

/-- PC-10, PC-11. -/
theorem test_size_rtx :
    [0, 1, 2, 16, 242].map packetTotalSize = [10, 15, 16, 30, 256] ∧
      markRtx Config.exampleParams [0xAA, 0xD5, 0x03, 0x02, 0x08, 0x21, 0, 0, 0x34, 0xA0]
        = [0xAA, 0xD5, 0x03, 0x02, 0x0C, 0x21, 0, 0, 0xC5, 0x6A] := by decide +kernel

/-! ### The instructions: one step from PAYLOAD, or from WAIT_ACK -/

/-- OP-1: the reset clears `ctx.seq`; the channel has an unlock hook (R702). -/
theorem test_sync :
    effect (step (holding [0xAA, 0xD5, 0x07, 0x00, 0x00, 0x00, 0x00, 0x00, 0x23, 0xD6] .payload (atSeq 5 (ready [true, true]))))
      = some ([.hookUnlock 1, .tWrite [0xAA, 0xD5, 0x07, 0x00, 0x01, 0x00, 0x00, 0x00, 0x97, 0xA0] true], 0) := by decide +kernel

/-- FS-17: a SYNC on channel 1 is rejected with INVALID and resets nothing. -/
theorem test_sync_channel :
    effect (step (holding [0xAA, 0xD5, 0x00, 0x01, 0x00, 0x00, 0x00, 0x00, 0x33, 0xB4] .payload (atSeq 5 (ready [true, true]))))
      = some ([.tWrite [0xAA, 0xD5, 0x00, 0x01, 0x02, 0x00, 0x02, 0x00, 0x39, 0x3F, 0x02, 0x00, 0x7D, 0x70, 0xEF, 0x73] true], 5) := by decide +kernel

/-- OP-2. -/
theorem test_getCaps :
    effect (step (holding [0xAA, 0xD5, 0x00, 0x00, 0x00, 0x01, 0x00, 0x00, 0x52, 0x29] .payload (ready [true, true])))
      = some ([.tWrite [0xAA, 0xD5, 0x00, 0x00, 0x01, 0x01, 0x10, 0x00, 0x95, 0x5C, 0x0F, 0x00, 0x00, 0x00, 0xF2, 0x00, 0x00, 0x00, 0x00, 0x00, 0x00, 0x00, 0x00, 0x00, 0x00, 0x00, 0xE4, 0x5C, 0xE7, 0xCA] true], 1) := by decide +kernel

/-- OP-3. -/
theorem test_setCaps :
    effect (step (holding [0xAA, 0xD5, 0x01, 0x00, 0x00, 0x02, 0x10, 0x00, 0xD1, 0x36, 0x0F, 0x00, 0x00, 0x00, 0x32, 0x00, 0x00, 0x00, 0x00, 0x00, 0x00, 0x00, 0x00, 0x00, 0x00, 0x00, 0xF4, 0x84, 0x43, 0x9A] .payload (atSeq 1 (ready [true, true]))))
      = some ([.tWrite [0xAA, 0xD5, 0x01, 0x00, 0x01, 0x02, 0x00, 0x00, 0x16, 0x43] true], 2) := by decide +kernel

/-- OP-4: 49 is below the minimum; the sequence number advances. -/
theorem test_setCaps_small :
    effect (step (holding [0xAA, 0xD5, 0x01, 0x00, 0x00, 0x02, 0x10, 0x00, 0xD1, 0x36, 0x0F, 0x00, 0x00, 0x00, 0x31, 0x00, 0x00, 0x00, 0x00, 0x00, 0x00, 0x00, 0x00, 0x00, 0x00, 0x00, 0x04, 0x56, 0xDD, 0xED] .payload (atSeq 1 (ready [true, true]))))
      = some ([.tWrite [0xAA, 0xD5, 0x01, 0x00, 0x02, 0x02, 0x02, 0x00, 0xA8, 0xBE, 0x02, 0x00, 0x7D, 0x70, 0xEF, 0x73] true], 2) := by decide +kernel

/-- OP-10: the request is counted, the response is not. -/
theorem test_stats :
    effect (step (holding [0xAA, 0xD5, 0x00, 0x00, 0x00, 0x03, 0x00, 0x00, 0x32, 0x47] .payload (ready [true, true])))
      = some ([.tWrite [0xAA, 0xD5, 0x00, 0x00, 0x01, 0x03, 0x1C, 0x00, 0x98, 0x77, 0x00, 0x00, 0x00, 0x00, 0x01, 0x00, 0x00, 0x00, 0x00, 0x00, 0x00, 0x00, 0x00, 0x00, 0x00, 0x00, 0x00, 0x00, 0x00, 0x00, 0x00, 0x00, 0x00, 0x00, 0x00, 0x00, 0x00, 0x00, 0xCE, 0x12, 0x55, 0x01] true], 1) := by decide +kernel

/-- OP-11. -/
theorem test_version :
    effect (step (holding [0xAA, 0xD5, 0x04, 0x00, 0x00, 0x04, 0x00, 0x00, 0x03, 0xC4] .payload (atSeq 4 (ready [true, true]))))
      = some ([.tWrite [0xAA, 0xD5, 0x04, 0x00, 0x01, 0x04, 0x03, 0x00, 0xE4, 0xE7, 0x01, 0x00, 0x00, 0x25, 0xB3, 0x83, 0xFE] true], 5) := by decide +kernel

/-- OP-12. -/
theorem test_reset :
    effect (step (holding [0xAA, 0xD5, 0x00, 0x00, 0x00, 0x10, 0x00, 0x00, 0x01, 0x5D] .payload (ready [true, true])))
      = some ([.deliver ⟨⟨0, 0, 0, 0x10, 0, 0x5D01⟩, []⟩], 1) := by decide +kernel

/-- by hand (R511), without CRC checks; the sequence number wraps. -/
theorem test_enterBootloader :
    effect (step (holding [0xAA, 0xD5, 0xFF, 0x00, 0xC4, 0x11, 0x00, 0x00, 0x34, 0x12] .payload (noCrc (atSeq 255 (ready [true, true])))))
      = some ([.deliver ⟨⟨0xFF, 0, 0xC4, 0x11, 0, 0x1234⟩, []⟩], 0) := by decide +kernel

/-- by hand (R512), without CRC checks. -/
theorem test_systemInfo :
    effect (step (holding [0xAA, 0xD5, 0x09, 0x00, 0x08, 0x12, 0x01, 0x00, 0x78, 0x56, 0xEE, 0x04, 0x03, 0x02, 0x01] .payload (noCrc (atSeq 9 (ready [true, true])))))
      = some ([.deliver ⟨⟨9, 0, 0x08, 0x12, 1, 0x5678⟩, [0xEE]⟩], 10) := by decide +kernel

/-- OP-13: no sequence advance. -/
theorem test_systemEvent :
    effect (step (holding [0xAA, 0xD5, 0x00, 0x00, 0x20, 0x13, 0x01, 0x00, 0x2E, 0x00, 0x01, 0x1B, 0xDF, 0x05, 0xA5] .payload (ready [true, true])))
      = some ([.deliver ⟨⟨0, 0, 0x20, 0x13, 1, 0x002E⟩, [1]⟩], 0) := by decide +kernel

/-- OP-14: LIST makes no lookup. -/
theorem test_list :
    effect (step (holding [0xAA, 0xD5, 0x00, 0x09, 0x00, 0x20, 0x00, 0x00, 0xD8, 0x30] .payload (ready [true, true])))
      = some ([.deliver ⟨⟨0, 9, 0, 0x20, 0, 0x30D8⟩, []⟩], 1) := by decide +kernel

/-- FS-15: channel 2 has no poll operation. -/
theorem test_poll_missing :
    effect (step (holding [0xAA, 0xD5, 0x03, 0x02, 0x08, 0x21, 0x00, 0x00, 0x34, 0xA0] .payload (atSeq 3 (ready [true, true]))))
      = some ([.tWrite [0xAA, 0xD5, 0x03, 0x02, 0x02, 0x21, 0x02, 0x00, 0xFD, 0xAE, 0x02, 0x00, 0x7D, 0x70, 0xEF, 0x73] true], 3) := by decide +kernel

/-- by hand (45_opcodes.md), without CRC checks. -/
theorem test_poll :
    effect (step (holding [0xAA, 0xD5, 0x00, 0x01, 0x00, 0x21, 0x00, 0x00, 0x00, 0x00] .payload (noCrc (ready [true, true]))))
      = some ([.deliver ⟨⟨0, 1, 0, 0x21, 0, 0⟩, []⟩], 1) := by decide +kernel

/-- by hand (45_opcodes.md), without CRC checks. -/
theorem test_unlock :
    effect (step (holding [0xAA, 0xD5, 0x00, 0x01, 0x00, 0x23, 0x00, 0x00, 0x00, 0x00] .payload (noCrc (ready [true, true]))))
      = some ([.deliver ⟨⟨0, 1, 0, 0x23, 0, 0⟩, []⟩], 1) := by decide +kernel

/-- by hand (45_opcodes.md), without CRC checks. -/
theorem test_shape :
    effect (step (holding [0xAA, 0xD5, 0x00, 0x01, 0x00, 0x24, 0x00, 0x00, 0x00, 0x00] .payload (noCrc (ready [true, true]))))
      = some ([.deliver ⟨⟨0, 1, 0, 0x24, 0, 0⟩, []⟩], 1) := by decide +kernel

/-- by hand (45_opcodes.md), without CRC checks. -/
theorem test_size :
    effect (step (holding [0xAA, 0xD5, 0x00, 0x01, 0x00, 0x25, 0x00, 0x00, 0x00, 0x00] .payload (noCrc (ready [true, true]))))
      = some ([.deliver ⟨⟨0, 1, 0, 0x25, 0, 0⟩, []⟩], 1) := by decide +kernel

/-- by hand (45_opcodes.md), without CRC checks. -/
theorem test_ioctl :
    effect (step (holding [0xAA, 0xD5, 0x00, 0x01, 0x00, 0x28, 0x00, 0x00, 0x00, 0x00] .payload (noCrc (ready [true, true]))))
      = some ([.deliver ⟨⟨0, 1, 0, 0x28, 0, 0⟩, []⟩], 1) := by decide +kernel

/-- P6: READ ch1 s1. -/
theorem test_read :
    effect (step (holding [0xAA, 0xD5, 0x01, 0x01, 0x00, 0x26, 0x02, 0x00, 0x97, 0xA3, 0x78, 0x00, 0x01, 0xE1, 0x3F, 0xA6] .payload (atSeq 1 (ready [true, true]))))
      = some ([.deliver ⟨⟨1, 1, 0, 0x26, 2, 0xA397⟩, [0x78, 0]⟩], 2) := by decide +kernel

/-- OP-17. -/
theorem test_write :
    effect (step (holding [0xAA, 0xD5, 0x02, 0x01, 0x00, 0x27, 0x02, 0x00, 0x47, 0x5A, 0x61, 0x62, 0x6D, 0x48, 0x83, 0x9E] .payload (atSeq 2 (ready [true, true]))))
      = some ([.deliver ⟨⟨2, 1, 0, 0x27, 2, 0x5A47⟩, [0x61, 0x62]⟩], 3) := by decide +kernel

/-- FS-10: policy (a). -/
theorem test_write_channel0 :
    effect (step (holding [0xAA, 0xD5, 0x02, 0x00, 0x00, 0x27, 0x02, 0x00, 0x16, 0xF0, 0x61, 0x62, 0x6D, 0x48, 0x83, 0x9E] .payload (atSeq 2 (ready [true, true]))))
      = some ([.tWrite [0xAA, 0xD5, 0x02, 0x00, 0x02, 0x27, 0x02, 0x00, 0x7E, 0x1D, 0x02, 0x00, 0x7D, 0x70, 0xEF, 0x73] true], 2) := by decide +kernel

/-- OP-16: the channel needs no operation; no sequence advance. -/
theorem test_event :
    effect (step (holding [0xAA, 0xD5, 0x00, 0x02, 0x00, 0x29, 0x01, 0x00, 0x00, 0x00, 0x01, 0x1B, 0xDF, 0x05, 0xA5] .payload (noCrc (ready [true, true]))))
      = some ([.deliver ⟨⟨0, 2, 0, 0x29, 1, 0⟩, [1]⟩], 0) := by decide +kernel

/-- OP-15. -/
theorem test_event_unregistered :
    effect (step (holding [0xAA, 0xD5, 0x00, 0x06, 0x00, 0x29, 0x01, 0x00, 0x81, 0xF8, 0x01, 0x1B, 0xDF, 0x05, 0xA5] .payload (ready [true, true])))
      = some ([.tWrite [0xAA, 0xD5, 0x00, 0x06, 0x02, 0x29, 0x02, 0x00, 0xBA, 0x40, 0x02, 0x00, 0x7D, 0x70, 0xEF, 0x73] true], 0) := by decide +kernel

/-- LOCK (R532, R374): delivered at `now` = 10 with the last LOCK at 0, and the time kept. -/
theorem test_lock :
    let s := ready [true, true]
    let t := { s with
      reg := { s.reg with lastLock := s.reg.lastLock.set 1 (some 0) }, ctx := { s.ctx with now := 10 } }
    (nextOf (step (holding [0xAA, 0xD5, 0, 1, 0, 0x22, 0, 0, 0, 0] .payload (noCrc t)))).map
        (fun u => (u.env.outputs, lastLock u 1))
      = some ([.deliver ⟨⟨0, 1, 0, 0x22, 0, 0⟩, []⟩], some 10) := by decide +kernel

/-- LOCK at `now` = 9: BUSY, and the time unchanged. -/
theorem test_lock_busy :
    let s := ready [true, true]
    let t := { s with
      reg := { s.reg with lastLock := s.reg.lastLock.set 1 (some 0) }, ctx := { s.ctx with now := 9 } }
    (nextOf (step (holding [0xAA, 0xD5, 0, 1, 0, 0x22, 0, 0, 0, 0] .payload (noCrc t)))).map
        (fun u => (u.env.outputs.map (fun o => match o with | .tWrite x _ => x.drop 10 | _ => []), lastLock u 1, u.ctx.seq))
      = some ([[0x04, 0x00, 0xFB, 0xD7, 0xB5, 0x25]], some 0, 0) := by decide +kernel

/-- RD-9: a matching ACK ends the wait. -/
theorem test_ack :
    (nextOf (step (holding [0xAA, 0xD5, 0x00, 0x02, 0x01, 0x21, 0x00, 0x00, 0xA3, 0x9D] .waitAck (waiting (ready []))))).map
        (fun u => (u.env.outputs, u.ctx.state, u.ctx.stats.received, u.sb.used))
      = some ([.sendResult 0], .sync, 1, 0) := by decide +kernel

/-- FS-16: a stray ACK is counted and dropped. -/
theorem test_ack_stray :
    effect (step (holding [0xAA, 0xD5, 0x00, 0x00, 0x01, 0x01, 0x00, 0x00, 0xE6, 0x5F] .payload (ready [])))
      = some ([], 0) := by decide +kernel

/-- RD-13: ACK and NAK both set, status BUSY. -/
theorem test_nak :
    (nextOf (step (holding [0xAA, 0xD5, 0x00, 0x02, 0x03, 0x21, 0x02, 0x00, 0xA9, 0x16, 0x04, 0x00, 0xFB, 0xD7, 0xB5, 0x25]
        .waitAck (waiting (ready []))))).map (fun u => (u.env.outputs, u.ctx.ackStatus, u.ctx.state))
      = some ([.sendResult 4], 4, .sync) := by decide +kernel

/-- RD-11: a NAK that carries SUCCESS ends the wait with FAILED. -/
theorem test_nak_success :
    (nextOf (step (holding [0xAA, 0xD5, 0x00, 0x02, 0x02, 0x21, 0x02, 0x00, 0x1D, 0x60, 0x00, 0x00, 0xFF, 0x12, 0xD9, 0x41]
        .waitAck (waiting (ready []))))).map (fun u => (u.env.outputs, u.ctx.ackStatus, u.ctx.state))
      = some ([.sendResult 1], 1, .sync) := by decide +kernel

/-! ### Framing -/

/-- FS-4: a bad header CRC. -/
theorem test_header_crc :
    (nextOf (step (holding [0xAA, 0xD5, 0, 0, 0, 1, 0, 0, 0x52, 0x28] .header (ready [true, true])))).map
        (fun u => (u.env.outputs, u.ctx.state, u.sb.used, u.ctx.stats.checksumErrors))
      = some ([.tWrite [0xAA, 0xD5, 0, 0, 2, 1, 2, 0, 0x58, 0xA2, 5, 0, 0xBA, 0xE6, 0xAE, 0x3C] true], .sync, 9, 1) := by
  decide +kernel

/-- FS-5: length 243 exceeds 242; no counter changes. -/
theorem test_header_overflow :
    (nextOf (step (holding [0xAA, 0xD5, 1, 0, 0, 1, 0xF3, 0, 0x60, 0x2A] .header (ready [true, true])))).map
        (fun u => (u.env.outputs, u.ctx.stats.checksumErrors, u.ctx.stats.sequenceErrors))
      = some ([.tWrite [0xAA, 0xD5, 1, 0, 2, 1, 2, 0, 0xF8, 0xE7, 7, 0, 0x38, 0x84, 0x98, 0x0E] true], 0, 0) := by
  decide +kernel

/-- FS-6: sequence 1 where 0 is expected. -/
theorem test_header_sequence :
    (nextOf (step (holding [0xAA, 0xD5, 1, 0, 0, 1, 0, 0, 0xF2, 0x6C] .header (ready [true, true])))).map
        (fun u => (u.env.outputs, u.ctx.seq, u.ctx.stats.sequenceErrors))
      = some ([.tWrite [0xAA, 0xD5, 1, 0, 2, 1, 2, 0, 0xF8, 0xE7, 6, 0, 0x79, 0xB5, 0x83, 0x17] true], 0, 1) := by
  decide +kernel

/-- FS-13: opcode 0x14 on channel 1 is undefined. -/
theorem test_unknown :
    effect (step (holding [0xAA, 0xD5, 1, 1, 0, 0x14, 0, 0, 0x30, 0x6E] .payload (atSeq 1 (ready [true, true]))))
      = some ([.tWrite [0xAA, 0xD5, 1, 1, 2, 0x14, 2, 0, 0x3A, 0xE5, 9, 0, 0xB6, 0xA9, 0x1B, 0x90] true], 1) := by
  decide +kernel

/-- FS-19: the recovery scan of a truncated WRITE stops at offset 11. -/
theorem test_recovery :
    let s := holding [0xAA, 0xD5, 0, 1, 0, 0x27, 4, 0, 0xA1, 0x7B, 0x41, 0x42] .syncRecovery (ready [])
    (nextOf (step { s with ctx := { s.ctx with scanOffset := 1 } })).map (fun u => (u.ctx.state, u.ctx.scanOffset, u.sb.used))
      = some (.syncRecovery, 11, 12) := by decide +kernel

/-- RD-14: the scan skips an ACK of another sequence number whole. -/
theorem test_wait_skip :
    (nextOf (step (holding [0xAA, 0xD5, 1, 2, 1, 0x21, 0, 0, 0x03, 0xD8] .waitAck (waiting (ready []))))).map
        (fun u => (u.ctx.state, u.ctx.scanOffset, u.sb.used, u.env.outputs))
      = some (.waitAck, 10, 10, []) := by decide +kernel

/-! ### Sending -/

/-- RD-2: a send that needs an ACK starts a wait. -/
theorem test_send_wait :
    (nextOf (execPort (.send ⟨2, 0x21, 0, [], true, none⟩) (ready [true, true]))).map
        (fun u => (u.env.outputs, u.ctx.state, u.ctx.seq, u.ctx.retriesLeft, u.ctx.timeoutCur))
      = some ([.tWrite [0xAA, 0xD5, 0, 2, 8, 0x21, 0, 0, 0xD4, 0x6E] true, .returned (.sent .pending)], .waitAck, 1, 3, 100) := by
  decide +kernel

/-- RD-6: an event is exempt and is counted. -/
theorem test_send_event :
    (nextOf (execPort (.send ⟨4, 0x29, 0x20, [9], true, none⟩) (ready [true, true]))).map
        (fun u => (u.env.outputs, u.ctx.seq, u.ctx.stats.eventsSent))
      = some ([.tWrite [0xAA, 0xD5, 0, 4, 0x20, 0x29, 1, 0, 0x4C, 0x8B, 9, 0x29, 0x57, 0xDE, 0xAB] true,
          .returned (.sent .success)], 0, 1) := by decide +kernel

/-- RD-18: the timeout step resends with RTX and doubles the timeout. -/
theorem test_retransmit :
    let s := waiting (ready [true, true])
    (nextOf (step { s with ctx := { s.ctx with elapsed := 100 } })).map
        (fun u => (u.env.outputs, u.ctx.retriesLeft, u.ctx.timeoutCur, u.ctx.elapsed, u.ctx.stats.retransmits))
      = some ([.tWrite [0xAA, 0xD5, 0, 2, 0x0C, 0x21, 0, 0, 0x25, 0xA4] true], 2, 200, 0, 1) := by decide +kernel

/-- CR-6: a dynamic registration takes id 5 and sends the event. -/
theorem test_register_dynamic :
    (nextOf (execPort (.registryRegister ⟨0b000011, none, [], 0b0000011000000, ⟨0, false⟩⟩) (ready [true, true]))).map
        (fun u => (u.env.outputs, (registryFind u 5).map Descriptor.flags))
      = some ([.tWrite [0xAA, 0xD5, 0, 0, 0x20, 0x13, 3, 0, 0x4C, 0x66, 1, 0, 5, 0xAA, 0x47, 0xE9, 0x8E] true,
          .returned (.channelId 5)], some 0b100011) := by decide +kernel

/-- 30_encoding.md R165: script-input is registered at id 1 with WRITE and the operations write and exec; an id that is not
1-4 is no static channel's, nor is script-input with read or text-output with write. -/
theorem test_static_channel :
    (staticSpec ⟨1, [], 0b1000010000000, ⟨0, false⟩⟩).bind (fun d =>
        (nextOf (execPort (.registryRegister d) (initBlock Config.exampleCfg State.reset))).bind (fun u => registryFind u 1))
      = some ⟨1, 0b000010, [], 0b1000010000000, ⟨0, false⟩⟩ ∧
    staticSpec ⟨1, [], 0b1000011000000, ⟨0, false⟩⟩ = none ∧ staticSpec ⟨2, [], 0b0000011000000, ⟨0, false⟩⟩ = none ∧
    staticSpec ⟨0, [], 0, ⟨0, false⟩⟩ = none ∧ staticSpec ⟨5, [], 0, ⟨0, false⟩⟩ = none := by decide +kernel

/-- 70_reset_and_hazards.md R704: a device restart in the middle of a wait, with the transport registered and a packet in the
buffer, is a power-on. -/
theorem test_restart :
    nextOf (step ((holding [0xAA, 0xD5] .waitAck (waiting (ready []))).withInputs [.restart]))
      = some { State.reset with env := (ready []).env } := by decide +kernel

/-! ### The staging buffer (95_test_vectors.md 2.1) -/

/-- SB-6: compaction. -/
theorem test_sb_compact :
    (nextOf (execPort (.sbClaim 6) (small 10 [0x61, 0x62, 0x63, 0x64] 0 (ready [])))).map
        (fun u => (cursors u, readable u, u.env.outputs))
      = some ((0, 4, 4, 6), [0x61, 0x62, 0x63, 0x64], [.returned (.region 4 6)]) := by decide +kernel

/-- SB-7: no compaction. -/
theorem test_sb_tail :
    (nextOf (execPort (.sbClaim 2) (small 10 [0x61, 0x62, 0x63, 0x64] 0 (ready [])))).map (fun u => (cursors u, u.env.outputs))
      = some ((10, 14, 4, 2), [.returned (.region 14 2)]) := by decide +kernel

/-- SB-3: a claim that was filled is committed. -/
theorem test_sb_commit :
    (nextOf (execPort (.sbCommit 3) (fillBytes 0 [1, 2, 3] (small 0 [] 8 (ready []))))).map (fun u => (cursors u, readable u))
      = some ((0, 3, 3, 0), [1, 2, 3]) := by decide +kernel

/-- SB-8, SB-9. -/
theorem test_sb_consume :
    [5, 2].map (fun n => (nextOf (execPort (.sbConsume n) (small 0 [1, 2, 3, 4, 5] 0 (ready [])))).map cursors)
      = [some (0, 0, 0, 0), some (2, 5, 3, 0)] := by decide +kernel

/-! ### Witnesses: a state and operands that meet the hypotheses of each statement -/

/-- A well-formed instruction; the longest payload is the next theorem's. -/
theorem witness_DecodeEncodeRoundTrip :
    (Instr.write 0 ⟨2, 1, 0x5A47, [0x61, 0x62], 0x9E83486D⟩).wellFormed = true ∧
      (Instr.nak 0xFF true 0b111111 ⟨0xFF, 0xFF, 0xFFFF, [], 0⟩).wellFormed = true := by decide

/-- 65535 payload bytes. -/
theorem witness_DecodeEncodeRoundTrip_longest :
    (Instr.read 0 ⟨0, 1, 0, List.replicate 65535 0, 7⟩).wellFormed = true := by
  show (decide ((List.replicate 65535 (0 : Byte)).length < 65536) && (!(List.replicate 65535 (0 : Byte)).isEmpty || _)) = true
  rw [List.length_replicate]; rfl

/-- Bytes that decode, with one byte behind them. -/
theorem witness_DecodedBytesAreTheEncoding :
    decode [0xAA, 0xD5, 0, 9, 0, 0x20, 0, 0, 0xD8, 0x30, 0x55] = .ok (.list 0 ⟨0, 9, 0x30D8, [], 0⟩, [0x55]) := by decide +kernel

/-- A packet of each clause: NAK (with ACK), ACK, the last row, no row. -/
theorem witness_DispatchKeyClassifies :
    let p (fl op : Byte) : Rx := ⟨⟨0, 0, fl, op, 0, 0⟩, [], 0⟩
    classify (p 0x03 0x29) = some (.nak 0x29 true 0 (p 0x03 0x29).frame) ∧ classify (p 0x01 0xFF) = some (.ack 0xFF 0 (p 0 0).frame) ∧
      classify (p 0xFC 0x29) = some (.event 0b111111 (p 0 0).frame) ∧ classify (p 0 0x2A) = none ∧ classify (p 0 0x05) = none := by decide +kernel

/-- Exempt by its flags, by its opcode, and not exempt. -/
theorem witness_ExemptPackets :
    exempt ⟨0, 1, 0x20, 0x27, 0, 0⟩ = true ∧ exempt ⟨0, 0, 0, 0x00, 0, 0⟩ = true ∧ exempt ⟨0, 1, 0x1C, 0x27, 0, 0⟩ = false := by decide +kernel

/-- The reference `crc16`, and a change of the first and of the last byte (95_test_vectors.md 1.1). -/
theorem witness_HeaderRoundTrip :
    DetectsByteChange Config.exampleParams.crc16 ∧ (buildHeader Config.exampleParams 0 0 0 0 0)[0]? ≠ some 0xAB ∧
      (buildHeader Config.exampleParams 0 0 0 0 0)[9]? ≠ some 0x1F := ⟨ccittFalse_detects, by decide +kernel, by decide +kernel⟩

/-- No payload, and the longest. -/
theorem witness_BuiltPacketVerifies :
    ([] : List Byte).length < 65536 ∧ (List.replicate 65535 (0 : Byte)).length < 65536 := by
  rw [List.length_replicate]; decide

/-- SB-6, SB-11, SB-12, and the empty buffer: each clause at its boundary. -/
theorem witness_ClaimResult :
    let s := small 10 [0x61, 0x62, 0x63, 0x64] 0 (ready [])
    let t := small 0 (List.replicate 12 7) 3 (ready [])
    s.ctx.initialised = true ∧ BufferValid s.par.cap s.sb ∧ s.sb.used + 12 = s.par.cap ∧ ¬ 12 ≤ s.par.cap - s.sb.wr ∧
      2 ≤ s.par.cap - s.sb.wr ∧ BufferValid t.par.cap t.sb ∧ s.par.cap < t.sb.used + 5 ∧ t.sb.used + 4 = t.par.cap ∧
      t.ctx.initialised = true := by
  exact ⟨by decide, bufferValid_of (by decide +kernel), by decide, by decide, by decide, bufferValid_of (by decide +kernel),
    by decide, by decide, by decide⟩

/-- SB-17: 4 bytes fit behind 12 of 16, 5 do not. -/
theorem witness_PushAppendsOrIsRefused :
    let t := small 0 (List.replicate 12 7) 0 (ready [])
    t.ctx.initialised = true ∧ BufferValid t.par.cap t.sb ∧ t.sb.used + [1, 2, 3, 4].length ≤ t.par.cap ∧
      ¬ t.sb.used + [1, 2, 3, 4, 5].length ≤ t.par.cap := ⟨by decide, bufferValid_of (by decide +kernel), by decide, by decide⟩

/-- The last 4 bytes of 16, one or all of them filled. -/
theorem witness_ClaimFillCommitAppends :
    let t := small 0 (List.replicate 12 7) 0 (ready [])
    t.ctx.initialised = true ∧ BufferValid t.par.cap t.sb ∧ t.sb.used + 4 ≤ t.par.cap ∧ 0 < ([9] : List Byte).length ∧
      ([9, 8, 7, 6] : List Byte).length ≤ 4 := ⟨by decide, bufferValid_of (by decide +kernel), by decide, by decide, by decide⟩

/-- SB-8, SB-9, SB-10: part, all, one byte too many. -/
theorem witness_ConsumeDropsFront :
    let t := small 0 [1, 2, 3, 4, 5] 0 (ready [])
    t.ctx.initialised = true ∧ ¬ t.sb.used < 5 ∧ 5 = t.sb.used ∧ t.sb.used < 6 ∧
      faultOf (execPort (.sbConsume 6) t) = some .consumeOver := by decide +kernel

/-- An initialised block. -/
theorem witness_ZeroSizeOperations :
    (ready []).ctx.initialised = true := rfl

/-- SB-13 and SB-11. -/
theorem witness_InvalidatedClaimCannotCommit :
    (∃ t, execPort (.sbConsume 1) (small 0 [1, 2, 3] 8 (ready [])) = .next t) ∧
      ∃ t, execPort (.sbClaim 5) (small 0 (List.replicate 12 7) 3 (ready [])) = .next (emit (.returned .none) t) := ⟨⟨_, rfl⟩, ⟨_, rfl⟩⟩

/-- Exactly two readable bytes; an occupied slot, an empty one, and an id of NCH; a transport, and a block without one. -/
theorem witness_ReadsWriteNothing :
    let s := ready []
    (small 0 [1, 2] 0 s).ctx.initialised = true ∧ 2 ≤ (small 0 [1, 2] 0 s).sb.used ∧
      (2 < s.par.nch ∧ s.reg.slots[2]? = some (some (chan 2 0 0))) ∧ s.reg.slots[3]? = some none ∧ ¬ 8 < s.par.nch ∧
      s.reg.slots[0]? = some (some transport) ∧ [4, 6, 7, 11].all transport.ops.getLsbD = true ∧
      (chan 0 0b010000 0b0100011000000).ops.getLsbD 4 = false := by decide

/-- Each fault once, at its boundary; and the operation just inside it completes. -/
theorem witness_FaultsExactlyAsListed :
    [execPort .tick State.reset, execPort (.init Config.exampleCfg) (ready []), execPort .sbPeekU16 (small 0 [1] 0 (ready [])),
        execPort (.sbFill 4 [1]) (small 0 [] 4 (ready [])), execPort (.sbCommit 5) (small 0 [] 4 (ready [])),
        execPort (.sbConsume 2) (small 0 [1] 0 (ready [])), execPort (.registryUnregister 1) (ready []),
        execPort .dispatchDone (ready [])].map faultOf
      = [some .uninit, some .reinit, some .peekShort, some .fillRange, some .commitOver, some .consumeOver, some .unregLive,
          some .dispatchDone] ∧
    [execPort .sbPeekU16 (small 0 [1, 2] 0 (ready [])), execPort (.sbFill 3 [1]) (small 0 [] 4 (ready [])),
        execPort (.sbConsume 1) (small 0 [1] 0 (ready []))].all (fun r => (nextOf r).isSome) = true := by decide +kernel

/-- A channel without an init hook, for a dynamic id. -/
def dynamicSpec : DescriptorSpec := ⟨0b000011, none, [], 0b0000011000000, ⟨0, false⟩⟩

/-- `ready` with the ids 5 and 6, or 5 to 7, taken. -/
def crowded (full : Bool) : State :=
  let s := setSlot 6 (some (chan 6 0 0)) (setSlot 5 (some (chan 5 0 0)) (ready [true, true]))
  if full then setSlot 7 (some (chan 7 0 0)) s else s

/-- The first and the last dynamic id free, and none free. The event is written, or fails in each of the three ways; an init hook
answers yes, with the event written or not, or no; the name is as long as it may be, or one byte longer. -/
theorem witness_DynamicRegistration :
    let d := dynamicSpec
    let s := ready [true, true]
    let u (i : Nat) (t : State) : State :=
      { t with reg := { t.reg with slots := t.reg.slots.set i (some (storedDescriptor d i true)) } }
    (hasCapability d.flags .physical = false ∧ d.staticId = none ∧ d.name.length ≤ s.par.nameMax ∧
        hasOp d.ops .init = false) ∧
      (s.ctx.initialised = true ∧ s.par.nch ≤ 256 ∧ 3 ≤ s.ctx.cfg.maxPayload.toNat ∧ registryFind s 5 = none ∧
        s.ctx.cfg.evtEn = true) ∧
      (registryFind (crowded false) 7 = none ∧ ∀ j, 5 ≤ j → j < 7 → registryFind (crowded false) j ≠ none) ∧
      (∀ i, 5 ≤ i → i < (crowded true).par.nch → registryFind (crowded true) i ≠ none) ∧
      (TransportTakes (u 5 s) [] ∧ TransportTakes (u 7 (crowded false)) [] ∧
        TransportFails (u 5 { ready [] with reg := freshRegistry 8 }) [] (ready []).env ∧
        TransportFails (u 5 (ready [false])) [] (ready []).env ∧
        TransportFails (u 5 (ready [true, false])) [] { (ready []).env with outputs := [.tWrite [] false] }) ∧
      (hasOp 0b0000000000001#13 .init = true ∧ (draw (ready [true, true, true])).1 = true ∧ (draw (ready [false])).1 = false ∧
        TransportTakes (u 5 (draw (ready [true, true, true])).2) [] ∧
        TransportFails (u 5 (draw (ready [true, false])).2) [] (ready []).env) ∧
      (List.replicate 32 (0 : Byte)).length ≤ s.par.nameMax ∧ s.par.nameMax < (List.replicate 33 (0 : Byte)).length := by
  refine ⟨by decide, by decide, ⟨by decide, ?_⟩, ?_, ⟨⟨by decide, rfl⟩, ⟨by decide, rfl⟩, .inl ⟨by decide, rfl⟩,
    .inr ⟨by decide, .inl ⟨[], rfl, rfl⟩⟩, .inr ⟨by decide, .inr ⟨[], rfl, rfl⟩⟩⟩, ⟨by decide, by decide, by decide,
    ⟨by decide, rfl⟩, .inr ⟨by decide, .inl ⟨[], rfl, rfl⟩⟩⟩, by decide, by decide⟩
  · intro j h1 h2; interval_cases j <;> decide
  · intro j h1 h2
    have h3 : j < 8 := h2
    interval_cases j <;> decide

/-- Every clause: id 0 without PHYSICAL, id 8 of 8, an occupied id, a name of 33 bytes, success at id 7, the init hook failing and
succeeding. -/
theorem witness_StaticRegistration :
    let d (fl : BitVec 6) (id : Option Byte) (n : Nat) (ops : BitVec 13) : DescriptorSpec := ⟨fl, id, List.replicate n 0x61, ops, ⟨0, false⟩⟩
    (ready []).ctx.initialised = true ∧ (d 0 (some 7) 0 0).staticId = some 7 ∧
      hasCapability (d 0b010000 none 0 0).flags .physical = true ∧
      [execPort (.registryRegister (d 0 (some 0) 0 0)) (ready []), execPort (.registryRegister (d 0 (some 8) 0 0)) (ready []),
        execPort (.registryRegister (d 0 (some 2) 0 0)) (ready []), execPort (.registryRegister (d 0b010000 none 0 0)) (ready []),
        execPort (.registryRegister (d 0 (some 7) 33 0)) (ready []), execPort (.registryRegister (d 0 (some 7) 32 0)) (ready []),
        execPort (.registryRegister (d 0 (some 7) 0 1)) (ready [false]),
        execPort (.registryRegister (d 0 (some 7) 0 1)) (ready [true])].map (fun r => (nextOf r).map (fun t => t.env.outputs))
      = [some [.returned (.status .invalid)], some [.returned (.status .invalid)], some [.returned (.status .busy)],
          some [.returned (.status .busy)], some [.returned (.status .invalid)], some [.returned (.channelId 7)],
          some [.hookInit 7 false, .returned (.status .failed)], some [.hookInit 7 true, .returned (.channelId 7)]] := by decide +kernel

/-- An initialised block with three channels; also for `DeinitLeavesUninitialised`. -/
theorem witness_DeinitAllTearsDown :
    (ready []).ctx.initialised = true ∧ RegistryValid (ready []).par (ready []).reg ∧
      (waiting (ready [])).ctx.waitForAck = true ∧ RegistryValid (waiting (ready [])).par (waiting (ready [])).reg := ⟨rfl, ready_registry [], rfl, ready_registry []⟩

/-- The same two states, initialised; a restart pending. -/
theorem witness_DeinitLeavesUninitialised :
    (ready []).ctx.initialised = true ∧ (waiting (ready [])).ctx.initialised = true ∧
      RegistryValid (ready []).par (ready []).reg ∧ ((ready []).withInputs [.restart]).env.inputs = .restart :: [] :=
  ⟨rfl, rfl, ready_registry [], rfl⟩

/-- A registration runs while channel 1 stays registered. -/
theorem witness_OccupiedSlotsAreStable :
    let s := (ready [true, true]).withInputs [.port (.registryRegister dynamicSpec)]
    RegistryValid s.par s.reg ∧ s.ctx.initialised = true ∧ Input.port .registryDeinitAll ∉ s.env.inputs ∧
      (registryFind s 1).isSome = true ∧ ∃ t, step s = .next t ∧ t.ctx.initialised = true := ⟨ready_registry [true, true], rfl, by decide, by decide,
    next_with (P := fun t => t.ctx.initialised) (by decide +kernel)⟩

/-- `max_payload` at 50 and at CAP - 14, `base_timeout` 1; a reset with and without a wait. -/
theorem witness_StateAfterInitAndReset :
    State.reset.ctx.initialised = false ∧ 50 ≤ (50 : Half).toNat ∧ (498 : Half).toNat ≤ State.reset.par.cap - 14 ∧
      1 ≤ (1 : Word).toNat ∧ (ready []).ctx.initialised = true ∧ (waiting (ready [])).ctx.waitForAck = true := by decide +kernel

/-- The example configuration is valid; RS-2, RS-3 and RS-4 are not. -/
theorem witness_InitAcceptsExactlyTheValid :
    let c := Config.exampleCfg
    State.reset.ctx.initialised = false ∧
      (50 ≤ c.maxPayload.toNat ∧ c.maxPayload.toNat ≤ State.reset.par.cap - 14 ∧ 1 ≤ c.baseTimeout.toNat) ∧
      [{ c with maxPayload := 49 }, { c with maxPayload := 499 }, { c with baseTimeout := 0 }].all (fun x =>
        decide (¬ (50 ≤ x.maxPayload.toNat ∧ x.maxPayload.toNat ≤ State.reset.par.cap - 14 ∧ 1 ≤ x.baseTimeout.toNat))) = true := by decide +kernel

/-- Waiting, not waiting, and at the saturation. -/
theorem witness_TickAdvancesTime :
    let s := waiting (ready [])
    s.ctx.initialised = true ∧ s.ctx.waitForAck = true ∧ (ready []).ctx.waitForAck = false ∧
      (nextOf (execPort .tick { s with ctx := { s.ctx with elapsed := 0xFFFFFFFF, now := 0xFFFFFFFF } })).map
        (fun t => (t.ctx.elapsed, t.ctx.now)) = some (0xFFFFFFFF, 0) := by decide +kernel

/-- A sync word, `AA AA` (95_test_vectors.md 1.2), and one byte. -/
theorem witness_SyncStep :
    let s (bs : List Byte) := holding bs .sync (ready [])
    ([[0xAA, 0xD5], [0xAA, 0xAA], [0xAA]].all fun bs => decide ((s bs).env.inputs = [] ∧ (s bs).ctx.initialised = true ∧
        (s bs).ctx.state = .sync ∧ (s bs).ctx.inDispatch = false)) = true ∧
      (byteAt (s [0xAA, 0xD5]) 0 = 0xAA ∧ byteAt (s [0xAA, 0xD5]) 1 = 0xD5) ∧ byteAt (s [0xAA, 0xAA]) 1 ≠ 0xD5 ∧
      (s [0xAA]).sb.used < 2 := by decide +kernel

/-- FS-4, FS-5, FS-6 and GET_CAPS s0: each clause, the length one byte too long. -/
theorem witness_HeaderStep :
    (Writes (ready [true, true]) ∧ Writes (ready [false])) ∧
      [([0xAA, 0xD5, 0, 0, 0, 1, 0, 0, 0x52, 0x28], some Status.checksum),
          ([0xAA, 0xD5, 1, 0, 0, 1, 0xF3, 0, 0x60, 0x2A], some .overflow),
          ([0xAA, 0xD5, 1, 0, 0, 1, 0, 0, 0xF2, 0x6C], some .sequence),
          ([0xAA, 0xD5, 0, 0, 0, 1, 0, 0, 0x52, 0x29], none)].all (fun c =>
        let s := holding c.1 .header (ready [true, true])
        decide (s.env.inputs = [] ∧ s.ctx.initialised = true ∧ s.ctx.state = .header ∧ 10 ≤ s.sb.used ∧
          s.ctx.inDispatch = false ∧ 2 ≤ s.ctx.cfg.maxPayload.toNat ∧ headerFailure s = c.2)) = true :=
  ⟨⟨ready_writes.1, ready_writes.2.1⟩, by decide +kernel⟩

/-- PC-2 in the buffer. -/
theorem witness_StepRunsDecodedInstruction :
    let s := holding [0xAA, 0xD5, 0x02, 0x01, 0x00, 0x27, 0x02, 0x00, 0x47, 0x5A, 0x61, 0x62, 0x6D, 0x48, 0x83, 0x9E] .payload (ready [])
    s.env.inputs = [] ∧ s.ctx.initialised = true ∧ s.ctx.state = .payload ∧ s.ctx.inDispatch = false ∧
      decode (readable s) = .ok (.write 0 ⟨2, 1, 0x5A47, [0x61, 0x62], 0x9E83486D⟩, []) := by decide +kernel

/-- FS-19: 12 of 18 bytes, and 17. -/
theorem witness_IncompletePayloadEntersRecovery :
    [[0xAA, 0xD5, 0, 1, 0, 0x27, 4, 0, 0xA1, 0x7B, 0x41, 0x42], [0xAA, 0xD5, 0, 1, 0, 0x27, 4, 0, 0xA1, 0x7B, 0x41, 0x42, 0x43, 0x44, 0xA5, 0x20, 0x17]].all (fun bs =>
      let s := holding bs .payload (ready [])
      decide (s.env.inputs = [] ∧ s.ctx.initialised = true ∧ s.ctx.state = .payload ∧ s.ctx.inDispatch = false ∧
        s.sb.used < packetTotalSize (hdrAt s 0).length)) = true := by decide +kernel

/-- FS-20: a truncated WRITE with SYNC s7 behind it. -/
def recovering : State :=
  let s := holding [0xAA, 0xD5, 0, 1, 0, 0x27, 4, 0, 0xA1, 0x7B, 0x41, 0x42, 0xAA, 0xD5, 7, 0, 0, 0, 0, 0, 0x23, 0xD6]
    .syncRecovery (ready [true, true])
  { s with ctx := { s.ctx with scanOffset := 11 } }

/-- FS-20, with the SYNC's last byte the last readable one. -/
theorem witness_RecoveryTakesSync :
    let s := recovering
    s.env.inputs = [] ∧ s.ctx.initialised = true ∧ s.ctx.state = .syncRecovery ∧ s.ctx.inDispatch = false ∧
      max s.ctx.scanOffset 1 ≤ 12 ∧ 12 + 10 ≤ s.sb.used ∧ syncWordAt s 12 = true ∧ syncCmdAt s 12 = .yes ∧
      (∀ k, max s.ctx.scanOffset 1 ≤ k → k < 12 → syncWordAt s k = true → syncCmdAt s k = .no) ∧
      classify (rxAt s 12) = some (.sync 0 ⟨7, 0, 0xD623, [], 0⟩) := by
  refine ⟨rfl, rfl, rfl, rfl, by decide, by decide, by decide +kernel, by decide +kernel, ?_, by decide +kernel⟩
  intro k h1 h2
  have h3 : 11 ≤ k := h1
  interval_cases k
  decide +kernel

/-- The truncated WRITE of FS-19, without header checks where `chk` is false, with `bs` behind it, scanned from `k` on. -/
def pending (chk : Bool) (k : Nat) (bs : List Byte) : State :=
  let s := holding ([0xAA, 0xD5, 0, 1, 0, 0x27, 4, 0, 0xA1, 0x7B, 0x41, 0x42] ++ bs) .syncRecovery (ready [])
  { s with ctx := { s.ctx with scanOffset := k, cfg := { s.ctx.cfg with crcEn := chk } } }

/-- FS-21: exactly the 18 bytes of the WRITE; the scan comes to the last byte. -/
theorem witness_RecoveryReturnsToPayload :
    let s := pending true 15 [0x43, 0x44, 0xA5, 0x20, 0x17, 0xDB]
    s.env.inputs = [] ∧ s.ctx.initialised = true ∧ s.ctx.state = .syncRecovery ∧ s.ctx.inDispatch = false ∧
      max s.ctx.scanOffset 1 ≤ 17 ∧ (∀ k, max s.ctx.scanOffset 1 ≤ k → k < 17 → RecoveryPasses s k) ∧
      RecoveryStops s 17 ∧ packetTotalSize (hdrAt s 0).length = s.sb.used := by
  refine ⟨rfl, rfl, rfl, rfl, by decide, ?_, Or.inl (by decide), by decide +kernel⟩
  intro k h1 h2
  have h3 : 15 ≤ k := h1
  interval_cases k <;> exact ⟨by decide +kernel, by decide +kernel⟩

/-- A complete WRITE, a SYNC still arriving behind it (40 payload bytes declared), and a complete SYNC further on. -/
theorem witness_RecoveryReturnsToPayload_wait :
    let s := pending false 18 [0x43, 0x44, 0xA5, 0x20, 0x17, 0xDB, 0xAA, 0xD5, 7, 0, 0, 0, 40, 0, 0, 0,
      0xAA, 0xD5, 9, 0, 0, 0, 0, 0, 0x80, 0x56]
    RecoveryStops s 18 ∧ packetTotalSize (hdrAt s 0).length ≤ s.sb.used ∧ syncCmdAt s 28 = .yes :=
  ⟨Or.inr ⟨by decide +kernel, Or.inr (by decide +kernel)⟩, by decide +kernel, by decide +kernel⟩

/-- FS-19: the WRITE is incomplete, and the scan moves from 10 to the last byte; from there on there is no step. A sync word
whose header is still arriving stops it too. -/
theorem witness_RecoveryReturnsToPayload_incomplete :
    ((∀ k, max (pending true 10 []).ctx.scanOffset 1 ≤ k → k < 11 → RecoveryPasses (pending true 10 []) k) ∧
      RecoveryStops (pending true 10 []) 11 ∧
      (pending true 10 []).sb.used < packetTotalSize (hdrAt (pending true 10 []) 0).length) ∧
    RecoveryStops (pending true 11 []) 11 ∧ (pending true 11 []).ctx.scanOffset = 11 ∧
      RecoveryStops (pending true 11 [0xAA, 0xD5]) 12 :=
  ⟨⟨fun k h1 h2 => by
      have h3 : 10 ≤ k := h1
      interval_cases k
      exact ⟨by decide +kernel, by decide +kernel⟩, Or.inl (by decide), by decide +kernel⟩,
    Or.inl (by decide), rfl, Or.inr ⟨by decide +kernel, Or.inl (by decide)⟩⟩

/-- A packet at the dispatcher, in SYNC and in WAIT_ACK. -/
theorem witness_DispatcherStalls :
    let s := deliver ⟨⟨0, 1, 0, 0x27, 0, 0⟩, [], 0⟩ (ready [])
    s.ctx.initialised = true ∧ s.ctx.inDispatch = true ∧ s.ctx.state ≠ .waitAck ∧ (waiting s).ctx.state = .waitAck := by decide +kernel

/-- FS-10 (INVALID) and FS-11 (CHECKSUM). -/
theorem witness_RejectionSendsOneNak :
    let s := ready [true, true]
    s.ctx.initialised = true ∧ isResponse 0 = false ∧ (Writes s ∧ Writes (ready [false])) ∧ 2 ≤ s.ctx.cfg.maxPayload.toNat ∧
      rejection s ⟨⟨2, 0, 0, 0x27, 2, 0xF016⟩, [0x61, 0x62], 0x9E83486D⟩ = some .invalid ∧
      rejection s ⟨⟨2, 1, 0, 0x27, 2, 0x5A47⟩, [0x61, 0x62], 0x9F83486D⟩ = some .checksum :=
  ⟨rfl, by decide, ⟨ready_writes.1, ready_writes.2.1⟩, by decide, by decide +kernel, by decide +kernel⟩

/-- Each clause, at the ends of the opcode ranges: policy (a), CRC, no row, no target, no operation, too soon, accepted. -/
theorem witness_RejectionOrder :
    let s := ready []
    let t := { s with reg := { s.reg with lastLock := s.reg.lastLock.set 1 (some 0) } }
    let p (ch op : Byte) : Rx := ⟨⟨0, ch, 0, op, 0, 0⟩, [], 0⟩
    [rejection s (p 1 0x13), rejection s (p 0 0x14), rejection s ⟨⟨0, 1, 0, 0x2A, 1, 0⟩, [1], 0⟩, rejection s (p 1 0x14),
        rejection s (p 1 0x2A), rejection s (p 0 0x05), rejection s (p 0 0x13), rejection s (p 9 0x20), rejection s (p 9 0x29)]
      = [some .invalid, some .invalid, some .checksum, some .unknown, some .unknown, some .unknown, none, none, some .invalid] ∧
    [0x21, 0x22, 0x23, 0x24, 0x25, 0x26, 0x27, 0x28].map (fun op => rejection s (p 2 op)) = List.replicate 8 (some .invalid) ∧
    [0x21, 0x22, 0x23, 0x24, 0x25, 0x26, 0x27, 0x28].map (fun op => rejection s (p 1 op)) = List.replicate 8 none ∧
    rejection t (p 1 0x22) = some .busy := by decide +kernel

/-- FS-12 and FS-13. -/
theorem witness_UndefinedOpcodeAnsweredUnknown :
    let s := holding [0xAA, 0xD5, 1, 1, 0, 0x14, 0, 0, 0x30, 0x6E] .payload (ready [true, true])
    let t := holding [0xAA, 0xD5, 1, 0, 0, 5, 0, 0, 0x32, 0xB0] .payload (ready [true, true])
    (Writes s ∧ Writes (ready [false])) ∧ [s, t].all (fun s => decide (s.env.inputs = [] ∧ s.ctx.initialised = true ∧
      s.ctx.state = .payload ∧ s.ctx.inDispatch = false ∧ packetTotalSize (hdrAt s 0).length ≤ s.sb.used ∧
      classify (rxAt s 0) = none ∧ ((hdrAt s 0).opcode ≤ 0x13#8 ↔ (hdrAt s 0).channel = 0#8) ∧
      payloadOk s (rxAt s 0) = true ∧ 2 ≤ s.ctx.cfg.maxPayload.toNat)) = true :=
  ⟨⟨ready_writes.1, ready_writes.2.1⟩, by decide +kernel⟩

/-- Outside a wait and in one; the ACK is written, or not. -/
theorem witness_SyncResets :
    let s := ready [true, true]
    s.ctx.initialised = true ∧ payloadCrcMatches s.par s.ctx.cfg.crcEn [] 0 = true ∧
      (s.ctx.waitForAck = true ↔ s.ctx.state = .waitAck) ∧
      ((waiting s).ctx.waitForAck = true ↔ (waiting s).ctx.state = .waitAck) ∧ Writes s ∧ Writes (waiting s) ∧
      Writes (waiting (ready [false])) :=
  ⟨rfl, by decide, by decide, by decide, ready_writes.1, ready_writes.1, ready_writes.2.1⟩

/-- The example configuration: 242 of payload, a version of 3 bytes, the default STATS layout. -/
theorem witness_QueriesAnswered :
    let s := ready [true, true]
    s.ctx.initialised = true ∧ payloadCrcMatches s.par s.ctx.cfg.crcEn [] 0 = true ∧ 50 ≤ s.ctx.cfg.maxPayload.toNat ∧
      s.par.versionPayload.length ≤ 50 ∧ (Writes s ∧ Writes (ready [false])) ∧ s.par.statsLayout = .listed :=
  ⟨rfl, by decide, by decide, by decide, ⟨ready_writes.1, ready_writes.2.1⟩, rfl⟩

/-- OP-3 (50) and OP-7 (498): both ends of the range. -/
theorem witness_SetCapsApplied :
    let s := ready [true, true]
    let lo : Frame := ⟨0, 0, 0, [0x0F, 0, 0, 0, 0x32, 0, 0, 0, 0, 0, 0, 0, 0, 0, 0, 0], 0x9A4384F4⟩
    let hi : Frame := ⟨0, 0, 0, [0x0F, 0, 0, 0, 0xF2, 1, 0, 0, 0, 0, 0, 0, 0, 0, 0, 0], 0x0B698324⟩
    (Writes s ∧ Writes (ready [false])) ∧ s.ctx.initialised = true ∧ [lo, hi].all (fun f => decide (f.channel = 0 ∧
      payloadCrcMatches s.par s.ctx.cfg.crcEn f.payload f.payloadCrc = true ∧ f.payload.length = 16 ∧
      50 ≤ (le16 f.payload 4).toNat ∧ (le16 f.payload 4).toNat ≤ s.par.cap - 14)) = true :=
  ⟨⟨ready_writes.1, ready_writes.2.1⟩, rfl, by decide +kernel⟩

/-- OP-4 (49), OP-6 (499) and OP-5 (15 bytes). -/
theorem witness_SetCapsRefused :
    let s := ready [true, true]
    let a : Frame := ⟨0, 0, 0, [0x0F, 0, 0, 0, 0x31, 0, 0, 0, 0, 0, 0, 0, 0, 0, 0, 0], 0xEDDD5604⟩
    let c : Frame := ⟨0, 0, 0, [0x0F, 0, 0, 0, 0xF3, 1, 0, 0, 0, 0, 0, 0, 0, 0, 0, 0], 0x90CCCF4B⟩
    let d : Frame := ⟨0, 0, 0, [0x0F, 0, 0, 0, 0x32, 0, 0, 0, 0, 0, 0, 0, 0, 0, 0], 0xF35D32A7⟩
    (Writes s ∧ Writes (ready [false])) ∧ s.ctx.initialised = true ∧ 2 ≤ s.ctx.cfg.maxPayload.toNat ∧ [a, c, d].all (fun f => decide (
      f.channel = 0 ∧ payloadCrcMatches s.par s.ctx.cfg.crcEn f.payload f.payloadCrc = true ∧
      ¬ (f.payload.length = 16 ∧ 50 ≤ (le16 f.payload 4).toNat ∧ (le16 f.payload 4).toNat ≤ s.par.cap - 14))) = true :=
  ⟨⟨ready_writes.1, ready_writes.2.1⟩, rfl, by decide, by decide +kernel⟩

/-- An initialised block and a frame on channel 0. -/
theorem witness_SystemPacketDelivered :
    (ready []).ctx.initialised = true ∧ (⟨0, 0, 0, [1], 0xA505DF1B⟩ : Frame).channel = 0 ∧
      payloadCrcMatches (ready []).par (ready []).ctx.cfg.crcEn [1] 0xA505DF1B = true := by decide +kernel

/-- Channel 1 has every operation; channel 2, which has none, gets EVENT. -/
theorem witness_ChannelPacketDelivered :
    (ready []).ctx.initialised = true ∧ payloadCrcMatches (ready []).par true [1] 0xA505DF1B = true ∧ (1 : Byte) ≠ 0 ∧
      (∀ op ∈ [ChannelOp.poll, .unlock, .shape, .size, .read, .readPointer, .write, .ioctl], channelHas (ready []) 1 op) ∧
      (registryFind (ready []) (2 : Byte).toNat).isSome = true := by
  refine ⟨rfl, by decide +kernel, by decide, ?_, by decide⟩
  intro op h
  refine ⟨chan 1 0b000100 0x1FFF, rfl, ?_⟩
  revert op; decide

/-- No LOCK yet; one 10 ticks back, which is enough; one 9 ticks back. -/
theorem witness_LockDeliveredOrBusy :
    let s := ready [true, true]
    let at' (n : Word) : State := { s with
      reg := { s.reg with lastLock := s.reg.lastLock.set 1 (some 0) }, ctx := { s.ctx with now := n } }
    s.ctx.initialised = true ∧ payloadCrcMatches s.par s.ctx.cfg.crcEn [] 0 = true ∧ channelHas s 1 .lock ∧
      channelHas (at' 9) 1 .lock ∧ lastLock s 1 = none ∧ lastLock (at' 10) 1 = some 0 ∧
      ¬ ((at' 10).ctx.now - 0 < (at' 10).ctx.cfg.lockInterval) ∧ (at' 9).ctx.now - 0 < (at' 9).ctx.cfg.lockInterval ∧
      (Writes (at' 9) ∧ Writes { at' 9 with env := ⟨[], [false], 0, []⟩ }) ∧ 2 ≤ s.ctx.cfg.maxPayload.toNat := ⟨rfl, by decide, ⟨chan 1 0b000100 0x1FFF, rfl, by decide⟩, ⟨chan 1 0b000100 0x1FFF, rfl, by decide⟩, by decide, by decide,
    by decide, by decide, ⟨writes_of rfl (.inl rfl), writes_of rfl (.inr (.inl rfl))⟩, by decide⟩

/-- RD-9. -/
theorem witness_AckEndsWait :
    let s := waiting (ready [])
    s.ctx.initialised = true ∧ s.ctx.state = .waitAck ∧ 0x21 = s.ctx.ackOpcode ∧ 0 = s.ctx.ackSequence ∧
      headerOk s (Instr.ack 0x21 0 ⟨0, 2, 0x9DA3, [], 0⟩).rx = true ∧ payloadCrcMatches s.par s.ctx.cfg.crcEn [] 0 = true ∧
      s.ctx.fragRest = [] := by decide +kernel

/-- A wait for the first of two chunks (RD-21, shortened), the second with or without an ACK requirement. -/
def fragmenting (ar : Bool) (answers : List Bool) : State :=
  let s := waiting (ready answers)
  { s with ctx := { s.ctx with fragRest := [⟨3, 0x27, 0, [1, 2], ar, none⟩] } }

/-- A matching ACK while one chunk is left: its write succeeds, or fails in each of the three ways; and a chunk without an ACK
requirement. -/
theorem witness_AckSendsNextFragment :
    let s := fragmenting true [true, true]
    s.ctx.initialised = true ∧ s.ctx.state = .waitAck ∧ endsWait s (Instr.ack 0x21 0 ⟨0, 2, 0x9DA3, [], 0⟩).rx = true ∧
      s.ctx.fragRest = [⟨3, 0x27, 0, [1, 2], true, none⟩] ∧ s.ctx.cfg.ackEn = true ∧ (0 : Byte) &&& 0x23#8 = 0#8 ∧
      TransportTakes s [] ∧ TransportTakes (fragmenting false [true, true]) [] ∧
      TransportFails (fragmenting false [false]) [] (ready []).env ∧
      TransportFails { fragmenting true [] with reg := freshRegistry 8 } [] (ready []).env ∧
      TransportFails (fragmenting true [false]) [] (ready []).env ∧
      TransportFails (fragmenting true [true, false]) [] { (ready []).env with outputs := [.tWrite [] false] } :=
  ⟨rfl, rfl, by decide +kernel, rfl, rfl, by decide, ⟨by decide, rfl⟩, ⟨by decide, rfl⟩, (ready_fails []).2.1,
    ready_fails []⟩

/-- RD-10 (BUSY), RD-12 (no status) and RD-11 (SUCCESS). -/
theorem witness_NakEndsWait :
    let s := waiting (ready [])
    s.ctx.initialised = true ∧ s.ctx.state = .waitAck ∧ 0x21 = s.ctx.ackOpcode ∧ 0 = s.ctx.ackSequence ∧
      headerOk s (Instr.nak 0x21 false 0 ⟨0, 2, 0x601D, [4, 0], 0x25B5D7FB⟩).rx = true ∧
      payloadCrcMatches s.par s.ctx.cfg.crcEn [4, 0] 0x25B5D7FB = true ∧
      headerOk s (Instr.nak 0x21 false 0 ⟨0, 2, 0x067F, [], 0⟩).rx = true ∧
      payloadCrcMatches s.par s.ctx.cfg.crcEn [0, 0] 0x41D912FF = true := by decide +kernel

/-- Outside a wait; in one, with another opcode, and with another sequence number. -/
theorem witness_StrayResponseDropped :
    (ready []).ctx.initialised = true ∧ (ready []).ctx.state ≠ .waitAck ∧ (waiting (ready [])).ctx.state = .waitAck ∧
      (0x27 : Byte) ≠ (waiting (ready [])).ctx.ackOpcode ∧ (1 : Byte) ≠ (waiting (ready [])).ctx.ackSequence := by decide +kernel

/-- The block of `waiting` with these bytes in the buffer. -/
def scanning (chk : Bool) (bs : List Byte) : State :=
  let s := holding bs .waitAck (waiting (ready []))
  { s with ctx := { s.ctx with cfg := { s.ctx.cfg with crcEn := chk } } }

/-- The hypotheses of `WaitScanRunsResponse` before its clauses: before the deadline. -/
theorem scanning_waits (chk : Bool) (bs : List Byte) :
    (scanning chk bs).env.inputs = [] ∧ (scanning chk bs).ctx.initialised = true ∧ (scanning chk bs).ctx.state = .waitAck ∧
      ScanFires (scanning chk bs) (scanning chk bs) ∧ (scanning chk bs).ctx.scanOffset = 0 :=
  ⟨rfl, rfl, rfl, .inl ⟨(by decide : (0#32) < 100#32), rfl⟩, rfl⟩

/-- `scanning` at the deadline, with the environment's choice between the scan and the timeout step. -/
def late (timeout : Bool) (retries : Byte) (bs : List Byte) : State :=
  let s := scanning true bs
  { s with ctx := { s.ctx with elapsed := 100, retriesLeft := retries }, env := { s.env with answers := [timeout, true, true] } }

/-- The same at the deadline: the environment chooses the scan, and RD-9 stands in the buffer. -/
theorem witness_WaitScanRunsResponse_deadline :
    let s := late false 3 [0xAA, 0xD5, 0, 2, 1, 0x21, 0, 0, 0xA3, 0x9D]
    s.env.inputs = [] ∧ s.ctx.initialised = true ∧ s.ctx.state = .waitAck ∧
      ScanFires s { s with env := { s.env with answers := [true, true] } } ∧ WaitPasses s s.ctx.scanOffset 0 ∧
      headerOkAt s 0 = true ∧ ackMatch s (hdrAt s 0) = true :=
  ⟨rfl, rfl, rfl, .inr ⟨(by decide : (100#32) ≤ 100#32), rfl⟩, .here 0, by decide +kernel, by decide +kernel⟩

theorem passes_at {s : State} {k j : Nat} (h : k = j) : WaitPasses s k j := h ▸ .here k

/-- A complete, valid response to the wait stands at `k`. -/
def answered (s : State) (k : Nat) : Bool :=
  syncWordAt s k && headerOkAt s k && decide ((hdrAt s k).length ≤ s.ctx.cfg.maxPayload) && ackMatch s (hdrAt s k)
    && decide (k + packetTotalSize (hdrAt s k).length ≤ s.sb.used) && payloadOkAt s k

/-- RD-14, noise, a sync word with a bad header, noise, and the ACK of RD-9. -/
theorem witness_WaitScanRunsResponse :
    let s := scanning true [0xAA, 0xD5, 1, 2, 1, 0x21, 0, 0, 3, 0xD8, 0x41, 0xAA, 0xD5,
      0xAA, 0xD5, 0, 2, 1, 0x21, 0, 0, 0xA3, 0x9D]
    WaitPasses s s.ctx.scanOffset 13 ∧ answered s 13 = true := by
  refine ⟨?_, by decide +kernel⟩
  refine .skipped (by decide +kernel) (by decide +kernel) (by decide +kernel) (by decide +kernel) (by decide +kernel)
    (by decide +kernel) ?_
  refine .noSyncWord (by decide +kernel) (by decide +kernel) (.badHeader (by decide +kernel) (by decide +kernel)
    (.inl (by decide +kernel)) (.noSyncWord (by decide +kernel) (by decide +kernel) ?_))
  exact passes_at (by decide +kernel)

/-- RD-9: the response at the front of the buffer. -/
theorem witness_WaitScanRunsResponse_front :
    let s := scanning true [0xAA, 0xD5, 0, 2, 1, 0x21, 0, 0, 0xA3, 0x9D]
    WaitPasses s s.ctx.scanOffset 0 ∧ answered s 0 = true := ⟨.here 0, by decide +kernel⟩

/-- RD-10 with its last byte changed: the matching NAK is passed by one byte. Without header checks, a WRITE of 32 bytes still
arriving is. -/
theorem witness_WaitScanRunsResponse_oneByte :
    WaitPasses (scanning true [0xAA, 0xD5, 0, 2, 2, 0x21, 2, 0, 0x1D, 0x60, 4, 0, 0xFB, 0xD7, 0xB5, 0x26]) 0 1 ∧
      WaitPasses (scanning false [0xAA, 0xD5, 0, 1, 0, 0x27, 32, 0, 0, 0]) 0 1 :=
  ⟨.badPayload (by decide +kernel) (by decide +kernel) (by decide +kernel) (by decide +kernel) (by decide +kernel)
      (by decide +kernel) (.here 1),
    .incomplete (by decide +kernel) (by decide +kernel) (by decide +kernel) (by decide +kernel) (by decide +kernel)
      (by decide +kernel) (by decide +kernel) (.here 1)⟩

/-- RD-20: GET_CAPS s1 is skipped, SYNC s9 is taken. -/
theorem witness_WaitScanRunsResponse_sync :
    let s := scanning true [0xAA, 0xD5, 1, 0, 0, 1, 0, 0, 0xF2, 0x6C, 0xAA, 0xD5, 9, 0, 0, 0, 0, 0, 0x80, 0x56]
    WaitPasses s s.ctx.scanOffset 10 ∧ 10 + 10 ≤ s.sb.used ∧ syncWordAt s 10 = true ∧ ackMatch s (hdrAt s 10) = false ∧
      syncCmdAt s 10 = .yes := by
  refine ⟨.skipped (by decide +kernel) (by decide +kernel) (by decide +kernel) (by decide +kernel) (by decide +kernel)
    (by decide +kernel) ?_, by decide +kernel⟩
  exact passes_at (by decide +kernel)

/-- RD-14: the scan moves to the end; an empty buffer: there is no step. A header still arriving, a NAK still arriving, and a
SYNC still arriving stop it too. -/
theorem witness_WaitScanRunsResponse_stops :
    let s := scanning true [0xAA, 0xD5, 1, 2, 1, 0x21, 0, 0, 3, 0xD8]
    (WaitPasses s s.ctx.scanOffset 10 ∧ WaitStops s 10) ∧ WaitStops (scanning true []) 0 ∧
      WaitStops (scanning true [0xAA, 0xD5]) 0 ∧
      WaitStops (scanning true [0xAA, 0xD5, 0, 2, 2, 0x21, 2, 0, 0x1D, 0x60, 4, 0, 0xFB, 0xD7, 0xB5]) 0 ∧
      WaitStops (scanning false [0xAA, 0xD5, 9, 0, 0, 0, 2, 0, 0, 0]) 0 := by
  refine ⟨⟨.skipped (by decide +kernel) (by decide +kernel) (by decide +kernel) (by decide +kernel) (by decide +kernel)
    (by decide +kernel) ?_, .inl (by decide)⟩, .inl (by decide), .inr ⟨by decide +kernel, .inl (by decide)⟩,
    .inr ⟨by decide +kernel, .inr ⟨by decide +kernel, by decide +kernel, .inl (by decide +kernel)⟩⟩,
    .inr ⟨by decide +kernel, .inr ⟨by decide +kernel, by decide +kernel, .inr (by decide +kernel)⟩⟩⟩
  exact passes_at (by decide +kernel)

/-- An initialised block, idle and in a wait. -/
theorem witness_InstructionFrame :
    (ready []).ctx.initialised = true ∧ (waiting (ready [])).ctx.initialised = true := ⟨rfl, rfl⟩

/-- No transport, and each answer of one. -/
theorem witness_TransmitOnceOutcomes :
    findTransport State.reset = none ∧ (findTransport (ready [])).isSome = true ∧ (ready [false]).env.answers = [false] ∧
      (ready [true, false]).env.answers = [true, false] ∧ (ready [true, true]).env.answers = [true, true] := by decide +kernel

/-- RD-1 and RD-6: no requirement, and an event that asks for one; a full-size payload. Each write can fail. -/
theorem witness_SendWithoutAck :
    let s := ready [true, true]
    s.ctx.initialised = true ∧ TransportTakes s [] ∧ (List.replicate 242 (0 : Byte)).length ≤ s.ctx.cfg.maxPayload.toNat ∧
      (⟨1, 0x27, 0, [], false, none⟩ : Chunk).ackRequired = false ∧ (0x20 : Byte) &&& 0x23#8 ≠ 0#8 ∧
      TransportFails { ready [] with reg := freshRegistry 8 } [] (ready []).env ∧ TransportFails (ready [false]) [] (ready []).env ∧
      TransportFails (ready [true, false]) [] { (ready []).env with outputs := [.tWrite [] false] } :=
  ⟨rfl, ready_transport [], by decide +kernel, rfl, by decide, ready_fails []⟩

/-- RD-2: a payload of `max_payload`; RD-21: a longer one, whose last chunk is one byte, or full. Each write can fail. -/
theorem witness_SendStartsWait :
    let s := ready [true, true]
    let full : List Byte := List.replicate 242 0
    s.ctx.initialised = true ∧ TransportTakes s [] ∧ s.ctx.cfg.ackEn = true ∧ (0 : Byte) &&& 0x23#8 = 0#8 ∧
      s.ctx.waitForAck = false ∧ full.length ≤ s.ctx.cfg.maxPayload.toNat ∧ full.length = s.ctx.cfg.maxPayload.toNat ∧
      ([[full, [1]], [full]].all fun more => (List.range more.length).all fun i =>
        let n := (more.getD i []).length
        if i + 1 < more.length then n == 242 else decide (0 < n ∧ n ≤ 242)) = true ∧
      ∃ e, TransportFails (ready [false]) [] e :=
  ⟨rfl, ready_transport [], rfl, by decide, rfl, by decide +kernel, by decide +kernel, by decide +kernel, _, (ready_fails []).2.1⟩

/-- RD-3 and RD-4. -/
theorem witness_OneOutstandingTransaction :
    let s := waiting (ready [])
    s.ctx.initialised = true ∧ s.ctx.waitForAck = true ∧ s.ctx.cfg.ackEn = true ∧ (0 : Byte) &&& 0x23#8 = 0#8 ∧
      (0x20 : Byte) &&& 0x23#8 ≠ 0#8 := by decide +kernel

/-- 50 bytes a packet: 120 (two full ones and 20) and 100 (RD-24: the last one full too). -/
theorem witness_FragmentsCarryThePayload :
    let s := ready (List.replicate 6 true)
    let t := { s with ctx := { s.ctx with cfg := { s.ctx.cfg with maxPayload := 50 } } }
    t.ctx.initialised = true ∧ (findTransport t).isSome = true ∧
      t.env.answers = List.replicate (2 * (2 + 1)) true ++ [] ∧ t.env.answers = List.replicate (2 * (1 + 1)) true ++ [true, true] ∧
      (List.replicate 120 (0 : Byte)).length = 2 * t.ctx.cfg.maxPayload.toNat + 20 ∧
      (List.replicate 100 (0 : Byte)).length = 1 * t.ctx.cfg.maxPayload.toNat + 50 ∧ 50 ≤ t.ctx.cfg.maxPayload.toNat := by decide +kernel

/-- The wait of RD-18 with its deadline reached exactly. -/
def expired (retries : Byte) (answers : List Bool) : State :=
  let s := waiting (ready answers)
  { s with ctx := { s.ctx with elapsed := 100, retriesLeft := retries } }

theorem expired_fires (r : Byte) (a : List Bool) : TimeoutFires (expired r a) (expired r a) :=
  ⟨(by decide : (100#32) ≤ 100#32), .inl ⟨rfl, rfl⟩⟩

/-- RD-9 has just arrived at the deadline, and the environment chooses the timeout. -/
theorem late_fires {r : Byte} {s : State} (hs : s = late true r [0xAA, 0xD5, 0, 2, 1, 0x21, 0, 0, 0xA3, 0x9D])
    (hw : (waitStep s).isSome = true) : TimeoutFires s { s with env := { s.env with answers := [true, true] } } := by
  subst hs
  obtain ⟨t, h⟩ := Option.isSome_iff_exists.mp hw
  exact ⟨(by decide : (100#32) ≤ 100#32), .inr ⟨by rw [h]; exact nofun, rfl⟩⟩

/-- RD-18: only the timeout step is enabled, or the environment chooses it; the write succeeds, or fails in each of the three
ways. -/
theorem witness_TimeoutRetransmits :
    let s := expired 3 [true, true]
    let l := late true 3 [0xAA, 0xD5, 0, 2, 1, 0x21, 0, 0, 0xA3, 0x9D]
    s.env.inputs = [] ∧ s.ctx.initialised = true ∧ s.ctx.state = .waitAck ∧ TimeoutFires s s ∧ s.ctx.retriesLeft ≠ 0#8 ∧
      s.ctx.txHold = some (makePkt s.par 0 2 0x08 0x21 []) ∧ TransportTakes s [] ∧
      TimeoutFires l { l with env := { l.env with answers := [true, true] } } ∧
      TransportTakes { l with env := { l.env with answers := [true, true] } } [] ∧
      TransportFails { expired 3 [] with reg := freshRegistry 8 } [] (ready []).env ∧
      TransportFails (expired 3 [false]) [] (ready []).env ∧
      TransportFails (expired 3 [true, false]) [] { (ready []).env with outputs := [.tWrite [] false] } :=
  ⟨rfl, rfl, rfl, expired_fires _ _, by decide, rfl, ⟨by decide, rfl⟩, late_fires rfl (by decide +kernel), ⟨by decide, rfl⟩,
    ready_fails []⟩

/-- RD-19: no retry left; only the timeout step is enabled, or the scan is too and the environment chooses the timeout. -/
theorem witness_TimeoutExhausts :
    let s := expired 0 []
    let l := late true 0 [0xAA, 0xD5, 0, 2, 1, 0x21, 0, 0, 0xA3, 0x9D]
    (s.env.inputs = [] ∧ s.ctx.initialised = true ∧ s.ctx.state = .waitAck ∧ TimeoutFires s s ∧ s.ctx.retriesLeft = 0#8) ∧
      l.env.inputs = [] ∧ l.ctx.initialised = true ∧ l.ctx.state = .waitAck ∧ (waitStep l).isSome = true ∧
      TimeoutFires l { l with env := { l.env with answers := [true, true] } } ∧ l.ctx.retriesLeft = 0#8 :=
  ⟨⟨rfl, rfl, rfl, expired_fires _ _, rfl⟩, rfl, rfl, rfl, by decide +kernel, late_fires rfl (by decide +kernel), rfl⟩

/-- A wait under EX: 3 retries, a timeout of 100 (95_test_vectors.md 1.5). -/
theorem witness_RetryDoubling :
    let s := waiting (ready [])
    s.ctx.initialised = true ∧ s.ctx.state = .waitAck ∧ s.ctx.waitForAck = true ∧ s.ctx.scanOffset = 0 ∧
      s.ctx.elapsed = 0#32 ∧ s.ctx.txHold = some (makePkt s.par 0 2 0x08 0x21 []) ∧ s.sb.used = 0 ∧ s.ctx.inDispatch = false ∧
      1 ≤ s.ctx.timeoutCur.toNat ∧ (2 ^ (s.ctx.retriesLeft.toNat + 1)) * s.ctx.timeoutCur.toNat < 2 ^ 32 ∧
      (2 ^ 0 - 1) * s.ctx.timeoutCur.toNat ≤ 99 ∧ (2 ^ (3 + 1) - 1) * s.ctx.timeoutCur.toNat ≤ 1500 := by decide +kernel

/-- RD-5. -/
theorem witness_AckDisabledNeverWaits :
    let s := ready []
    let t := { s with ctx := { s.ctx with cfg := { s.ctx.cfg with ackEn := false } } }
    t.ctx.initialised = true ∧ t.ctx.cfg.ackEn = false := by decide +kernel

/-- The wait with its ACK in the buffer. -/
def acked : State := holding [0xAA, 0xD5, 0, 2, 1, 0x21, 0, 0, 0xA3, 0x9D] .waitAck (waiting (ready []))

theorem acked_inv : Inv acked :=
  ⟨example_params_valid, fun _ => waiting_live _ _ (bufferValid_of (by decide +kernel))⟩

/-- RD-9: the step ends the wait. -/
theorem witness_WaitEndsWithOneResult :
    Inv acked ∧ acked.ctx.initialised = true ∧ acked.ctx.waitForAck = true ∧ Input.restart ∉ acked.env.inputs ∧
      ∃ t, step acked = .next t ∧ (!t.ctx.waitForAck) = true :=
  ⟨acked_inv, rfl, rfl, by decide, next_with (P := fun t => !t.ctx.waitForAck) (by decide +kernel)⟩

/-- A step of the same state. -/
theorem witness_InvKeptByStep :
    Inv acked ∧ ∃ t, step acked = .next t ∧ true = true := ⟨acked_inv, next_with (P := fun _ => true) (by decide +kernel)⟩

/-- An `init` from power-on. -/
theorem witness_ParametersNeverChange :
    ∃ t, step (State.reset.withInputs [.port (.init Config.exampleCfg)]) = .next t ∧ true = true := next_with (P := fun _ => true) (by decide +kernel)

end Sys2Proof.Tests
end

/-! ### O60: the parameters and the output trace under every step

`Appends s t` is a reflexive and transitive relation between states, so each operation gets one lemma of the form
`Appends s (op s)`, and an operation built from others chains theirs. -/

namespace Sys2Proof.Machine

/-- `t` has the parameters of `s`, and its outputs are those of `s` with possibly more behind them (00_scope.md R6, R7,
R11). -/
structure Appends (s t : State) : Prop where
  par : t.par = s.par
  outputs : s.env.outputs <+: t.env.outputs

theorem Appends.refl (s : State) : Appends s s := ⟨rfl, List.prefix_rfl⟩

theorem Appends.trans {s t u : State} (h : Appends s t) (g : Appends t u) : Appends s u :=
  ⟨g.par.trans h.par, h.outputs.trans g.outputs⟩

/-- An operation that puts nothing on the ports. -/
theorem Appends.of_silent {s t : State} (hp : t.par = s.par) (ho : t.env.outputs = s.env.outputs) : Appends s t :=
  ⟨hp, ho ▸ List.prefix_rfl⟩

theorem Appends.withCtx (c : Ctx) (s : State) : Appends s (s.withCtx c) := .of_silent rfl rfl

theorem Appends.withReg (r : Registry) (s : State) : Appends s (s.withReg r) := .of_silent rfl rfl

theorem Appends.emit (o : Output) (s : State) : Appends s (emit o s) := ⟨rfl, List.prefix_append _ _⟩

theorem Appends.emitAll (os : List Output) (s : State) : Appends s (emitAll os s) := ⟨rfl, List.prefix_append _ _⟩

theorem Appends.consumeBytes (n : Nat) (s : State) : Appends s (consumeBytes n s) := .of_silent (by simp) (by simp)

theorem Appends.draw (s : State) : Appends s (draw s).2 := by
  obtain ⟨ans, n, h⟩ := draw_frame s
  rw [h]; exact .of_silent rfl rfl

theorem Appends.of_draw {s t : State} {a : Bool} (h : Machine.draw s = (a, t)) : Appends s t := by
  simpa [h] using Appends.draw s

/-! #### The send path (44_reliable_delivery.md R420-R444) -/

theorem Appends.countWrite (p : Pkt) (s : State) : Appends s (countWrite p s) := by
  unfold Machine.countWrite
  simp only
  split <;> exact .of_silent rfl rfl

theorem Appends.transmitOnce (p : Pkt) (s : State) : Appends s (transmitOnce p s).2 := by
  rcases transmitOnce_cases p s with ⟨-, e⟩ | ⟨d, s1, -, h1, e⟩ | ⟨d, s1, s2, -, h1, h2, e⟩ | ⟨d, s1, s2, -, h1, h2, e⟩ <;>
    rw [e]
  · exact .of_silent rfl rfl
  · exact (of_draw h1).trans (.of_silent rfl rfl)
  · exact (of_draw h1).trans <| (of_draw h2).trans <| (Appends.emit _ s2).trans (.of_silent rfl rfl)
  · exact (of_draw h1).trans <| (of_draw h2).trans <| (Appends.emit _ s2).trans (.countWrite p _)

theorem Appends.sendOne (c : Chunk) (s : State) : Appends s (sendOne c s).2 := by
  have hw := Appends.transmitOnce (chunkPkt s c) s
  unfold Machine.sendOne
  simp only
  split
  · exact .refl s
  · split <;> rename_i s1 e <;> rw [e] at hw
    · exact hw
    · have hs : Appends s (if (stamp s c.opcode c.flags c.echoSeq).2 then advanceSeq s1 else s1) := by
        split
        · exact hw.trans (.of_silent rfl rfl)
        · exact hw
      split
      · exact hs.trans (.of_silent rfl rfl)
      · exact hs

theorem Appends.sendAll (cs : List Chunk) (s : State) : Appends s (sendAll cs s).2 := by
  induction cs generalizing s with
  | nil => exact .refl s
  | cons c cs ih =>
    have hc := Appends.sendOne c s
    unfold Machine.sendAll
    split <;> rename_i e <;> rw [e] at hc
    · exact hc.trans (ih _)
    · exact hc

theorem Appends.sendFragmented (c : Chunk) (s : State) : Appends s (sendFragmented c s).2 := by
  unfold Machine.sendFragmented
  simp only
  split
  · exact .refl s
  split
  · exact .sendAll _ s
  split
  · exact .refl s
  · rename_i c1 rest _
    have h1 : Appends s (Machine.sendOne c1 (setFragRest rest s)).2 :=
      (Appends.withCtx _ s).trans (.sendOne c1 (setFragRest rest s))
    split <;> rename_i e <;> rw [e] at h1
    · exact h1
    · exact h1.trans (.of_silent rfl rfl)

theorem Appends.sendChunk (c : Chunk) (s : State) : Appends s (sendChunk c s).2 := by
  unfold Machine.sendChunk
  split
  · exact .sendFragmented c s
  · exact .sendOne c s

theorem Appends.sendAck (h : Hdr) (payload : List Byte) (s : State) : Appends s (sendAck h payload s) := .sendChunk _ s

theorem Appends.sendStatus (h : Hdr) (st : Status) (s : State) : Appends s (sendStatus h st s) := .sendChunk _ s

/-! #### The ends of a wait and the resets -/

theorem Appends.continueFragments (s : State) : Appends s (continueFragments s) := by
  unfold Machine.continueFragments
  split
  · exact .refl s
  · rename_i c rest _
    have h1 : Appends s (Machine.sendOne c (setFragRest rest s)).2 :=
      (Appends.withCtx _ s).trans (.sendOne c (setFragRest rest s))
    split <;> rename_i e <;> rw [e] at h1
    · exact h1
    · exact h1.trans ⟨rfl, List.prefix_append _ _⟩

theorem Appends.endAck (s : State) : Appends s (endAck s) := by
  unfold Machine.endAck
  simp only
  split
  · exact ⟨rfl, List.prefix_append _ _⟩
  · exact (Appends.withCtx _ s).trans <| (Appends.withCtx _ _).trans (.continueFragments _)

theorem Appends.failWait (code : Half) (s : State) : Appends s (failWait code s) := ⟨rfl, List.prefix_append _ _⟩

theorem Appends.failOpenWait (s : State) : Appends s (failOpenWait s) := by
  unfold Machine.failOpenWait
  split
  · exact ⟨rfl, List.prefix_append _ _⟩
  · exact .refl s

theorem Appends.protocolReset (s : State) : Appends s (protocolReset s) :=
  (Appends.failOpenWait s).trans <| (Appends.withCtx _ _).trans (.emitAll _ _)

theorem Appends.resendHold (s : State) : Appends s (resendHold s) := by
  unfold Machine.resendHold
  split
  · exact .transmitOnce _ s
  · exact .refl s

theorem Appends.exhaust (s : State) : Appends s (exhaust s) :=
  (Appends.withCtx _ s).trans <| (Appends.withCtx _ _).trans <|
    (Appends.protocolReset (setFragRest [] (exitWait s))).trans <| (Appends.withCtx _ _).trans (.emit _ _)

theorem Appends.retransmit (s : State) : Appends s (retransmit s) := by
  unfold Machine.retransmit
  exact (Appends.withCtx _ s).trans <| (Appends.withCtx _ _).trans <| (Appends.withCtx _ _).trans <|
    (Appends.resendHold _).trans (.withCtx _ _)

theorem Appends.timeoutStep (s : State) : Appends s (timeoutStep s) := by
  unfold Machine.timeoutStep
  split
  · exact .exhaust s
  · exact .retransmit s

/-! #### The instructions (43_framing_fsm.md R364) -/

theorem Appends.reject (st : Status) (p : Rx) (s : State) : Appends s (reject st p s) := by
  unfold Machine.reject
  split
  · exact (Appends.withCtx _ s).trans (.sendStatus _ st _)
  · exact .sendStatus _ st s

theorem Appends.acceptSeq (p : Rx) (s : State) : Appends s (acceptSeq p s) := by
  unfold Machine.acceptSeq
  split
  · exact .refl s
  · exact .of_silent rfl rfl

/-- A command appends when its handler does. -/
theorem Appends.of_accept {p : Rx} {s t : State} {handle : State → State} (he : accept p s handle = .next t)
    (hh : ∀ u, Appends u (handle u)) : Appends s t := by
  rcases accept_next he with ⟨-, ⟨st, -, rfl⟩ | ⟨-, rfl⟩⟩
  · exact .reject st p s
  · exact (Appends.acceptSeq p s).trans (hh _)

/-- A command whose handler answers with an ACK that carries `g` of the state (45_opcodes.md R501, R503, R504). -/
theorem Appends.of_accept_ack {p : Rx} {s t : State} (g : State → List Byte)
    (he : accept p s (fun u => Machine.sendAck p.hdr (g u) u) = .next t) : Appends s t :=
  of_accept he fun u => .sendAck p.hdr (g u) u

/-- A response appends when the end of its wait does. -/
theorem Appends.of_respond {p : Rx} {s t : State} {finish : State → State} (he : respond p s finish = .next t)
    (hf : Appends s (finish s)) : Appends s t := by
  rcases respond_next he with ⟨-, ⟨-, rfl⟩ | ⟨-, rfl⟩⟩
  · exact hf
  · exact .refl _

theorem Appends.deliver (p : Rx) (s : State) : Appends s (deliver p s) := ⟨rfl, List.prefix_append _ _⟩

theorem Appends.syncFound (h : Hdr) (s : State) : Appends s (syncFound h s) := by
  have hw : Appends s (if s.ctx.state = .waitAck then Machine.failWait (codeOf s .failed) s else s) := by
    split
    · exact .failWait _ s
    · exact .refl s
  unfold Machine.syncFound
  exact hw.trans <| (Appends.withCtx _ _).trans <| (Appends.protocolReset _).trans (.sendAck h [] _)

theorem Appends.setCaps (p : Rx) (s : State) : Appends s (setCaps p s) := by
  unfold Machine.setCaps
  split
  · exact .sendStatus _ _ s
  split
  · exact .sendStatus _ _ s
  · exact (Appends.sendAck p.hdr [] s).trans (.of_silent rfl rfl)

theorem Appends.exec {i : Instr} {s t : State} (he : exec i s = .next t) : Appends s t := by
  cases i with
  | sync u f => exact of_accept he (.syncFound _)
  | getCaps u f => exact of_accept_ack (fun v => capsPayload v.ctx.cfg) he
  | setCaps u f => exact of_accept he (.setCaps _)
  | stats u f => exact of_accept_ack (fun v => statsPayload v.par.statsLayout v.ctx.stats) he
  | version u f => exact of_accept_ack (fun v => v.par.versionPayload) he
  | lock u f =>
    unfold Machine.exec execLock at he
    exact of_accept he fun v => (Appends.withReg _ v).trans (.deliver _ _)
  | ack op u f => exact of_respond he (.endAck s)
  | nak op a u f => exact of_respond he (.failWait _ s)
  | _ => exact of_accept he (.deliver _)

theorem Appends.runReceived {p : Rx} {s t : State} (he : runReceived p s = .next t) : Appends s t := by
  unfold Machine.runReceived at he
  split at he
  · exact .exec he
  · exact .of_accept he .refl

/-! #### The framing and delivery transitions (43_framing_fsm.md R350) -/

theorem Appends.afterFetch (s : State) : Appends s (afterFetch s) :=
  (Appends.consumeBytes _ s).trans <| (Appends.withCtx _ _).trans (.withCtx _ _)

theorem Appends.takeAt (k : Nat) (s : State) : Appends s (takeAt k s) :=
  (Appends.consumeBytes k s).trans <| (Appends.consumeBytes _ _).trans (.withCtx _ _)

theorem Appends.takeResponse (k : Nat) (s : State) : Appends s (takeResponse k s) := by
  unfold Machine.takeResponse
  split
  · exact .takeAt 0 s
  · exact .refl s

theorem Appends.syncStep (s : State) : Appends s (syncStep s) := by
  unfold Machine.syncStep
  split
  · exact .of_silent rfl rfl
  · exact .consumeBytes 1 s

theorem Appends.countHeaderFailure (st : Status) (s : State) : Appends s (countHeaderFailure st s) := by
  unfold Machine.countHeaderFailure
  split <;> exact .of_silent rfl rfl

theorem Appends.headerStep (s : State) : Appends s (headerStep s) := by
  unfold Machine.headerStep
  split
  · exact .of_silent rfl rfl
  · rename_i st _
    exact (Appends.countHeaderFailure st s).trans <| (Appends.sendStatus _ st _).trans <|
      (Appends.consumeBytes 1 _).trans (.withCtx _ _)

theorem Appends.payloadStep {s t : State} (he : payloadStep s = .next t) : Appends s t := by
  unfold Machine.payloadStep at he
  split at he
  · exact (Appends.afterFetch s).trans (.runReceived he)
  · cases he; exact .of_silent rfl rfl

theorem Appends.recoveryStep {s t : State} (he : recoveryStep s = some (.next t)) : Appends s t := by
  unfold Machine.recoveryStep at he
  split at he
  · exact (Appends.takeAt _ s).trans (.runReceived (Option.some.inj he))
  split at he
  · cases he; exact .of_silent rfl rfl
  split at he
  · cases he
  · cases he; exact .of_silent rfl rfl

theorem Appends.waitStep {s t : State} (he : waitStep s = some (.next t)) : Appends s t := by
  unfold Machine.waitStep at he
  split at he
  · exact (Appends.takeResponse _ s).trans (.runReceived (Option.some.inj he))
  · exact (Appends.takeAt _ s).trans (.runReceived (Option.some.inj he))
  · split at he
    · cases he
    · cases he; exact .of_silent rfl rfl

theorem Appends.waitTransition {s t : State} (he : waitTransition s = some (.next t)) : Appends s t := by
  unfold Machine.waitTransition at he
  split at he
  · split at he
    · cases he; exact .timeoutStep s
    · split at he <;> rename_i hd
      · cases he; exact (of_draw hd).trans (.timeoutStep _)
      · exact (of_draw hd).trans (.waitStep he)
  · exact .waitStep he

theorem Appends.transition {s t : State} (he : transition s = some (.next t)) : Appends s t := by
  unfold Machine.transition at he
  split at he
  · cases he
  cases hs : s.ctx.state <;> simp only [hs] at he
  case waitAck => exact .waitTransition he
  all_goals replace he := (Option.ite_none_left_eq_some.mp he).2
  case sync => cases he; exact .syncStep s
  case header => cases he; exact .headerStep s
  case payload => exact .payloadStep (Option.some.inj he)
  case syncRecovery => exact .recoveryStep he

/-! #### The registry and the port operations (10_state.md R60-R67) -/

theorem Appends.unregisterSlot (id : Nat) (s : State) : Appends s (unregisterSlot id s) := by
  unfold Machine.unregisterSlot
  split
  · exact .refl s
  · split
    · exact ⟨rfl, List.prefix_append _ _⟩
    · exact .of_silent rfl rfl

theorem Appends.deinitAll (s : State) : Appends s (deinitAll s) :=
  foldl_unregister (P := Appends s) (fun id _ h => h.trans (.unregisterSlot id _)) _ s (.refl s)

theorem Appends.storeChannel (d : DescriptorSpec) (id : Nat) (dyn : Bool) (s : State) :
    Appends s (storeChannel d id dyn s) := by
  unfold Machine.storeChannel
  simp only
  split
  · exact (Appends.withReg _ s).trans (.sendChunk _ _)
  · exact .of_silent rfl rfl

theorem Appends.callInitHook (d : DescriptorSpec) (id : Nat) (s : State) : Appends s (callInitHook d id s).2 := by
  unfold Machine.callInitHook
  split
  · exact (Appends.draw s).trans (.emit _ _)
  · exact .refl s

theorem Appends.registerChannel (d : DescriptorSpec) (s : State) : Appends s (registerChannel d s).2 := by
  unfold Machine.registerChannel
  split
  · exact .refl s
  · rename_i id dyn _
    have hk := Appends.callInitHook d id s
    split
    · exact .refl s
    split
    · exact .refl s
    split
    · exact .refl s
    split <;> rename_i e <;> rw [e] at hk
    · exact hk
    · exact hk.trans (.storeChannel d id dyn _)

theorem Appends.claim (n : Nat) (s : State) : Appends s (claim n s).2 := by
  unfold Machine.claim
  split
  · exact .refl s
  split
  · exact .of_silent rfl rfl
  · exact .of_silent (claimRegion_par n s) (by simp)

/-- The state an operation answers in appends, and the answer comes behind. -/
theorem Appends.of_answer {r : Ret} {s u t : State} (he : answer r u = .next t) (h : Appends s u) : Appends s t := by
  cases he; exact h.trans (.emit _ u)

theorem Appends.portInit {c : Config.Cfg} {s t : State} (he : portInit c s = .next t) : Appends s t := by
  unfold Machine.portInit at he
  split at he
  · cases he
  split at he
  · exact of_answer he (.of_silent rfl rfl)
  · exact of_answer he (.refl s)

theorem Appends.portPeekU16 {s t : State} (he : portPeekU16 s = .next t) : Appends s t := by
  unfold Machine.portPeekU16 at he
  split at he
  · cases he
  · exact of_answer he (.refl s)

theorem Appends.portClaim {n : Nat} {s t : State} (he : portClaim n s = .next t) : Appends s t := by
  have hc := Appends.claim n s
  unfold Machine.portClaim at he
  split at he <;> rename_i e <;> rw [e] at hc <;> exact of_answer he hc

theorem Appends.portFill {i : Nat} {v : List Byte} {s t : State} (he : portFill i v s = .next t) : Appends s t := by
  unfold Machine.portFill at he
  split at he
  · exact of_answer he (.of_silent rfl rfl)
  · cases he

theorem Appends.portCommit {n : Nat} {s t : State} (he : portCommit n s = .next t) : Appends s t := by
  unfold Machine.portCommit at he
  split at he
  · exact of_answer he (.refl s)
  split at he
  · cases he
  · exact of_answer he (.of_silent rfl rfl)

theorem Appends.portConsume {n : Nat} {s t : State} (he : portConsume n s = .next t) : Appends s t := by
  unfold Machine.portConsume at he
  split at he
  · exact of_answer he (.refl s)
  split at he
  · cases he
  · exact of_answer he (.consumeBytes n s)

theorem Appends.portPush {b : List Byte} {s t : State} (he : portPush b s = .next t) : Appends s t := by
  have hc := Appends.claim b.length s
  unfold Machine.portPush at he
  split at he <;> rename_i e <;> rw [e] at hc
  · exact of_answer he hc
  split at he
  · exact of_answer he hc
  · exact of_answer he (hc.trans (.of_silent rfl rfl))

theorem Appends.portDispatchDone {s t : State} (he : portDispatchDone s = .next t) : Appends s t := by
  unfold Machine.portDispatchDone at he
  split at he
  · cases he; exact .of_silent rfl rfl
  · cases he

/-- `deinit` ends a wait in progress with FAILED and calls the teardown hooks (70_reset_and_hazards.md R703). -/
theorem Appends.deinitBlock (s : State) : Appends s (deinitBlock s) :=
  (Appends.failOpenWait s).trans <| (Appends.deinitAll _).trans (.of_silent rfl rfl)

/-- Every operation but `init` runs only on an initialised block (10_state.md R32), which `guarded_next` strips off. -/
theorem Appends.execPort {op : PortOp} {s t : State} (he : execPort op s = .next t) : Appends s t := by
  cases op
  case init => exact .portInit he
  all_goals obtain ⟨-, he⟩ := guarded_next he
  case reset => exact of_answer he (.protocolReset s)
  case deinit => exact of_answer he (.deinitBlock s)
  case sbPeekU16 => exact .portPeekU16 he
  case sbClaim => exact .portClaim he
  case sbFill => exact .portFill he
  case sbCommit => exact .portCommit he
  case sbConsume => exact .portConsume he
  case sbPush => exact .portPush he
  case registryRegister => exact of_answer he (.registerChannel _ s)
  case registryUnregister => cases he
  case registryDeinitAll => exact of_answer he (.deinitAll s)
  case send => exact of_answer he (.sendChunk _ s)
  case sendAck => exact of_answer he (.sendChunk _ s)
  case sendStatus => exact of_answer he (.sendChunk _ s)
  case tick => cases he; exact .of_silent rfl rfl
  case dispatchDone => exact .portDispatchDone he
  case sbAvailableToRead | sbAvailableToWrite | sbDataPtr | registryFind | registryFindTransport =>
    exact of_answer he (.refl s)

/-! #### A step -/

theorem Appends.step {s t : State} (he : step s = .next t) : Appends s t := by
  have hin : ∀ is, Appends s (s.withInputs is) := fun _ => .of_silent rfl rfl
  rcases runInputs_next _ s he with ⟨op, rest, -, e⟩ | ⟨rest, -, rfl⟩ | ⟨rest, -, e⟩
  · exact (hin rest).trans (.execPort e)
  · exact .of_silent rfl rfl
  · exact (hin rest).trans (.transition e)

/-- Settles O60: `Appends.step`, with the added outputs read off as the rest of the trace. -/
theorem parametersNeverChange : Obligations.ParametersNeverChange := by
  intro s t he
  obtain ⟨hpar, new, hnew⟩ := Appends.step he
  exact ⟨hpar, new, hnew.symm⟩

end Sys2Proof.Machine

/-! ### O58, O59: the invariant at power-on and under every step (10_state.md R32, R34-R57) -/

namespace Sys2Proof.Machine

theorem exampleParams_valid : ParamsValid Config.exampleParams where
  cap := by decide
  nch := by decide
  nchMax := by decide
  version := by decide
  codesDistinct := by decide
  pendingUnused := by decide

/-- Settles O58: the block is not initialised at power-on, so only the parameters are to be checked. -/
theorem invHoldsAtReset : Obligations.InvHoldsAtReset :=
  ⟨exampleParams_valid, fun hi => by cases hi⟩

/-- Only an initialised block has a transition (10_state.md R32). -/
theorem initialised_of_transition {s : State} {r : Host.Outcome State Fault Refusal} (h : transition s = some r) :
    s.ctx.initialised = true := by
  unfold transition at h
  split at h
  · cases h
  · simp_all

theorem Inv.withInputs {s : State} (h : Inv s) (is : List Input) : Inv (s.withInputs is) :=
  ⟨h.params, fun hi => (h.live hi).env _⟩

/-- Settles O59: the parameters stay (`Appends.step`); a port operation and a transition keep `Live`, and a restart leaves
the block uninitialised. -/
theorem invKeptByStep : Obligations.InvKeptByStep := by
  intro s t h he
  refine ⟨(Appends.step he).par ▸ h.params, fun ht => ?_⟩
  rcases runInputs_next _ s he with ⟨op, rest, -, e⟩ | ⟨rest, -, rfl⟩ | ⟨rest, -, e⟩
  · exact (Live.port (h.withInputs rest).params (h.withInputs rest).live op e).2 ht
  · cases ht
  · exact transition_live ((h.withInputs rest).live (initialised_of_transition e)) h.params.cap e

end Sys2Proof.Machine

/-! ### O24, O31: the tick, and the ports while a packet is at the dispatcher (10_state.md R56, R62, R63) -/

namespace Sys2Proof.Machine

/-- `guarded_next` the other way: on an initialised block the guard passes (10_state.md R32). -/
theorem guarded_initialised {s : State} (hi : s.ctx.initialised = true) (r : Host.Outcome State Fault Refusal) :
    guarded s r = r := if_pos hi

/-- A saturating increment stops at the largest word and is the increment mod 2^32 below it (00_scope.md R12). -/
theorem sat32_succ (e : Word) : sat32 (e.toNat + 1) = if e = 0xFFFFFFFF#32 then 0xFFFFFFFF#32 else e + 1#32 := by
  unfold sat32
  split
  · subst e; rfl
  · bv_omega

/-- Settles O24: `tick` with its saturating increment written out. -/
theorem tickAdvancesTime : Obligations.TickAdvancesTime := by
  intro s hi
  rw [show execPort .tick s = .next (tick s) from guarded_initialised hi _]
  unfold tick
  rw [sat32_succ]
  rfl

/-- Outside WAIT_ACK every transition waits for `dispatch_done` (10_state.md R56, 43_framing_fsm.md R373). -/
theorem transition_inDispatch {s : State} (hd : s.ctx.inDispatch = true) (hw : s.ctx.state ≠ .waitAck) :
    transition s = none := by
  unfold transition
  cases hs : s.ctx.state with
  | waitAck => exact absurd hs hw
  | _ => simp [hd]

/-- A push is answered, whether the claim is granted or refused (40_staging_buffer.md R212). -/
theorem portPush_answers (b : List Byte) (s : State) : ∃ r t, portPush b s = answer r t := by
  unfold portPush
  rcases claim b.length s with ⟨_ | start, u⟩
  · exact ⟨_, _, rfl⟩
  · simp only
    split <;> exact ⟨_, _, rfl⟩

/-- Settles O31: no transition fires, `dispatch_done` passes its own check, and the other ports never fault. -/
theorem dispatcherStalls : Obligations.DispatcherStalls := by
  intro s hi hd
  refine ⟨transition_inDispatch hd, ?_, ⟨tick s, guarded_initialised hi _⟩, fun b => ?_, fun c => ?_, fun d => ?_⟩
  · exact (guarded_initialised hi (portDispatchDone s)).trans (if_pos hd)
  · obtain ⟨r, t, e⟩ := portPush_answers b s
    exact ⟨_, (guarded_initialised hi (portPush b s)).trans e⟩
  · exact ⟨_, guarded_initialised hi (portSend c s)⟩
  · exact ⟨_, guarded_initialised hi (portRegister d s)⟩

end Sys2Proof.Machine

/-! ### O47: the frame of every instruction (10_state.md R30, R48)

`Framed L C s t` is a reflexive and transitive relation between states, as `Appends` is. Two parts change under some
instructions only: the lock times under LOCK, and the configuration under SYNC and SET_CAPS. The propositions `L` and `C` say
when they stay, so one relation serves every instruction. -/

namespace Sys2Proof.Machine

/-- The parts of the state that no instruction changes, but for the parameters. -/
structure Frozen where
  sb : StagingBuffer
  slots : List (Option Descriptor)
  inputs : List Input
  initialised : Bool
  defaultCfg : Config.Cfg
  now : Word
  received : Word
  sequenceErrors : Word
  retransmits : Word

/-- The frozen parts of a state. -/
def State.frozen (s : State) : Frozen where
  sb := s.sb
  slots := s.reg.slots
  inputs := s.env.inputs
  initialised := s.ctx.initialised
  defaultCfg := s.ctx.defaultCfg
  now := s.ctx.now
  received := s.ctx.stats.received
  sequenceErrors := s.ctx.stats.sequenceErrors
  retransmits := s.ctx.stats.retransmits

/-- The frozen parts stay; the whole registry stays if `L`, and the configuration if `C`. -/
structure Framed (L C : Prop) (s t : State) : Prop where
  frozen : t.frozen = s.frozen
  reg : L → t.reg = s.reg
  cfg : C → t.ctx.cfg = s.ctx.cfg

section
variable {L C : Prop}

theorem Framed.refl (s : State) : Framed L C s s := ⟨rfl, fun _ => rfl, fun _ => rfl⟩

theorem Framed.trans {s t u : State} (h : Framed L C s t) (g : Framed L C t u) : Framed L C s u :=
  ⟨g.frozen.trans h.frozen, fun l => (g.reg l).trans (h.reg l), fun c => (g.cfg c).trans (h.cfg c)⟩

/-- An update of other parts than the registry and the configuration. -/
theorem Framed.of_eq {s t : State} (hf : t.frozen = s.frozen) (hr : t.reg = s.reg) (hc : t.ctx.cfg = s.ctx.cfg) :
    Framed L C s t := ⟨hf, fun _ => hr, fun _ => hc⟩

theorem Framed.of_draw {s t : State} {a : Bool} (h : draw s = (a, t)) : Framed L C s t := by
  obtain ⟨ans, n, e⟩ := draw_frame s
  rw [h] at e
  rw [show t = _ from e]
  exact .of_eq rfl rfl rfl

theorem Framed.emit (o : Output) (s : State) : Framed L C s (emit o s) := .of_eq rfl rfl rfl

theorem Framed.setFragRest (cs : List Chunk) (s : State) : Framed L C s (setFragRest cs s) := .of_eq rfl rfl rfl

theorem Framed.setAckStatus (v : Half) (s : State) : Framed L C s (setAckStatus v s) := .of_eq rfl rfl rfl

theorem Framed.exitWait (s : State) : Framed L C s (exitWait s) := .of_eq rfl rfl rfl

theorem Framed.countChecksumError (s : State) : Framed L C s (countChecksumError s) := .of_eq rfl rfl rfl

theorem Framed.clearScanOffset (s : State) : Framed L C s (s.withCtx { s.ctx with scanOffset := 0 }) := .of_eq rfl rfl rfl

/-! #### The send path (44_reliable_delivery.md R420-R444) -/

theorem Framed.countWrite (p : Pkt) (s : State) : Framed L C s (countWrite p s) := by
  unfold Machine.countWrite
  simp only
  split <;> exact .of_eq rfl rfl rfl

theorem Framed.transmitOnce (p : Pkt) (s : State) : Framed L C s (transmitOnce p s).2 := by
  rcases transmitOnce_cases p s with ⟨-, e⟩ | ⟨d, s1, -, h1, e⟩ | ⟨d, s1, s2, -, h1, h2, e⟩ | ⟨d, s1, s2, -, h1, h2, e⟩ <;>
    rw [e]
  · exact .of_eq rfl rfl rfl
  · exact (of_draw h1).trans (.of_eq rfl rfl rfl)
  · exact (of_draw h1).trans <| (of_draw h2).trans (.of_eq rfl rfl rfl)
  · exact (of_draw h1).trans <| (of_draw h2).trans <| (Framed.emit _ s2).trans (.countWrite p _)

theorem Framed.sendOne (c : Chunk) (s : State) : Framed L C s (sendOne c s).2 := by
  have hw : Framed L C s _ := .transmitOnce (chunkPkt s c) s
  unfold Machine.sendOne
  simp only
  split
  · exact .refl s
  split <;> rename_i s1 e <;> rw [e] at hw
  · exact hw
  have hs : Framed L C s (if (stamp s c.opcode c.flags c.echoSeq).2 then advanceSeq s1 else s1) := by
    split
    · exact hw.trans (.of_eq rfl rfl rfl)
    · exact hw
  split
  · exact hs.trans (.of_eq rfl rfl rfl)
  · exact hs

theorem Framed.sendAll (cs : List Chunk) (s : State) : Framed L C s (sendAll cs s).2 := by
  induction cs generalizing s with
  | nil => exact .refl s
  | cons c cs ih =>
    have hc : Framed L C s _ := .sendOne c s
    unfold Machine.sendAll
    split <;> rename_i e <;> rw [e] at hc
    · exact hc.trans (ih _)
    · exact hc

/-- A chunk sent with the rest of its payload held back (44_reliable_delivery.md R440, R444). -/
theorem Framed.sendOne_setFragRest (c : Chunk) (rest : List Chunk) (s : State) :
    Framed L C s (Machine.sendOne c (Machine.setFragRest rest s)).2 :=
  (Framed.setFragRest rest s).trans (.sendOne c _)

theorem Framed.sendFragmented (c : Chunk) (s : State) : Framed L C s (sendFragmented c s).2 := by
  unfold Machine.sendFragmented
  simp only
  split
  · exact .refl s
  split
  · exact .sendAll _ s
  split
  · exact .refl s
  rename_i c1 rest _
  have h1 : Framed L C s _ := .sendOne_setFragRest c1 rest s
  split <;> rename_i e <;> rw [e] at h1
  · exact h1
  · exact h1.trans (.of_eq rfl rfl rfl)

theorem Framed.sendChunk (c : Chunk) (s : State) : Framed L C s (sendChunk c s).2 := by
  unfold Machine.sendChunk
  split
  · exact .sendFragmented c s
  · exact .sendOne c s

theorem Framed.sendAck (h : Hdr) (payload : List Byte) (s : State) : Framed L C s (sendAck h payload s) := .sendChunk _ s

theorem Framed.sendStatus (h : Hdr) (st : Status) (s : State) : Framed L C s (sendStatus h st s) := .sendChunk _ s

/-! #### The ends of a wait and the reset -/

theorem Framed.continueFragments (s : State) : Framed L C s (continueFragments s) := by
  unfold Machine.continueFragments
  split
  · exact .refl s
  rename_i c rest _
  have h1 : Framed L C s _ := .sendOne_setFragRest c rest s
  split <;> rename_i e <;> rw [e] at h1
  · exact h1
  · exact h1.trans (.of_eq rfl rfl rfl)

theorem Framed.endAck (s : State) : Framed L C s (endAck s) := by
  unfold Machine.endAck
  simp only
  split
  · exact .of_eq rfl rfl rfl
  · exact (Framed.setAckStatus _ s).trans <| (Framed.exitWait _).trans (.continueFragments _)

theorem Framed.failWait (code : Half) (s : State) : Framed L C s (failWait code s) := .of_eq rfl rfl rfl

/-- A reset restores the default configuration (70_reset_and_hazards.md R702). -/
theorem Framed.protocolReset (hC : ¬ C) (s : State) : Framed L C s (protocolReset s) := by
  unfold Machine.protocolReset failOpenWait
  split <;> exact ⟨rfl, fun _ => rfl, fun c => absurd c hC⟩

/-! #### The instructions (43_framing_fsm.md R364) -/

theorem Framed.reject (st : Status) (p : Rx) (s : State) : Framed L C s (reject st p s) := by
  unfold Machine.reject
  split
  · exact (Framed.countChecksumError s).trans (.sendStatus _ st _)
  · exact .sendStatus _ st s

theorem Framed.acceptSeq (p : Rx) (s : State) : Framed L C s (acceptSeq p s) := by
  unfold Machine.acceptSeq
  split
  · exact .refl s
  · exact .of_eq rfl rfl rfl

theorem Framed.deliver (p : Rx) (s : State) : Framed L C s (deliver p s) := .of_eq rfl rfl rfl

theorem Framed.setLastLock (hL : ¬ L) (id : Nat) (v : Option Word) (s : State) : Framed L C s (setLastLock id v s) :=
  ⟨rfl, fun l => absurd l hL, fun _ => rfl⟩

theorem Framed.syncFound (hC : ¬ C) (h : Hdr) (s : State) : Framed L C s (syncFound h s) := by
  have hw : Framed L C s (if s.ctx.state = .waitAck then Machine.failWait (codeOf s .failed) s else s) := by
    split
    · exact .failWait _ s
    · exact .refl s
  unfold Machine.syncFound
  exact hw.trans <| (Framed.clearScanOffset _).trans <| (Framed.protocolReset hC _).trans (.sendAck h [] _)

theorem Framed.setCaps (hC : ¬ C) (p : Rx) (s : State) : Framed L C s (setCaps p s) := by
  unfold Machine.setCaps
  split
  · exact .sendStatus _ _ s
  split
  · exact .sendStatus _ _ s
  · exact (Framed.sendAck p.hdr [] s).trans ⟨rfl, fun _ => rfl, fun c => absurd c hC⟩

/-- A command frames what its handler does. -/
theorem Framed.of_accept {p : Rx} {s t : State} {handle : State → State} (he : accept p s handle = .next t)
    (hh : ∀ u, Framed L C u (handle u)) : Framed L C s t := by
  rcases accept_next he with ⟨-, ⟨st, -, rfl⟩ | ⟨-, rfl⟩⟩
  · exact .reject st p s
  · exact (Framed.acceptSeq p s).trans (hh _)

/-- A command whose handler answers with an ACK that carries `g` of the state (45_opcodes.md R501, R503, R504). -/
theorem Framed.of_accept_ack {p : Rx} {s t : State} (g : State → List Byte)
    (he : accept p s (fun u => Machine.sendAck p.hdr (g u) u) = .next t) : Framed L C s t :=
  of_accept he fun u => .sendAck p.hdr (g u) u

/-- A response frames what the end of its wait does. -/
theorem Framed.of_respond {p : Rx} {s t : State} {finish : State → State} (he : respond p s finish = .next t)
    (hf : Framed L C s (finish s)) : Framed L C s t := by
  rcases respond_next he with ⟨-, ⟨-, rfl⟩ | ⟨-, rfl⟩⟩
  · exact hf
  · exact .refl _

end

/-- The instruction leaves every lock time as it is. -/
def LocksKeptBy (i : Instr) : Prop := ∀ u f, i ≠ .lock u f

/-- The instruction leaves the configuration as it is. -/
def CfgKeptBy (i : Instr) : Prop := (∀ u f, i ≠ .sync u f) ∧ ∀ u f, i ≠ .setCaps u f

theorem Framed.exec {i : Instr} {s t : State} (he : exec i s = .next t) :
    Framed (LocksKeptBy i) (CfgKeptBy i) s t := by
  cases i with
  | sync u f => exact of_accept he (.syncFound (fun ⟨hs, _⟩ => hs u f rfl) _)
  | getCaps u f => exact of_accept_ack (fun v => capsPayload v.ctx.cfg) he
  | setCaps u f => exact of_accept he (.setCaps (fun ⟨_, hc⟩ => hc u f rfl) _)
  | stats u f => exact of_accept_ack (fun v => statsPayload v.par.statsLayout v.ctx.stats) he
  | version u f => exact of_accept_ack (fun v => v.par.versionPayload) he
  | lock u f =>
    unfold Machine.exec execLock at he
    exact of_accept he fun v => (Framed.setLastLock (fun hl => hl u f rfl) _ _ v).trans (.deliver _ _)
  | ack op u f => exact of_respond he (.endAck s)
  | nak op a u f => exact of_respond he (.failWait _ s)
  | _ => exact of_accept he (.deliver _)

/-! #### Every instruction runs -/

theorem accept_runs {s : State} (hi : s.ctx.initialised = true) (p : Rx) (handle : State → State) :
    ∃ t, accept p s handle = .next t := by
  cases hr : rejection s p with
  | none => exact ⟨_, accept_handled hi hr⟩
  | some st => exact ⟨_, accept_rejected hi hr⟩

theorem respond_runs {s : State} (hi : s.ctx.initialised = true) (p : Rx) (finish : State → State) :
    ∃ t, respond p s finish = .next t := ⟨_, if_pos hi⟩

theorem exec_runs {s : State} (hi : s.ctx.initialised = true) (i : Instr) : ∃ t, exec i s = .next t := by
  cases i with
  | ack op u f => exact respond_runs hi _ _
  | nak op a u f => exact respond_runs hi _ _
  | getCaps u f => unfold exec execGetCaps; exact accept_runs hi _ _
  | stats u f => unfold exec execStats; exact accept_runs hi _ _
  | version u f => unfold exec execVersion; exact accept_runs hi _ _
  | lock u f => unfold exec execLock; exact accept_runs hi _ _
  | _ => exact accept_runs hi _ _

/-! #### What a command other than SYNC writes of the context -/

/-- At most the counters, the sequence number, the configuration and `in_dispatch` differ. -/
def CommandWrites (s t : State) : Prop :=
  ∃ (st : Stats) (sq : Byte) (cfg : Config.Cfg) (d : Bool),
    t.ctx = { s.ctx with stats := st, seq := sq, cfg := cfg, inDispatch := d }

theorem CommandWrites.of_quiet {s t : State} (h : Quiet s t) : CommandWrites s t := by
  obtain ⟨st, sq, hc⟩ := h.ctx
  exact ⟨st, sq, s.ctx.cfg, s.ctx.inDispatch, hc⟩

theorem CommandWrites.trans {s t u : State} (h : CommandWrites s t) (g : CommandWrites t u) : CommandWrites s u := by
  obtain ⟨_, _, _, _, hc⟩ := h
  obtain ⟨st, sq, cfg, d, gc⟩ := g
  exact ⟨st, sq, cfg, d, by rw [gc, hc]⟩

theorem CommandWrites.deliver (p : Rx) (s : State) : CommandWrites s (deliver p s) :=
  ⟨s.ctx.stats, s.ctx.seq, s.ctx.cfg, true, rfl⟩

theorem CommandWrites.sendAck (h : Hdr) (payload : List Byte) (s : State) : CommandWrites s (sendAck h payload s) :=
  .of_quiet (sendAck_quiet h payload s)

theorem CommandWrites.setCaps (p : Rx) (s : State) : CommandWrites s (setCaps p s) := by
  unfold Machine.setCaps
  split
  · exact .of_quiet (sendStatus_quiet _ _ s)
  split
  · exact .of_quiet (sendStatus_quiet _ _ s)
  · exact (CommandWrites.sendAck p.hdr [] s).trans ⟨_, _, _, _, rfl⟩

theorem CommandWrites.of_accept {p : Rx} {s t : State} {handle : State → State} (he : accept p s handle = .next t)
    (hh : ∀ u, CommandWrites u (handle u)) : CommandWrites s t := by
  rcases accept_next he with ⟨-, ⟨st, -, rfl⟩ | ⟨-, rfl⟩⟩
  · exact .of_quiet (reject_quiet st p s)
  · exact (CommandWrites.of_quiet (acceptSeq_quiet p s)).trans (hh _)

theorem CommandWrites.of_accept_ack {p : Rx} {s t : State} (g : State → List Byte)
    (he : accept p s (fun u => Machine.sendAck p.hdr (g u) u) = .next t) : CommandWrites s t :=
  of_accept he fun u => .sendAck p.hdr (g u) u

/-- The flags of an ACK or a NAK mark a response (30_encoding.md R151). -/
theorem isResponse_ackFlags (u : UpperFlags) : isResponse (ackFlags u) = true := by
  revert u; decide

theorem isResponse_nakFlags (a : Bool) (u : UpperFlags) : isResponse (nakFlags a u) = true := by
  revert a u; decide

theorem CommandWrites.exec {i : Instr} {s t : State} (hs : ∀ u f, i ≠ .sync u f)
    (hr : isResponse i.rx.hdr.flags = false) (he : exec i s = .next t) : CommandWrites s t := by
  cases i with
  | sync u f => exact absurd rfl (hs u f)
  | getCaps u f => exact of_accept_ack (fun v => capsPayload v.ctx.cfg) he
  | setCaps u f => exact of_accept he (.setCaps _)
  | stats u f => exact of_accept_ack (fun v => statsPayload v.par.statsLayout v.ctx.stats) he
  | version u f => exact of_accept_ack (fun v => v.par.versionPayload) he
  | lock u f =>
    unfold Machine.exec execLock at he
    exact of_accept he fun v => .deliver _ (setLastLock _ _ v)
  | ack op u f => exact absurd ((isResponse_ackFlags u).symm.trans hr) (by decide)
  | nak op a u f => exact absurd ((isResponse_nakFlags a u).symm.trans hr) (by decide)
  | _ => exact of_accept he (.deliver _)

/-- Settles O47: `exec_runs` gives the next state, `Framed.exec` its frame, `Appends.exec` its parameters and
`CommandWrites.exec` the context of a command. -/
theorem instructionFrame : Obligations.InstructionFrame := by
  intro i s hi
  obtain ⟨t, he⟩ := exec_runs hi i
  have h := Framed.exec he
  have hz := h.frozen
  simp only [State.frozen, Frozen.mk.injEq] at hz
  obtain ⟨hsb, hslots, hinputs, hinit, hdefault, hnow, hreceived, hsequence, hretransmits⟩ := hz
  exact ⟨t, he, hsb, fun a => by rw [hsb], (Appends.exec he).par, hslots, hinputs, hinit, hdefault, hnow, hreceived,
    hsequence, hretransmits, h.reg, fun hs hc => h.cfg ⟨hs, hc⟩, fun hs hr => CommandWrites.exec hs hr he⟩

end Sys2Proof.Machine

/-! ### O15: what the read operations return (40_staging_buffer.md R202-R205, 42_channel_registry.md R302, R303)

Each read operation is `answer r s`, so it writes nothing (20_memory.md R107); what is left is its value `r`. -/

namespace Sys2Proof.Machine

/-- A 16-bit read at `k` is the byte at `k + 1` above the byte at `k` (00_scope.md R13, 10_state.md R14). -/
theorem le16_memRead (s : State) (k : Nat) :
    le16 (memRead s k 2) 0 = byteAt s (s.sb.rd + k + 1) ++ byteAt s (s.sb.rd + k) := rfl

/-- `registry_find` gives exactly the descriptors of the occupied slots below NCH (42_channel_registry.md R302). -/
theorem registryFind_eq_some_iff {s : State} {i : Nat} {d : Descriptor} :
    registryFind s i = some d ↔ i < s.par.nch ∧ s.reg.slots[i]? = some (some d) := by
  unfold registryFind
  split
  next hi => rw [Option.join_eq_some_iff, and_iff_right hi]
  next hi => simp [hi]

/-- The operations of a transport by their bits (10_state.md R53, 42_channel_registry.md R303). -/
theorem isTransport_iff {d : Descriptor} :
    isTransport d = true ↔ d.ops.getLsbD 6 ∧ d.ops.getLsbD 7 ∧ d.ops.getLsbD 4 ∧ d.ops.getLsbD 11 := by
  simp [isTransport, hasOp, channelOpBit, and_assoc]

/-- `registry_find_transport` gives the descriptor in slot 0 exactly when that is a transport (42_channel_registry.md R303). -/
theorem findTransport_eq_some_iff {s : State} {d : Descriptor} :
    findTransport s = some d ↔ registryFind s 0 = some d ∧ isTransport d = true := by
  unfold findTransport
  cases registryFind s 0 with
  | none => simp
  | some e =>
    by_cases he : isTransport e = true
    · simp only [he, if_true, Option.some.injEq]
      exact ⟨fun h => ⟨h, h ▸ he⟩, fun h => h.1⟩
    · simp only [he, if_false, Option.some.injEq, reduceCtorEq, false_iff]
      exact fun ⟨h, hd⟩ => he (h ▸ hd)

/-- A peek that finds its two bytes returns them (40_staging_buffer.md R204). -/
theorem portPeekU16_of_le {s : State} (h : 2 ≤ s.sb.used) :
    portPeekU16 s = answer (.half (byteAt s (s.sb.rd + 1) ++ byteAt s s.sb.rd)) s := by
  unfold portPeekU16
  rw [if_neg (by omega), le16_memRead]
  rfl

/-- A lookup that finds a descriptor answers with it (42_channel_registry.md R302, R303). -/
theorem answer_lookup_some {o : Option Descriptor} {d : Descriptor} (h : o = some d) (s : State) :
    answer (retDescriptor o) s = answer (.descriptor d) s := by
  rw [h]; rfl

/-- A lookup that finds nothing answers NONE (42_channel_registry.md R302, R303). -/
theorem answer_lookup_none {o : Option Descriptor} (h : o = none) (s : State) :
    answer (retDescriptor o) s = answer .none s := by
  rw [h]; rfl

/-- Settles O15: on an initialised block the guard passes, and each read operation answers with its value; the two lookups
find what `registryFind_eq_some_iff` and `findTransport_eq_some_iff` say. -/
theorem readsWriteNothing : Obligations.ReadsWriteNothing := by
  intro s id hi
  have passes (r : Host.Outcome State Fault Refusal) : guarded s r = r := guarded_initialised hi r
  refine ⟨passes _, passes _, passes _, fun hused => ?peek, fun d hd => ?found, fun hd => ?notFound,
    fun d hd hops => ?transport, fun hd => ?noTransport⟩
  case peek => exact (passes _).trans (portPeekU16_of_le hused)
  case found => exact (passes _).trans (answer_lookup_some (registryFind_eq_some_iff.mpr hd) s)
  case notFound =>
    have hnone : registryFind s id.toNat = none :=
      Option.eq_none_iff_forall_ne_some.mpr fun d h => hd d (registryFind_eq_some_iff.mp h)
    exact (passes _).trans (answer_lookup_none hnone s)
  case transport =>
    have hsome : findTransport s = some d :=
      findTransport_eq_some_iff.mpr ⟨registryFind_eq_some_iff.mpr hd, isTransport_iff.mpr hops⟩
    exact (passes _).trans (answer_lookup_some hsome s)
  case noTransport =>
    have hnone : findTransport s = none := Option.eq_none_iff_forall_ne_some.mpr fun d h => by
      obtain ⟨hslot, hops⟩ := findTransport_eq_some_iff.mp h
      exact hd d (registryFind_eq_some_iff.mp hslot) (isTransport_iff.mp hops)
    exact (passes _).trans (answer_lookup_none hnone s)

end Sys2Proof.Machine

/-! ### O1, O2: the bytes of an instruction, read and written (30_encoding.md R140, R142) -/

namespace Sys2Proof

/-- The bytes that decode: a whole packet behind the sync word, classified as an instruction (30_encoding.md R140, R151). -/
theorem decode_eq_ok_iff {bs : List Byte} {i : Instr} {rest : List Byte} :
    decode bs = .ok (i, rest) ↔ le16 bs 0 = Config.syncWord ∧ packetTotalSize (hdrOf bs).length ≤ bs.length ∧
      classify (rxOf bs) = some i ∧ bs.drop (packetTotalSize (hdrOf bs).length) = rest := by
  have hsize : Config.headerSize ≤ packetTotalSize (hdrOf bs).length := by unfold packetTotalSize; omega
  have hhdr : (rxOf bs).hdr = hdrOf bs := rfl
  unfold decode
  simp only [hhdr]
  split
  next hshort => simp; omega
  next hlong =>
    split
    next hsync => simp [hsync]
    next hsync =>
      split
      next hcut => simp; omega
      next hwhole =>
        cases classify (rxOf bs) with
        | none => simp
        | some j => simp_all

/-- What makes an instruction well-formed, read off its packet (30_encoding.md R140, R142). -/
theorem Instr.wellFormed_iff_rx (i : Instr) :
    i.wellFormed = true ↔ i.rx.payload.length < 65536 ∧ (i.rx.payload = [] → i.rx.payloadCrc = 0#32) := by
  have hpayload : i.rx.payload = i.frame.payload := by cases i <;> rfl
  have hcrc : i.rx.payloadCrc = i.frame.payloadCrc := by cases i <;> rfl
  rw [hpayload, hcrc]
  simp [Instr.wellFormed, Frame.lengthFits, Frame.crcPresence, imp_iff_not_or]

/-- Settles O1: the encoded bytes spell the instruction's packet (`rxOf_encode`), and that packet is classified as the
instruction (`classify_rx`). -/
theorem decodeEncodeRoundTrip : Obligations.DecodeEncodeRoundTrip := by
  intro i rest hwf
  obtain ⟨hsize, hlen, hcrc⟩ := encode_facts hwf
  have hrx : rxOf (encode i ++ rest) = i.rx := rxOf_encode i.rx.hdr i.rx.payload i.rx.payloadCrc rest hlen hcrc
  have hhdr : hdrOf (encode i ++ rest) = i.rx.hdr := congrArg Rx.hdr hrx
  rw [decode_eq_ok_iff, hrx, hhdr, ← hsize]
  refine ⟨?_, ?_, classify_rx i, List.drop_left⟩
  · rw [encode, List.append_assoc]; exact le16_headerBytes_sync _ _
  · rw [List.length_append]; exact Nat.le_add_right _ _

/-- A payload CRC field written back is the four bytes it was read from (00_scope.md R13). -/
theorem enc32_le32 {bs : List Byte} {k : Nat} (h : k + 4 ≤ bs.length) : enc32 (le32 bs k) = (bs.drop k).take 4 := by
  rw [← four_bytes bs k h]; exact enc32_append ..

/-- A payload of the length the header promises, when the bytes hold the whole packet (30_encoding.md R140, R142). -/
theorem rxOf_payload_length {bs : List Byte} (h : packetTotalSize (hdrOf bs).length ≤ bs.length) :
    (rxOf bs).payload.length = (hdrOf bs).length.toNat := by
  have hmin : (rxOf bs).payload.length = min (hdrOf bs).length.toNat (bs.length - Config.headerSize) := by simp [rxOf]
  unfold packetTotalSize at h
  omega

/-- The bytes behind the header, up to the packet's size, are the body the packet record spells (30_encoding.md R142). -/
theorem bodyBytes_rxOf {bs : List Byte} (h : packetTotalSize (hdrOf bs).length ≤ bs.length) :
    bodyBytes (rxOf bs).payload (rxOf bs).payloadCrc ++ bs.drop (packetTotalSize (hdrOf bs).length)
      = bs.drop Config.headerSize := by
  have hlen := rxOf_payload_length h
  unfold packetTotalSize at h ⊢
  by_cases h0 : (hdrOf bs).length = 0#16
  · have hnil : (rxOf bs).payload = [] := List.eq_nil_of_length_eq_zero (by rw [hlen, h0]; rfl)
    simp [bodyBytes, hnil, h0]
  · have hne : (rxOf bs).payload ≠ [] := by
      intro hnil
      rw [hnil] at hlen
      exact h0 (BitVec.eq_of_toNat_eq hlen.symm)
    have hpayload : (rxOf bs).payload = (bs.drop Config.headerSize).take (hdrOf bs).length.toNat := rfl
    have hcrc : (rxOf bs).payloadCrc = le32 (bs.drop Config.headerSize) (hdrOf bs).length.toNat := if_neg h0
    have hfield : (hdrOf bs).length.toNat + 4 ≤ (bs.drop Config.headerSize).length := by
      rw [if_neg h0, Config.payloadCrcSize] at h
      rw [List.length_drop]; omega
    rw [bodyBytes, if_neg (by simpa using hne), hpayload, hcrc, enc32_le32 hfield, if_neg h0, ← List.drop_drop,
      ← List.drop_drop, List.append_assoc, Config.payloadCrcSize, List.take_append_drop, List.take_append_drop]

/-- Settles O2: the header (`header_of_bytes`) and the body (`bodyBytes_rxOf`) of the packet are the bytes it was read from,
and the instruction stands for that packet (`rx_of_classify`). -/
theorem decodedBytesAreTheEncoding : Obligations.DecodedBytesAreTheEncoding := by
  intro bs i rest h
  obtain ⟨hsync, hwhole, hclass, hrest⟩ := decode_eq_ok_iff.mp h
  have hlen := rxOf_payload_length hwhole
  have hrx : i.rx = rxOf bs := rx_of_classify (rxOf bs) i hclass (by rw [hlen]; simp [rxOf])
  have hheader : Config.headerSize ≤ bs.length := by unfold packetTotalSize at hwhole; omega
  constructor
  · rw [Instr.wellFormed_iff_rx, hrx]
    refine ⟨hlen ▸ (hdrOf bs).length.isLt, fun hnil => ?_⟩
    rw [hnil] at hlen
    exact if_pos (BitVec.eq_of_toNat_eq hlen.symm)
  · calc bs = headerBytes (hdrOf bs) ++ bs.drop Config.headerSize := header_of_bytes bs hheader hsync
      _ = headerBytes (rxOf bs).hdr ++ (bodyBytes (rxOf bs).payload (rxOf bs).payloadCrc ++ rest) := by
        rw [← bodyBytes_rxOf hwhole, hrest]; rfl
      _ = encode i ++ rest := by rw [encode, hrx, List.append_assoc]

end Sys2Proof

/-! ### O3, O4: the dispatch key, and the example packets (30_encoding.md R147, R151) -/

namespace Sys2Proof

/-- The dispatch key of 30_encoding.md R151. -/
def dispatchKey (flags opcode : Byte) : BitVec 16 := (flags.setWidth 16 <<< 8) ||| opcode.setWidth 16

/-- The key holds the flags byte above the opcode byte. -/
theorem dispatchKey_eq_append (flags opcode : Byte) : dispatchKey flags opcode = flags ++ opcode := by
  rw [BitVec.append_def, BitVec.shiftLeftZeroExtend_eq]; rfl

/-- A mask of one bit tests that bit. -/
theorem and_twoPow_eq_iff {w k : Nat} (hk : k < w) (v : BitVec w) :
    v &&& BitVec.twoPow w k = BitVec.twoPow w k ↔ v.getLsbD k = true := by
  constructor
  · intro h
    simpa [hk] using congrArg (fun x => BitVec.getLsbD x k) h
  · intro h
    rw [BitVec.and_twoPow, if_pos h]

/-- Bit `k + 8` of the key is flag bit `k`. -/
theorem dispatchKey_and_twoPow (flags opcode : Byte) (k : Nat) (hk : k < 8) :
    dispatchKey flags opcode &&& BitVec.twoPow 16 (k + 8) = BitVec.twoPow 16 (k + 8) ↔ flags.getLsbD k = true := by
  rw [and_twoPow_eq_iff (by omega), dispatchKey_eq_append, BitVec.getLsbD_append, if_neg (by omega), Nat.add_sub_cancel]

/-- The low byte of the key is the opcode. -/
theorem dispatchKey_and_opcode (flags opcode : Byte) : (dispatchKey flags opcode &&& 0x00FF#16).toNat = opcode.toNat := by
  calc (dispatchKey flags opcode &&& 0x00FF#16).toNat = (dispatchKey flags opcode).toNat &&& 2 ^ 8 - 1 := rfl
    _ = (flags.toNat * 2 ^ 8 + opcode.toNat) % 2 ^ 8 := by
      rw [Nat.and_two_pow_sub_one_eq_mod, dispatchKey_eq_append, BitVec.toNat_append,
        ← Nat.shiftLeft_add_eq_or_of_lt opcode.isLt, Nat.shiftLeft_eq]
    _ = opcode.toNat := by omega

/-- The rows of the opcode table that an opcode selects (30_encoding.md R147). -/
def commandRows : List (Nat × (UpperFlags → Frame → Instr)) :=
  [(0x00, .sync), (0x01, .getCaps), (0x02, .setCaps), (0x03, .stats), (0x04, .version), (0x10, .reset),
   (0x11, .enterBootloader), (0x12, .systemInfo), (0x13, .systemEvent), (0x20, .list), (0x21, .poll), (0x22, .lock),
   (0x23, .unlock), (0x24, .shape), (0x25, .size), (0x26, .read), (0x27, .write), (0x28, .ioctl), (0x29, .event)]

/-- An opcode with a row is that row's instruction. -/
theorem commandOf_of_mem {r : Nat × (UpperFlags → Frame → Instr)} (hr : r ∈ commandRows) {op : Byte} (hop : op.toNat = r.1)
    (u : UpperFlags) (f : Frame) : commandOf op u f = some (r.2 u f) := by
  unfold commandOf
  rw [hop]
  fin_cases hr <;> rfl

/-- An opcode without a row is no instruction (30_encoding.md R150). -/
theorem commandOf_eq_none {op : Byte} (hop : ∀ r ∈ commandRows, op.toNat ≠ r.1) (u : UpperFlags) (f : Frame) :
    commandOf op u f = none := by
  have hcode : op.toNat ∉ commandRows.map Prod.fst := by
    intro hmem
    obtain ⟨r, hr, e⟩ := List.mem_map.mp hmem
    exact hop r hr e.symm
  unfold commandOf
  split
  case h_20 => rfl
  all_goals
    rename_i e
    exact absurd (by rw [e]; decide) hcode

/-- Settles O3: `classify` tests the flag bits and the opcode, which are the parts of the key. -/
theorem dispatchKeyClassifies : Obligations.DispatchKeyClassifies := by
  intro p key u rows
  have hnak : key &&& 0x0200#16 = 0x0200#16 ↔ p.hdr.flags.getLsbD 1 = true := dispatchKey_and_twoPow _ _ 1 (by decide)
  have hack : key &&& 0x0100#16 = 0x0100#16 ↔ p.hdr.flags.getLsbD 0 = true := dispatchKey_and_twoPow _ _ 0 (by decide)
  have hop : (key &&& 0x00FF#16).toNat = p.hdr.opcode.toNat := dispatchKey_and_opcode _ _
  simp only [hnak, hack, hop, classify]
  split
  next h1 => simp [u]
  next h1 =>
    split
    next h0 => rfl
    next h0 => exact ⟨fun r hr e => commandOf_of_mem hr e u p.frame, fun h => commandOf_eq_none h u p.frame⟩

/-- `decodeEncodeRoundTrip` for a packet written out, with nothing behind it. -/
theorem decode_of_encode {bs : List Byte} {i : Instr} (hwf : i.wellFormed = true) (hbs : encode i = bs) :
    decode bs = .ok (i, []) := by
  rw [← hbs, ← List.append_nil (encode i)]; exact decodeEncodeRoundTrip i [] hwf

/-- Settles O4: each packet is the encoding of its instruction. -/
theorem examplePacketsDecode : Obligations.ExamplePacketsDecode :=
  ⟨decode_of_encode (by decide) (by decide), decode_of_encode (by decide) (by decide),
    decode_of_encode (by decide) (by decide)⟩

end Sys2Proof

/-! ### O9 to O14: the operations on the staging buffer (40_staging_buffer.md R206-R214)

One rule a case of each operation on an initialised block. The statements follow from these rules and from what the effects
do to the readable bytes (`readable_claimRegion`, `readable_fill`, `readable_commit_filled`, `readable_consume`). -/

namespace Sys2Proof.Machine

/-! #### What each operation answers on an initialised block -/

section
variable {s : State} {n : Nat}

/-- The empty claim (40_staging_buffer.md R206, R213). -/
theorem execPort_claim_zero (hi : s.ctx.initialised = true) :
    execPort (.sbClaim 0) s = .next (emit (.returned (.region s.sb.wr 0)) s) := guarded_initialised hi _

/-- A refused claim ends the live one and changes nothing else (40_staging_buffer.md R206). -/
theorem execPort_claim_refused (hi : s.ctx.initialised = true) (h0 : 0 < n) (h : s.par.cap < s.sb.used + n) :
    execPort (.sbClaim n) s = .next (emit (.returned .none) (s.withSb { s.sb with claimLen := 0 })) := by
  refine (guarded_initialised hi (portClaim n s)).trans ?_
  unfold portClaim
  rw [claim_refused h0 h]
  rfl

/-- A granted claim returns the region behind the readable bytes (40_staging_buffer.md R206). -/
theorem execPort_claim_granted (hi : s.ctx.initialised = true) (h0 : 0 < n) (h : s.sb.used + n ≤ s.par.cap) :
    execPort (.sbClaim n) s =
      .next (emit (.returned (.region (claimRegion n s).sb.wr n)) (claimRegion n s)) := by
  refine (guarded_initialised hi (portClaim n s)).trans ?_
  unfold portClaim
  rw [claim_granted h0 h]
  rfl

/-- A fill from the start of the claimed region (40_staging_buffer.md R208). -/
theorem execPort_fill_front {v : List Byte} (hi : s.ctx.initialised = true) (h : v.length ≤ s.sb.claimLen) :
    execPort (.sbFill s.sb.wr v) s = .next (emit (.returned .done) (fillBytes s.sb.wr v s)) :=
  (guarded_initialised hi (portFill s.sb.wr v s)).trans (if_pos (by simp [fillAllowed, h]))

theorem execPort_commit_zero (hi : s.ctx.initialised = true) :
    execPort (.sbCommit 0) s = .next (emit (.returned .done) s) := guarded_initialised hi _

/-- A commit within the live claim (40_staging_buffer.md R209). -/
theorem execPort_commit (hi : s.ctx.initialised = true) (h0 : 0 < n) (h : n ≤ s.sb.claimLen) :
    execPort (.sbCommit n) s = .next (emit (.returned .done) (commitBytes n s)) :=
  (guarded_initialised hi (portCommit n s)).trans <| (if_neg (by omega)).trans (if_neg (by omega))

/-- A commit beyond the live claim (40_staging_buffer.md R209). -/
theorem execPort_commit_over (hi : s.ctx.initialised = true) (h : s.sb.claimLen < n) :
    execPort (.sbCommit n) s = .fault .commitOver :=
  (guarded_initialised hi (portCommit n s)).trans <| (if_neg (by omega)).trans (if_pos h)

theorem execPort_consume_zero (hi : s.ctx.initialised = true) :
    execPort (.sbConsume 0) s = .next (emit (.returned .done) s) := guarded_initialised hi _

/-- A consume of readable bytes (40_staging_buffer.md R210). -/
theorem execPort_consume (hi : s.ctx.initialised = true) (h0 : 0 < n) (h : n ≤ s.sb.used) :
    execPort (.sbConsume n) s = .next (emit (.returned .done) (consumeBytes n s)) :=
  (guarded_initialised hi (portConsume n s)).trans <| (if_neg (by omega)).trans (if_neg (by omega))

/-- A consume beyond the used count (40_staging_buffer.md R210). -/
theorem execPort_consume_over (hi : s.ctx.initialised = true) (h : s.sb.used < n) :
    execPort (.sbConsume n) s = .fault .consumeOver :=
  (guarded_initialised hi (portConsume n s)).trans <| (if_neg (by omega)).trans (if_pos h)

theorem execPort_push_nil (hi : s.ctx.initialised = true) :
    execPort (.sbPush []) s = .next (emit (.returned .done) s) := guarded_initialised hi _

/-- A push that fits is a claim, a fill of the whole region and its commit (40_staging_buffer.md R212). -/
theorem execPort_push_fits {b : List Byte} (hi : s.ctx.initialised = true) (h0 : b ≠ [])
    (h : s.sb.used + b.length ≤ s.par.cap) :
    execPort (.sbPush b) s = .next (emit (.returned .done)
      (commitBytes b.length (fillBytes (claimRegion b.length s).sb.wr b (claimRegion b.length s)))) := by
  refine (guarded_initialised hi (portPush b s)).trans ?_
  unfold portPush
  rw [claim_granted (List.length_pos_iff.mpr h0) h]
  exact if_neg (by simpa using h0)

/-- A push that does not fit is the refused claim (40_staging_buffer.md R212). -/
theorem execPort_push_refused {b : List Byte} (hi : s.ctx.initialised = true) (h0 : 0 < b.length)
    (h : s.par.cap < s.sb.used + b.length) :
    execPort (.sbPush b) s = .next (emit (.returned .none) (s.withSb { s.sb with claimLen := 0 })) := by
  refine (guarded_initialised hi (portPush b s)).trans ?_
  unfold portPush
  rw [claim_refused h0 h]
  rfl

end

/-! #### The cursors after a claim and after a consume, and the bytes after a claim that was filled -/

/-- With room in the tail the cursors stay; without it the readable bytes move to the front, and there were consumed bytes
before them (40_staging_buffer.md R206, R207). -/
theorem claimRegion_cursors {s : State} {n : Nat} (hv : BufferValid s.par.cap s.sb) (h : s.sb.used + n ≤ s.par.cap) :
    if n ≤ s.par.cap - s.sb.wr then (claimRegion n s).sb.rd = s.sb.rd ∧ (claimRegion n s).sb.wr = s.sb.wr
    else 0 < s.sb.rd ∧ (claimRegion n s).sb.rd = 0 ∧ (claimRegion n s).sb.wr = s.sb.used := by
  split
  next htail => rw [claimRegion_tail htail]; exact ⟨rfl, rfl⟩
  next htail =>
    have hcursors := hv.cursors
    have hconsumed : 0 < s.sb.rd := by omega
    rw [claimRegion_compact (by omega)]
    exact ⟨hconsumed, rfl, rfl⟩

/-- A consume of all there is resets the cursors; any other moves the read cursor (40_staging_buffer.md R210). -/
theorem consumeBytes_cursors {s : State} {n : Nat} (h0 : 0 < n) (h : n ≤ s.sb.used) :
    if n = s.sb.used then
      (consumeBytes n s).sb.rd = 0 ∧ (consumeBytes n s).sb.wr = 0 ∧ (consumeBytes n s).sb.used = 0
    else (consumeBytes n s).sb.rd = s.sb.rd + n ∧ (consumeBytes n s).sb.wr = s.sb.wr ∧
      (consumeBytes n s).sb.used = s.sb.used - n := by
  split
  next hall => rw [consumeBytes_drain h0 hall.ge]; exact ⟨rfl, rfl, rfl⟩
  next hall => rw [consumeBytes_part h0 (by omega)]; exact ⟨rfl, rfl, rfl⟩

/-- A consume ends the live claim (40_staging_buffer.md R214). -/
theorem consumeBytes_claimLen {n : Nat} (h0 : 0 < n) (s : State) : (consumeBytes n s).sb.claimLen = 0 := by
  rcases Nat.lt_or_ge n s.sb.used with hpart | hall
  · rw [consumeBytes_part h0 hpart]; rfl
  · rw [consumeBytes_drain h0 hall]; rfl

/-- What is filled at the front of a granted claim and committed is appended to the bytes that were readable before the claim
(40_staging_buffer.md R211). -/
theorem readable_claim_fill_commit {s : State} {n : Nat} (hv : BufferValid s.par.cap s.sb)
    (h : s.sb.used + n ≤ s.par.cap) (v : List Byte) :
    readable (commitBytes v.length (fillBytes (claimRegion n s).sb.wr v (claimRegion n s))) = readable s ++ v := by
  have hclaim := hv.claim h
  rw [readable_commit_filled hclaim.cursors hclaim.readable, readable_claimRegion hv.cursors]

/-! #### The statements -/

/-- Settles O13: a size of 0 is each operation's first case. -/
theorem zeroSizeOperations : Obligations.ZeroSizeOperations := fun _ hi =>
  ⟨execPort_claim_zero hi, execPort_commit_zero hi, execPort_consume_zero hi⟩

/-- A consume of more than 0 bytes that runs leaves an initialised block without a live claim (40_staging_buffer.md R214). -/
theorem consume_next_unclaimed {s t : State} {n : Nat} (h0 : 0 < n) (h : execPort (.sbConsume n) s = .next t) :
    t.ctx.initialised = true ∧ t.sb.claimLen = 0 := by
  have hi : s.ctx.initialised = true := (guarded_next h).1
  rcases Nat.lt_or_ge s.sb.used n with hover | hfits
  · rw [execPort_consume_over hi hover] at h; cases h
  · rw [execPort_consume hi h0 hfits] at h
    cases h
    exact ⟨by rw [emit_ctx, consumeBytes_ctx, hi], consumeBytes_claimLen h0 s⟩

/-- A claim of more than 0 bytes that returns NONE leaves an initialised block without a live claim: a granted one returns a
region (40_staging_buffer.md R206). -/
theorem claim_none_unclaimed {s t : State} {n : Nat} (h0 : 0 < n)
    (h : execPort (.sbClaim n) s = .next (emit (.returned .none) t)) : t.ctx.initialised = true ∧ t.sb.claimLen = 0 := by
  have hi : s.ctx.initialised = true := (guarded_next h).1
  rcases Nat.lt_or_ge s.par.cap (s.sb.used + n) with hover | hfits
  · rw [execPort_claim_refused hi h0 hover] at h
    have hstate := Host.Outcome.next.inj h
    have hctx : s.ctx = t.ctx := by simpa using congrArg State.ctx hstate
    have hsb : { s.sb with claimLen := 0 } = t.sb := by simpa using congrArg State.sb hstate
    exact ⟨hctx ▸ hi, hsb ▸ rfl⟩
  · rw [execPort_claim_granted hi h0 hfits] at h
    have houtputs := congrArg (fun u => u.env.outputs.getLast?) (Host.Outcome.next.inj h)
    simp at houtputs

/-- Settles O14: both leave no live claim, and every commit of more than 0 bytes is beyond that. -/
theorem invalidatedClaimCannotCommit : Obligations.InvalidatedClaimCannotCommit := by
  intro s t n m hn hm h
  have hunclaimed : t.ctx.initialised = true ∧ t.sb.claimLen = 0 :=
    h.elim (consume_next_unclaimed hn) (claim_none_unclaimed hn)
  obtain ⟨hi, hclaim⟩ := hunclaimed
  exact execPort_commit_over hi (by omega)

/-- Settles O9: the three cases of `sb_claim`, and the cursors with and without compaction. -/
theorem claimResult : Obligations.ClaimResult := by
  intro s n hi hv
  split
  next hzero => subst hzero; exact execPort_claim_zero hi
  next hzero =>
    have h0 : 0 < n := Nat.pos_of_ne_zero hzero
    split
    next hover => exact execPort_claim_refused hi h0 hover
    next hover =>
      have hfits : s.sb.used + n ≤ s.par.cap := Nat.le_of_not_lt hover
      exact ⟨claimRegion n s, execPort_claim_granted hi h0 hfits, claimRegion_par n s, claimRegion_ctx n s,
        claimRegion_reg n s, claimRegion_env n s, claimRegion_claimLen n s, claimRegion_used n s,
        readable_claimRegion hv.cursors n, claimRegion_cursors hv hfits⟩

/-- Settles O10: a push that fits claims, fills and commits its bytes, or is empty and does nothing. -/
theorem pushAppendsOrIsRefused : Obligations.PushAppendsOrIsRefused := by
  intro s b hi hv
  split
  next hfits =>
    by_cases hb : b = []
    · subst hb
      exact ⟨s, execPort_push_nil hi, (List.append_nil _).symm, rfl, rfl, rfl, rfl, rfl, rfl, rfl⟩
    · refine ⟨_, execPort_push_fits hi hb hfits, readable_claim_fill_commit hv hfits b, ?_⟩
      simp [commitBytes_eq]
  next hfits =>
    have hcap : s.par.cap < s.sb.used + b.length := Nat.lt_of_not_le hfits
    have hroom := hv.room
    have hcursors := hv.cursors
    exact execPort_push_refused hi (by omega) hcap

/-- Settles O11: the answers on the port change no byte, so `readable_claim_fill_commit` says what is readable in the end. -/
theorem claimFillCommitAppends : Obligations.ClaimFillCommitAppends := by
  intro s n v hi hv hfits hpos hlen
  have hinit : (claimRegion n s).ctx.initialised = true := by rw [claimRegion_ctx, hi]
  have hclaimed : v.length ≤ (claimRegion n s).sb.claimLen := by rwa [claimRegion_claimLen]
  refine ⟨_, _, _, execPort_claim_granted hi (by omega) hfits, execPort_fill_front hinit hclaimed, ?before,
    claimRegion_used n s, execPort_commit hinit hpos hclaimed, ?after, rfl⟩
  case before => exact (readable_fill (hv.claim hfits).cursors le_rfl v).trans (readable_claimRegion hv.cursors n)
  case after => exact readable_claim_fill_commit hv hfits v

/-- Settles O12: the three cases of `sb_consume`, and the cursors when it drains the buffer and when it does not. -/
theorem consumeDropsFront : Obligations.ConsumeDropsFront := by
  intro s n hi
  split
  next hzero => subst hzero; exact execPort_consume_zero hi
  next hzero =>
    have h0 : 0 < n := Nat.pos_of_ne_zero hzero
    split
    next hover => exact execPort_consume_over hi hover
    next hover =>
      have hfits : n ≤ s.sb.used := Nat.le_of_not_lt hover
      exact ⟨consumeBytes n s, execPort_consume hi h0 hfits, readable_consume n s, consumeBytes_bytes n s,
        consumeBytes_claimLen h0 s, consumeBytes_par n s, consumeBytes_ctx n s, consumeBytes_reg n s, consumeBytes_env n s,
        consumeBytes_cursors h0 hfits⟩

end Sys2Proof.Machine

/-! ### O6, O7, O8: a built header, a built packet, and the retransmission mark (41_packet_codec.md R251-R256, R260)

A header is its eight fields' bytes and the CRC field; whether it verifies is a statement about these two parts. -/

namespace Sys2Proof.Machine

open Sys2Proof.Config (Params)

/-- Two bytes are the encoding of the half they spell (00_scope.md R13). -/
theorem enc16_le16 {field : List Byte} (h : field.length = 2) : enc16 (le16 field 0) = field := by
  obtain ⟨a, b, rfl⟩ := List.length_eq_two.mp h
  exact enc16_append a b

theorem enc16_injective {v w : Half} (h : enc16 v = enc16 w) : v = w := by
  have hv := le16_enc16 [] [] v
  rw [h, le16_enc16] at hv
  exact hv.symm

/-! #### When ten bytes verify -/

/-- Eight bytes with a CRC field behind them verify exactly when the field is their CRC (41_packet_codec.md R253). -/
theorem verifyHeaderCrc_append_iff {par : Params} {fields field : List Byte} (hfields : fields.length = 8)
    (hfield : field.length = 2) :
    verifyHeaderCrc par true (fields ++ field) = true ↔ field = enc16 (crc16 par.crc16 fields) := by
  have hread : le16 (fields ++ field) 8 = le16 field 0 := by
    have h := le16_enc16 fields [] (le16 field 0)
    rwa [enc16_le16 hfield, List.append_nil, hfields] at h
  have htake : (fields ++ field).take 8 = fields := List.take_left' hfields
  rw [verifyHeaderCrc, hread, htake, Bool.not_true, Bool.false_or, beq_iff_eq]
  constructor
  · intro h; rw [← h, enc16_le16 hfield]
  · intro h; exact enc16_injective (by rw [enc16_le16 hfield, h])

/-- Nothing is checked while `crc_en` is 0 (41_packet_codec.md R253, R259). -/
theorem verifyHeaderCrc_of_enabled {par : Params} {raw : List Byte} (h : verifyHeaderCrc par true raw = true)
    (crcEn : Bool) : verifyHeaderCrc par crcEn raw = true := by
  cases crcEn
  case false => rfl
  case true => exact h

/-! #### The built header -/

/-- The bytes a header CRC covers (41_packet_codec.md R251). -/
def headerFields (sq ch fl op : Byte) (ln : Half) : List Byte :=
  [0xAA#8, 0xD5#8, sq, ch, wireFlags fl, op] ++ enc16 ln

theorem headerFields_length (sq ch fl op : Byte) (ln : Half) : (headerFields sq ch fl op ln).length = 8 := rfl

/-- The flags stand in byte 4 and nowhere else. -/
theorem headerFields_eq_set (sq ch fl op : Byte) (ln : Half) :
    headerFields sq ch fl op ln = (headerFields sq ch 0 op ln).set 4 (wireFlags fl) := rfl

theorem buildHeader_eq_append (par : Params) (sq ch fl op : Byte) (ln : Half) :
    buildHeader par sq ch fl op ln =
      headerFields sq ch fl op ln ++ enc16 (crc16 par.crc16 (headerFields sq ch fl op ln)) := rfl

theorem buildHeader_verifies (par : Params) (sq ch fl op : Byte) (ln : Half) :
    verifyHeaderCrc par true (buildHeader par sq ch fl op ln) = true :=
  (verifyHeaderCrc_append_iff rfl rfl).mpr rfl

/-- The fields a built header spells, whatever follows it. -/
theorem hdrOf_buildHeader (par : Params) (sq ch fl op : Byte) (ln : Half) (post : List Byte) :
    hdrOf (buildHeader par sq ch fl op ln ++ post) =
      ⟨sq, ch, wireFlags fl, op, ln, crc16 par.crc16 (headerFields sq ch fl op ln)⟩ := by
  rw [buildHeader_eq, hdrOf_headerBytes]; rfl

theorem le16_buildHeader_length (par : Params) (sq ch fl op : Byte) (ln : Half) :
    le16 (buildHeader par sq ch fl op ln) 6 = ln := by
  have h := congrArg Hdr.length (hdrOf_buildHeader par sq ch fl op ln [])
  rwa [List.append_nil] at h

/-- Only the flags that go on the wire matter. -/
theorem buildHeader_congr_flags {fl fl' : Byte} (h : wireFlags fl = wireFlags fl') (par : Params) (sq ch op : Byte)
    (ln : Half) : buildHeader par sq ch fl op ln = buildHeader par sq ch fl' op ln := by
  unfold buildHeader; rw [h]

/-- Other flags leave the other seven bytes before the CRC field as they are. -/
theorem buildHeader_getElem?_of_ne_flags (par : Params) (sq ch fl fl' op : Byte) (ln : Half) {k : Nat} (hk : k < 8)
    (h4 : k ≠ 4) : (buildHeader par sq ch fl op ln)[k]? = (buildHeader par sq ch fl' op ln)[k]? := by
  rw [buildHeader_eq_append, buildHeader_eq_append, List.getElem?_append_left hk, List.getElem?_append_left hk,
    headerFields_eq_set sq ch fl, headerFields_eq_set sq ch fl', List.getElem?_set_ne h4.symm,
    List.getElem?_set_ne h4.symm]

/-- Writing another byte at a position changes a list. -/
theorem set_ne_self {α : Type} {l : List α} {k : Nat} {b : α} (hk : k < l.length) (h : l[k]? ≠ some b) :
    l.set k b ≠ l := by
  intro heq
  apply h
  rw [← heq, List.getElem?_set_self hk]

/-- Settles O6: a changed field byte changes the CRC that is due, and a changed CRC byte the CRC that is there. -/
theorem headerRoundTrip : Obligations.HeaderRoundTrip := by
  intro par hdetects sq ch fl op ln
  refine ⟨buildHeader_verifies par sq ch fl op ln, fun k hk b hb => ?_⟩
  rw [buildHeader_eq_append] at hb ⊢
  generalize hfields : headerFields sq ch fl op ln = fields at hb ⊢
  have h8 : fields.length = 8 := hfields ▸ headerFields_length sq ch fl op ln
  rw [Bool.eq_false_iff, Ne]
  rcases Nat.lt_or_ge k fields.length with hin | hout
  · rw [List.getElem?_append_left hin] at hb
    rw [List.set_append_left k b hin, verifyHeaderCrc_append_iff (by rw [List.length_set, h8]) (enc16_length _)]
    intro hcrc
    exact hdetects fields h8 k (h8 ▸ hin) b hb (enc16_injective hcrc).symm
  · rw [List.getElem?_append_right hout] at hb
    rw [List.set_append_right k b hout, verifyHeaderCrc_append_iff h8 (by rw [List.length_set, enc16_length])]
    exact set_ne_self (by rw [enc16_length]; omega) hb

/-! #### The built packet -/

theorem hdrOf_buildPacket (par : Params) (sq ch fl op : Byte) (pl : List Byte) :
    hdrOf (buildPacket par sq ch fl op pl) = ⟨sq, ch, wireFlags fl, op, BitVec.ofNat 16 pl.length,
      crc16 par.crc16 (headerFields sq ch fl op (BitVec.ofNat 16 pl.length))⟩ :=
  hdrOf_buildHeader ..

/-- A payload and its CRC behind a header with the payload's length verify (41_packet_codec.md R252, R254). -/
theorem verifyPayloadCrc_bodyBytes {par : Params} {raw pl : List Byte} (hlen : (le16 raw 6).toNat = pl.length)
    (crcEn : Bool) : verifyPayloadCrc par crcEn raw (bodyBytes pl (crc32 par.crc32 pl)) = true := by
  unfold verifyPayloadCrc
  rw [hlen]
  by_cases hpl : pl = []
  · simp [hpl]
  · have hbody : bodyBytes pl (crc32 par.crc32 pl) = pl ++ enc32 (crc32 par.crc32 pl) := if_neg (by simpa using hpl)
    have hread : le32 (pl ++ enc32 (crc32 par.crc32 pl)) pl.length = crc32 par.crc32 pl := by
      simpa using le32_enc32 pl [] (crc32 par.crc32 pl)
    simp [hbody, hread]

/-- Bits 6 and 7 are 0 on the wire (30_encoding.md R145). -/
theorem wireFlags_reserved (fl : Byte) : wireFlags fl &&& 0xC0#8 = 0#8 := by
  rw [wireFlags, BitVec.and_assoc]; exact BitVec.and_zero

/-- Settles O7: a packet is its header and its body, and each verifies. -/
theorem builtPacketVerifies : Obligations.BuiltPacketVerifies := by
  intro par crcEn sq ch fl op pl hfits
  have hlen : (BitVec.ofNat 16 pl.length).toNat = pl.length := Nat.mod_eq_of_lt hfits
  have hsize := buildPacket_length par sq ch fl op pl
  have hhdr := hdrOf_buildPacket par sq ch fl op pl
  have htake : (buildPacket par sq ch fl op pl).take 10 = buildHeader par sq ch fl op (BitVec.ofNat 16 pl.length) :=
    List.take_left' rfl
  have hdrop : (buildPacket par sq ch fl op pl).drop 10 = bodyBytes pl (crc32 par.crc32 pl) := List.drop_left' rfl
  intro b
  refine ⟨?size, ?total, ?header, ?payload, ?reserved, ?flags⟩
  case size => rw [hsize]; split <;> split <;> omega
  case total => rw [hsize, hhdr, packetTotalSize_ofNat hfits]
  case header => rw [htake]; exact verifyHeaderCrc_of_enabled (buildHeader_verifies ..) crcEn
  case payload => rw [htake, hdrop]; exact verifyPayloadCrc_bodyBytes (by rw [le16_buildHeader_length, hlen]) crcEn
  case reserved => rw [hhdr]; exact wireFlags_reserved fl
  case flags => rw [hhdr]; rfl

/-! #### The retransmission mark -/

/-- RTX is a bit that goes on the wire (30_encoding.md R144). -/
theorem wireFlags_rtxFlags_wireFlags (fl : Byte) : wireFlags (rtxFlags (wireFlags fl)) = wireFlags (rtxFlags fl) := by
  unfold wireFlags rtxFlags
  rw [BitVec.and_or_distrib_right, BitVec.and_or_distrib_right, BitVec.and_assoc, BitVec.and_self]

theorem rtxFlags_idem (fl : Byte) : rtxFlags (rtxFlags fl) = rtxFlags fl := by
  unfold rtxFlags; rw [BitVec.or_assoc, BitVec.or_self]

/-- The marked header is the one built with RTX set (41_packet_codec.md R256). -/
theorem markRtx_buildHeader (par : Params) (sq ch fl op : Byte) (ln : Half) :
    markRtx par (buildHeader par sq ch fl op ln) = buildHeader par sq ch (rtxFlags fl) op ln := by
  rw [markRtx, le16_buildHeader_length]
  exact buildHeader_congr_flags (wireFlags_rtxFlags_wireFlags fl) par sq ch op ln

/-- Settles O8: `markRtx_buildHeader` makes every marked header a built one. -/
theorem markRtxSetsOneBit : Obligations.MarkRtxSetsOneBit := by
  intro par sq ch fl op ln
  rw [markRtx_buildHeader, markRtx_buildHeader, rtxFlags_idem]
  exact ⟨rfl, rfl, fun k hk h4 => buildHeader_getElem?_of_ne_flags par sq ch _ fl op ln hk h4,
    buildHeader_verifies par sq ch _ op ln⟩

end Sys2Proof.Machine

/-! ### O17 to O20: the channel registry (42_channel_registry.md R301-R307)

First the registration, one rule a way it can end; then the teardown, as an induction over the ids it visits; last the slots
under every step. -/

namespace Sys2Proof.Machine

/-! #### The id a registration takes (R301, R307) -/

section
variable {s : State} {d : DescriptorSpec} {i : Nat}

/-- No free dynamic id: every slot from FIRST_DYNAMIC_ID on is occupied. -/
theorem freeDynamicId_eq_none (hfull : ∀ i, 5 ≤ i → i < s.par.nch → registryFind s i ≠ none) :
    freeDynamicId s = none := by
  refine List.find?_range_eq_none.mpr fun i hn => ?_
  by_cases h5 : 5 ≤ i
  · simp [Option.isSome_iff_ne_none, hfull i h5 hn]
  · simp [Config.firstDynamicId, h5]

/-- The free dynamic id that is taken is the smallest one. -/
theorem freeDynamicId_eq_some (h5 : 5 ≤ i) (hn : i < s.par.nch) (hfree : registryFind s i = none)
    (hleast : ∀ j, 5 ≤ j → j < i → registryFind s j ≠ none) : freeDynamicId s = some i := by
  refine List.find?_range_eq_some.mpr ⟨?_, List.mem_range.mpr hn, fun j hj => ?_⟩
  · simp [Config.firstDynamicId, h5, hfree]
  · by_cases hj5 : 5 ≤ j
    · simp [Option.isSome_iff_ne_none, hleast j hj5 hj]
    · simp [Config.firstDynamicId, hj5]

theorem chooseId_physical (hp : hasCapability d.flags .physical = true) (s : State) : chooseId s d = .ok (0, false) :=
  if_pos hp

theorem chooseId_static {id : Byte} (hp : hasCapability d.flags .physical = false) (hid : d.staticId = some id)
    (s : State) : chooseId s d = if id = 0#8 then .error .invalid else .ok (id.toNat, false) := by
  simp only [chooseId, hp, hid, Bool.false_eq_true, if_false]

theorem chooseId_dynamic (hp : hasCapability d.flags .physical = false) (hid : d.staticId = none)
    (hfree : freeDynamicId s = some i) : chooseId s d = .ok (i, true) := by
  simp only [chooseId, hp, hid, hfree, Bool.false_eq_true, if_false]

theorem chooseId_full (hp : hasCapability d.flags .physical = false) (hid : d.staticId = none)
    (hfull : freeDynamicId s = none) : chooseId s d = .error .failed := by
  simp only [chooseId, hp, hid, hfull, Bool.false_eq_true, if_false]

end

/-! #### A registration on an initialised block, one rule a way it can end (R301) -/

section
variable {s : State} {d : DescriptorSpec} {id : Nat} {dyn : Bool}

/-- The port answers with what the registration returns. -/
theorem execPort_register {r : Ret} {t : State} (hi : s.ctx.initialised = true) (h : registerChannel d s = (r, t)) :
    execPort (.registryRegister d) s = .next (emit (.returned r) t) := by
  refine (guarded_initialised hi (portRegister d s)).trans ?_
  unfold portRegister
  rw [h]
  rfl

/-- No id can be given. -/
theorem execPort_register_refused {st : Status} (hi : s.ctx.initialised = true) (hc : chooseId s d = .error st) :
    execPort (.registryRegister d) s = .next (emit (.returned (.status st)) s) :=
  execPort_register hi (by unfold registerChannel; rw [hc])

/-- The id lies outside the table. -/
theorem execPort_register_outside (hi : s.ctx.initialised = true) (hc : chooseId s d = .ok (id, dyn))
    (hid : s.par.nch ≤ id) : execPort (.registryRegister d) s = .next (emit (.returned (.status .invalid)) s) :=
  execPort_register hi (by unfold registerChannel; rw [hc]; exact if_pos hid)

/-- The id is occupied. -/
theorem execPort_register_occupied (hi : s.ctx.initialised = true) (hc : chooseId s d = .ok (id, dyn))
    (hid : id < s.par.nch) (hocc : registryFind s id ≠ none) :
    execPort (.registryRegister d) s = .next (emit (.returned (.status .busy)) s) :=
  execPort_register hi (by
    unfold registerChannel
    rw [hc]
    exact (if_neg (by omega)).trans (if_pos (Option.isSome_iff_ne_none.mpr hocc)))

/-- A channel without an init hook has nothing to call. -/
theorem callInitHook_absent (h : hasOp d.ops .init = false) : callInitHook d id s = (true, s) :=
  if_neg (by simp [h])

/-- The init hook is called, and its answer is the environment's (10_state.md R68). -/
theorem callInitHook_called (h : ¬ hasOp d.ops .init = false) :
    callInitHook d id s = ((draw s).1, emit (.hookInit id (draw s).1) (draw s).2) :=
  if_pos (by simpa using h)

/-- The id is free, so the name and the init hook decide. -/
theorem registerChannel_vacant (hc : chooseId s d = .ok (id, dyn)) (hid : id < s.par.nch)
    (hfree : registryFind s id = none) :
    registerChannel d s = if s.par.nameMax < d.name.length then (.status .invalid, s)
      else if (callInitHook d id s).1 then (.channelId id, storeChannel d id dyn (callInitHook d id s).2)
      else (.status .failed, (callInitHook d id s).2) := by
  unfold registerChannel
  rw [hc]
  refine (if_neg (by omega)).trans <| (if_neg (by simp [hfree])).trans (if_congr Iff.rfl rfl ?_)
  rcases callInitHook d id s with ⟨_ | _, t⟩ <;> rfl

/-- The same on the port, with the call of the hook written out. -/
theorem execPort_register_vacant (hi : s.ctx.initialised = true) (hc : chooseId s d = .ok (id, dyn))
    (hid : id < s.par.nch) (hfree : registryFind s id = none) :
    let ends (t : State) : Prop := execPort (.registryRegister d) s = .next t
    if s.par.nameMax < d.name.length then ends (emit (.returned (.status .invalid)) s)
    else if hasOp d.ops .init = false then ends (emit (.returned (.channelId id)) (storeChannel d id dyn s))
    else
      let called := emit (.hookInit id (draw s).1) (draw s).2
      if (draw s).1 then ends (emit (.returned (.channelId id)) (storeChannel d id dyn called))
      else ends (emit (.returned (.status .failed)) called) := by
  have hreg := registerChannel_vacant hc hid hfree
  intro ends
  split
  next hlong => exact execPort_register hi (hreg.trans (if_pos hlong))
  next hlong =>
    rw [if_neg hlong] at hreg
    split
    next hinit =>
      rw [callInitHook_absent hinit] at hreg
      exact execPort_register hi hreg
    next hinit =>
      rw [callInitHook_called hinit] at hreg
      intro called
      split
      next hok => exact execPort_register hi (hreg.trans (if_pos hok))
      next hfailed => exact execPort_register hi (hreg.trans (if_neg hfailed))

end

/-! #### What is stored, and the event (R301, 30_encoding.md R167) -/

section
variable {s : State} {d : DescriptorSpec} {id : Nat}

/-- A static registration stores its descriptor and sends nothing. -/
theorem storeChannel_static (d : DescriptorSpec) (id : Byte) (s : State) :
    storeChannel d id.toNat false s = { s with reg := { s.reg with
      slots := s.reg.slots.set id.toNat (some ⟨id, d.flags &&& 0b011111#6, d.name, d.ops, d.hooks⟩) } } := by
  have hstored : storedDescriptor d id.toNat false = ⟨id, d.flags &&& 0b011111#6, d.name, d.ops, d.hooks⟩ := by
    simp [storedDescriptor, setDynamic]
  rw [← hstored]
  rfl

/-- With events disabled a dynamic registration sends nothing. -/
theorem storeChannel_silent (he : s.ctx.cfg.evtEn = false) (dyn : Bool) :
    storeChannel d id dyn s = setSlot id (some (storedDescriptor d id dyn)) s :=
  if_neg (by simp [he])

/-- The bytes of a CHANNEL_REGISTERED event. -/
def registeredBytes (s : State) (id : Nat) : List Byte :=
  buildPacket s.par s.ctx.seq 0x00#8 0x20#8 0x13#8 (enc16 s.par.evtChannelRegistered ++ [BitVec.ofNat 8 id])

/-- The event needs no ACK (44_reliable_delivery.md R422). -/
theorem registeredEvent_unacked (e : Bool) (s : State) (id : Nat) :
    effAckRequired e (registeredEvent s id).flags (registeredEvent s id).ackRequired = false := rfl

theorem registeredEvent_pkt (s : State) (id : Nat) :
    chunkPkt s (registeredEvent s id) = makePkt s.par s.ctx.seq 0x00#8 flagEvent 0x13#8
      (enc16 s.par.evtChannelRegistered ++ [BitVec.ofNat 8 id]) := by
  unfold chunkPkt
  rw [registeredEvent_unacked, show outgoingFlags (registeredEvent s id).flags false = flagEvent from
    (by decide : outgoingFlags flagEvent false = flagEvent)]
  rfl

theorem pktBytes_registeredEvent (s : State) (id : Nat) :
    pktBytes s.par (chunkPkt s (registeredEvent s id)) = registeredBytes s id := by
  rw [registeredEvent_pkt]
  rfl

/-- An event takes no sequence number (44_reliable_delivery.md R421). -/
theorem stamp_registeredEvent (s : State) (id : Nat) :
    (stamp s (registeredEvent s id).opcode (registeredEvent s id).flags (registeredEvent s id).echoSeq).2 = false := by
  simp only [stamp, registeredEvent]
  decide

/-- A written event is counted as a packet and as an event (44_reliable_delivery.md R423). -/
theorem sendOne_registeredEvent_takes {rest : List Bool} (h : TransportTakes s rest) (id : Nat) :
    (sendOne (registeredEvent s id) s).2 = countEventSent (countSent
      (emit (.tWrite (registeredBytes s id) true) (s.withEnv { s.env with answers := rest }))) := by
  have hevent : hasFlag (chunkPkt s (registeredEvent s id)).hdr.flags flagEvent = true := by
    rw [registeredEvent_pkt]
    exact (by decide : hasFlag flagEvent flagEvent = true)
  rw [sendOne_takes h (registeredEvent_unacked _ s id), pktBytes_registeredEvent]
  simp only [stamp_registeredEvent, countWrite, hevent, Bool.false_eq_true, if_false, if_true]

/-- A send that needs no ACK and is not written is FAILED, in a wait or not (44_reliable_delivery.md R420, R423). -/
theorem sendOne_unacked_fails {c : Chunk} {e : Env}
    (ha : effAckRequired s.ctx.cfg.ackEn c.flags c.ackRequired = false)
    (h : TransportFails s (pktBytes s.par (chunkPkt s c)) e) : sendOne c s = (.failed, s.afterFailure e) := by
  unfold sendOne
  simp only [ha, Bool.false_and, Bool.false_eq_true, if_false, transmitOnce_fails h]
  rfl

/-- An event that is not written costs one count (44_reliable_delivery.md R423). -/
theorem sendOne_registeredEvent_fails {e : Env} (h : TransportFails s (registeredBytes s id) e) :
    (sendOne (registeredEvent s id) s).2 = s.afterFailure e :=
  congrArg Prod.snd (sendOne_unacked_fails (registeredEvent_unacked _ s id) (pktBytes_registeredEvent s id ▸ h))

/-- With events enabled a dynamic registration sends one packet of three payload bytes. -/
theorem storeChannel_sends (he : s.ctx.cfg.evtEn = true) (hmax : 3 ≤ s.ctx.cfg.maxPayload.toNat) :
    let u := setSlot id (some (storedDescriptor d id true)) s
    storeChannel d id true s = (sendOne (registeredEvent u id) u).2 :=
  (if_pos he).trans (congrArg Prod.snd (sendChunk_short hmax))

/-- A dynamic registration whose event is written. -/
theorem storeChannel_taken {rest : List Bool} (he : s.ctx.cfg.evtEn = true) (hmax : 3 ≤ s.ctx.cfg.maxPayload.toNat)
    (h : TransportTakes (setSlot id (some (storedDescriptor d id true)) s) rest) :
    let u := setSlot id (some (storedDescriptor d id true)) s
    storeChannel d id true s = countEventSent (countSent
      (emit (.tWrite (registeredBytes s id) true) (u.withEnv { u.env with answers := rest }))) :=
  (storeChannel_sends he hmax).trans (sendOne_registeredEvent_takes h id)

/-- A dynamic registration whose event is not written: the channel is stored all the same. -/
theorem storeChannel_untaken {e : Env} (he : s.ctx.cfg.evtEn = true) (hmax : 3 ≤ s.ctx.cfg.maxPayload.toNat)
    (h : TransportFails (setSlot id (some (storedDescriptor d id true)) s) (registeredBytes s id) e) :
    storeChannel d id true s = (setSlot id (some (storedDescriptor d id true)) s).afterFailure e :=
  (storeChannel_sends he hmax).trans (sendOne_registeredEvent_fails h)

end

theorem draw_par (s : State) : (draw s).2.par = s.par := (Quiet.draw s).par

theorem draw_ctx (s : State) : (draw s).2.ctx = s.ctx := by
  obtain ⟨_, _, hdraw⟩ := draw_frame s
  rw [hdraw]
  rfl

/-! #### The registrations -/

/-- Settles O18: the checks in their order, up to the free id, where `execPort_register_vacant` takes over. -/
theorem staticRegistration : Obligations.StaticRegistration := by
  intro s d id hi hid refused stored kept
  have hkept : ∀ t, emit (.returned (.channelId id.toNat)) (storeChannel d id.toNat false t) = kept t := fun t => by
    rw [storeChannel_static]
  split
  next hzero =>
    obtain ⟨hzero, hphys⟩ := hzero
    rw [if_neg (by simp [hphys])] at hid
    exact execPort_register_refused hi ((chooseId_static hphys hid s).trans (if_pos hzero))
  next hzero =>
    have hc : chooseId s d = .ok (id.toNat, false) := by
      cases hphys : hasCapability d.flags .physical with
      | true =>
        rw [if_pos hphys] at hid
        rw [chooseId_physical hphys, hid]
        rfl
      | false =>
        rw [if_neg (by simp [hphys])] at hid
        exact (chooseId_static hphys hid s).trans (if_neg fun h => hzero ⟨h, hphys⟩)
    split
    next hout => exact execPort_register_outside hi hc hout
    next hout =>
      have hin : id.toNat < s.par.nch := Nat.lt_of_not_le hout
      split
      next hocc => exact execPort_register_occupied hi hc hin hocc
      next hfree =>
        have hv := execPort_register_vacant hi hc hin (not_not.mp hfree)
        simpa only [hkept] using hv

/-- Settles O17: the smallest free id is vacant, so `execPort_register_vacant` says how the registration ends; what is
stored and sent is the same before and after a call of the init hook. -/
theorem dynamicRegistration : Obligations.DynamicRegistration := by
  intro s d hi _ hphys hid hmax ends
  refine ⟨fun hfull => execPort_register_refused hi (chooseId_full hphys hid (freeDynamicId_eq_none hfull)), ?_⟩
  intro i h5 hn hfree hleast stored event registered
  have hc : chooseId s d = .ok (i, true) := chooseId_dynamic hphys hid (freeDynamicId_eq_some h5 hn hfree hleast)
  have hregistered : ∀ t, t.par = s.par → t.ctx = s.ctx →
      ends (emit (.returned (.channelId i)) (storeChannel d i true t)) → registered t := by
    intro t hpar hctx hends
    have hbytes : registeredBytes t i = event := by rw [registeredBytes, hpar, hctx]
    have hmax : 3 ≤ t.ctx.cfg.maxPayload.toNat := by rw [hctx]; exact hmax
    change if s.ctx.cfg.evtEn = true then _ else _
    split
    next hevt =>
      replace hevt : t.ctx.cfg.evtEn = true := by rw [hctx, hevt]
      refine ⟨fun rest htakes => ?taken, fun e hfails => ?untaken⟩
      case taken =>
        rw [storeChannel_taken hevt hmax htakes, hbytes] at hends
        refine hends.trans (congrArg Host.Outcome.next (State.ext_parts rfl rfl rfl rfl ?_))
        simp
      case untaken =>
        rw [storeChannel_untaken hevt hmax (hbytes ▸ hfails)] at hends
        exact hends
    next hevt =>
      rw [storeChannel_silent (by rw [hctx]; simpa using hevt)] at hends
      exact hends
  have hv := execPort_register_vacant hi hc hn hfree
  split
  next hlong => rwa [if_pos hlong] at hv
  next hlong =>
    rw [if_neg hlong] at hv
    split
    next hinit => rw [if_pos hinit] at hv; exact hregistered s rfl rfl hv
    next hinit =>
      rw [if_neg hinit] at hv
      intro called
      split
      next hok => exact hregistered called (draw_par s) (draw_ctx s) ((if_pos hok).mp hv)
      next hok => exact (if_neg hok).mp hv

/-! #### Teardown (R304, R305) -/

theorem registryFind_setSlot_none (id i : Nat) (s : State) :
    registryFind (setSlot id none s) i = if i = id then none else registryFind s i := by
  unfold registryFind
  simp only [setSlot_par, setSlot_reg, List.getElem?_set]
  grind

theorem lastLock_setLastLock_none (id i : Nat) (s : State) :
    lastLock (setLastLock id none s) i = if i = id then none else lastLock s i := by
  unfold lastLock
  simp only [setLastLock_reg, List.getElem?_set]
  grind

/-- There is no channel past the end of the table. -/
theorem lt_of_registryFind_ne_none {s : State} {i : Nat} (h : registryFind s i ≠ none) : i < s.par.nch := by
  by_contra hge
  exact h (if_neg hge)

theorem emitAll_nil (s : State) : emitAll [] s = s := by
  simp [emitAll, State.withEnv]

/-- Removing an empty slot changes nothing. -/
theorem unregisterSlot_empty {s : State} {id : Nat} (h : registryFind s id = none) : unregisterSlot id s = s := by
  unfold unregisterSlot
  rw [h]

/-- Removing a channel calls its teardown hook if it has one, empties its slot and unsets its lock time. -/
theorem unregisterSlot_occupied {s : State} {id : Nat} (h : registryFind s id ≠ none) :
    unregisterSlot id s = setLastLock id none (setSlot id none
      (emitAll (if tearsDownAt s id then [.hookTeardown id] else []) s)) := by
  obtain ⟨d, hd⟩ := Option.ne_none_iff_exists'.mp h
  simp only [unregisterSlot, tearsDownAt, hd, Option.any_some]
  split
  next => rfl
  next => rw [emitAll_nil]

theorem registryFind_unregisterSlot (id i : Nat) (s : State) :
    registryFind (unregisterSlot id s) i = if i = id then none else registryFind s i := by
  by_cases h : registryFind s id = none
  · rw [unregisterSlot_empty h]
    split
    next heq => rw [heq, h]
    next => rfl
  · rw [unregisterSlot_occupied h]
    exact registryFind_setSlot_none id i (emitAll _ s)

theorem lastLock_unregisterSlot (id i : Nat) (s : State) :
    lastLock (unregisterSlot id s) i = if i = id ∧ registryFind s i ≠ none then none else lastLock s i := by
  by_cases h : registryFind s id = none
  · rw [unregisterSlot_empty h, if_neg fun ⟨heq, hne⟩ => hne (heq ▸ h)]
  · rw [unregisterSlot_occupied h, lastLock_setLastLock_none]
    refine if_congr ⟨fun heq => ⟨heq, heq ▸ h⟩, fun hb => hb.1⟩ rfl rfl

theorem unregisterSlot_slots_length (id : Nat) (s : State) :
    (unregisterSlot id s).reg.slots.length = s.reg.slots.length := by
  by_cases h : registryFind s id = none
  · rw [unregisterSlot_empty h]
  · rw [unregisterSlot_occupied h]
    exact List.length_set

theorem unregisterSlot_env (id : Nat) (s : State) :
    (unregisterSlot id s).env = { s.env with
      outputs := s.env.outputs ++ if tearsDownAt s id then [.hookTeardown id] else [] } := by
  by_cases h : registryFind s id = none
  · simp [unregisterSlot_empty h, tearsDownAt, h]
  · rw [unregisterSlot_occupied h]
    rfl

theorem tearsDownAt_unregisterSlot {id i : Nat} (h : i ≠ id) (s : State) :
    tearsDownAt (unregisterSlot id s) i = tearsDownAt s i := by
  unfold tearsDownAt
  rw [registryFind_unregisterSlot, if_neg h]

/-- Remove the channels of these ids, in order. -/
def unregisterAll (ids : List Nat) (s : State) : State := ids.foldl (fun t id => unregisterSlot id t) s

theorem unregisterAll_cons (id : Nat) (ids : List Nat) (s : State) :
    unregisterAll (id :: ids) s = unregisterAll ids (unregisterSlot id s) := rfl

theorem deinitAll_eq_unregisterAll (s : State) : deinitAll s = unregisterAll (List.range s.par.nch) s := rfl

theorem registryFind_unregisterAll (ids : List Nat) (i : Nat) (s : State) :
    registryFind (unregisterAll ids s) i = if i ∈ ids then none else registryFind s i := by
  induction ids generalizing s with
  | nil => rfl
  | cons id ids ih =>
    rw [unregisterAll_cons, ih, registryFind_unregisterSlot]
    grind

theorem lastLock_unregisterAll (ids : List Nat) (i : Nat) (s : State) :
    lastLock (unregisterAll ids s) i = if i ∈ ids ∧ registryFind s i ≠ none then none else lastLock s i := by
  induction ids generalizing s with
  | nil => simp [unregisterAll]
  | cons id ids ih =>
    rw [unregisterAll_cons, ih, registryFind_unregisterSlot, lastLock_unregisterSlot]
    grind

theorem unregisterAll_slots_length (ids : List Nat) (s : State) :
    (unregisterAll ids s).reg.slots.length = s.reg.slots.length :=
  foldl_unregister (P := fun t => t.reg.slots.length = s.reg.slots.length)
    (fun id t h => (unregisterSlot_slots_length id t).trans h) ids s rfl

/-- The teardown hooks are called in the order of the ids; that no id comes twice keeps a hook from being looked up in a slot
that is already empty. -/
theorem unregisterAll_env {ids : List Nat} (h : ids.Nodup) (s : State) :
    (unregisterAll ids s).env = { s.env with
      outputs := s.env.outputs ++ (ids.filter (tearsDownAt s)).map .hookTeardown } := by
  induction ids generalizing s with
  | nil => simp [unregisterAll]
  | cons id ids ih =>
    obtain ⟨hid, hids⟩ := List.nodup_cons.mp h
    have hsame : ids.filter (tearsDownAt (unregisterSlot id s)) = ids.filter (tearsDownAt s) :=
      List.filter_congr fun i hi => tearsDownAt_unregisterSlot (ne_of_mem_of_not_mem hi hid) s
    rw [unregisterAll_cons, ih hids, hsame, unregisterSlot_env]
    by_cases ht : tearsDownAt s id <;> simp [ht]

/-- Settles O19: `registry_deinit_all` is `unregisterAll` over the whole table; past its end there is no channel. -/
theorem deinitAllTearsDown : Obligations.DeinitAllTearsDown := by
  intro s hi hr
  obtain ⟨hpar, hctx, hsb⟩ := deinitAll_parts s
  refine ⟨_, guarded_initialised hi (portDeinitAll s), fun i => ?empty, ?slots, fun i => ?locks, hpar, hctx, hsb, ?env⟩
  case empty =>
    change registryFind (deinitAll s) i = none
    rw [deinitAll_eq_unregisterAll, registryFind_unregisterAll]
    split
    next => rfl
    next hi => exact not_not.mp fun h => hi (List.mem_range.mpr (lt_of_registryFind_ne_none h))
  case slots => exact (unregisterAll_slots_length _ s).trans hr.slots
  case locks =>
    change lastLock (deinitAll s) i = _
    rw [deinitAll_eq_unregisterAll, lastLock_unregisterAll]
    refine if_congr ?_ rfl rfl
    rw [Option.isSome_iff_ne_none, List.mem_range]
    exact and_iff_right_of_imp lt_of_registryFind_ne_none
  case env =>
    rw [emit_env, deinitAll_eq_unregisterAll, unregisterAll_env List.nodup_range, List.append_assoc]

/-! #### The slots under every step (R306)

A transition leaves every slot as it is, and so does every port operation but four: `init` and `deinit` begin and end the life
of a block, `registry_deinit_all` is the teardown, and `registry_register` writes a free slot. -/

theorem runReceived_slots {p : Rx} {s t : State} (he : runReceived p s = .next t) : t.reg.slots = s.reg.slots := by
  unfold runReceived at he
  split at he
  next => exact congrArg Frozen.slots (Framed.exec he).frozen
  next =>
    rcases accept_next he with ⟨-, ⟨st, -, rfl⟩ | ⟨-, rfl⟩⟩
    · rw [(reject_quiet st p s).reg]
    · rw [id, (acceptSeq_quiet p s).reg]

@[simp] theorem afterFetch_reg (s : State) : (afterFetch s).reg = s.reg := by simp [afterFetch]

@[simp] theorem takeAt_reg (k : Nat) (s : State) : (takeAt k s).reg = s.reg := by simp [takeAt]

@[simp] theorem takeResponse_reg (k : Nat) (s : State) : (takeResponse k s).reg = s.reg := by
  unfold takeResponse
  split
  next => exact takeAt_reg 0 s
  next => rfl

theorem syncStep_reg (s : State) : (syncStep s).reg = s.reg := by
  unfold syncStep
  split
  next => rfl
  next => exact consumeBytes_reg 1 s

theorem countHeaderFailure_reg (st : Status) (s : State) : (countHeaderFailure st s).reg = s.reg := by
  cases st <;> rfl

theorem headerStep_reg (s : State) : (headerStep s).reg = s.reg := by
  unfold headerStep
  split
  next => rfl
  next st _ =>
    rw [State.enter_reg, consumeBytes_reg, (sendStatus_quiet _ _ _).reg, countHeaderFailure_reg]

theorem payloadStep_slots {s t : State} (he : payloadStep s = .next t) : t.reg.slots = s.reg.slots := by
  unfold payloadStep at he
  split at he
  next => rw [runReceived_slots he, afterFetch_reg]
  next => cases he; rfl

theorem recoveryStep_slots {s t : State} (he : recoveryStep s = some (.next t)) : t.reg.slots = s.reg.slots := by
  unfold recoveryStep at he
  split at he
  next k _ => rw [runReceived_slots (Option.some.inj he), takeAt_reg]
  next =>
    split at he
    next => cases he; rfl
    next => cases (Option.ite_none_left_eq_some.mp he).2; rfl

theorem waitStep_slots {s t : State} (he : waitStep s = some (.next t)) : t.reg.slots = s.reg.slots := by
  unfold waitStep at he
  split at he
  next => rw [runReceived_slots (Option.some.inj he), takeResponse_reg]
  next => rw [runReceived_slots (Option.some.inj he), takeAt_reg]
  next => cases (Option.ite_none_left_eq_some.mp he).2; rfl

theorem timeoutStep_reg (s : State) : (timeoutStep s).reg = s.reg := by
  unfold timeoutStep
  split
  next =>
    obtain ⟨-, -, hreg, -⟩ := protocolReset_parts (setFragRest [] (exitWait s))
    exact hreg
  next => exact (resendHold_quiet _).reg

theorem waitTransition_slots {s t : State} (he : waitTransition s = some (.next t)) : t.reg.slots = s.reg.slots := by
  unfold waitTransition at he
  split at he
  next =>
    split at he
    next => cases he; rw [timeoutStep_reg]
    next =>
      have hdrawn : (draw s).2.reg = s.reg := (Quiet.draw s).reg
      split at he <;> rename_i u hd <;> rw [hd] at hdrawn
      · cases he; rw [timeoutStep_reg, hdrawn]
      · rw [waitStep_slots he, hdrawn]
  next => exact waitStep_slots he

theorem transition_slots {s t : State} (he : transition s = some (.next t)) : t.reg.slots = s.reg.slots := by
  unfold transition at he
  replace he := (Option.ite_none_left_eq_some.mp he).2
  cases hs : s.ctx.state <;> simp only [hs] at he
  case waitAck => exact waitTransition_slots he
  all_goals replace he := (Option.ite_none_left_eq_some.mp he).2
  case sync => cases he; rw [syncStep_reg]
  case header => cases he; rw [headerStep_reg]
  case payload => exact payloadStep_slots (Option.some.inj he)
  case syncRecovery => exact recoveryStep_slots he

/-- Every occupied slot keeps its descriptor. -/
def KeepsOccupied (s t : State) : Prop :=
  ∀ (i : Nat) (d : Descriptor), s.reg.slots[i]? = some (some d) → t.reg.slots[i]? = some (some d)

theorem KeepsOccupied.of_slots {s t : State} (h : t.reg.slots = s.reg.slots) : KeepsOccupied s t :=
  fun i d hd => by rw [h, hd]

/-- A stored descriptor goes into one slot; an event that is sent changes no slot. -/
theorem storeChannel_slots (d : DescriptorSpec) (id : Nat) (dyn : Bool) (s : State) :
    (storeChannel d id dyn s).reg.slots = s.reg.slots.set id (some (storedDescriptor d id dyn)) := by
  unfold storeChannel
  simp only
  split
  next =>
    obtain ⟨-, -, hreg, -⟩ := sendChunk_parts (registeredEvent (setSlot id (some (storedDescriptor d id dyn)) s) id)
      (setSlot id (some (storedDescriptor d id dyn)) s)
    rw [hreg]
    rfl
  next => rfl

/-- A registration writes no slot but a free one. -/
theorem KeepsOccupied.registerChannel (d : DescriptorSpec) (s : State) : KeepsOccupied s (registerChannel d s).2 := by
  rcases registerChannel_cases d s with ⟨st, t, hq, e⟩ | ⟨id, dyn, t, hq, -, hid, hfree, -, e⟩ <;> rw [e]
  · exact .of_slots (by rw [hq.reg])
  · intro i e hocc
    have hne : id ≠ i := by
      rintro rfl
      exact absurd (registryFind_eq_some_iff.mpr ⟨hid, hocc⟩) (by rw [hfree]; exact nofun)
    rw [storeChannel_slots, List.getElem?_set_ne hne, hq.reg, hocc]

theorem claim_reg (n : Nat) (s : State) : (claim n s).2.reg = s.reg := by
  unfold claim
  split
  next => rfl
  next =>
    split
    next => rfl
    next => exact claimRegion_reg n s

/-- A push answers in a state with the same registry, whether its claim is granted or refused. -/
theorem portPush_answers_reg (b : List Byte) (s : State) : ∃ r t, portPush b s = answer r t ∧ t.reg = s.reg := by
  have hclaim := claim_reg b.length s
  unfold portPush
  rcases hc : claim b.length s with ⟨_ | start, u⟩ <;> rw [hc] at hclaim
  · exact ⟨_, _, rfl, hclaim⟩
  · simp only
    split <;> exact ⟨_, _, rfl, hclaim⟩

/-- The answer of an operation touches no registry. -/
theorem reg_of_answer {r : Ret} {s u t : State} (he : answer r u = .next t) (h : u.reg = s.reg) : t.reg = s.reg := by
  cases he; exact h

/-- The operations of the control port and the registry port that write the registry. -/
def WritesRegistry : PortOp → Prop
  | .init _ | .deinit | .registryRegister _ | .registryDeinitAll => True
  | _ => False

theorem execPort_reg {op : PortOp} {s t : State} (hop : ¬ WritesRegistry op) (he : execPort op s = .next t) :
    t.reg = s.reg := by
  cases op
  case init | deinit | registryRegister | registryDeinitAll => exact absurd trivial hop
  all_goals replace he := (guarded_next he).2
  case reset =>
    obtain ⟨-, -, hreg, -⟩ := protocolReset_parts s
    exact reg_of_answer he hreg
  case sbPeekU16 =>
    unfold portPeekU16 at he
    split at he
    · cases he
    · exact reg_of_answer he rfl
  case sbClaim n =>
    have hclaim := claim_reg n s
    unfold portClaim at he
    split at he <;> rename_i e <;> rw [e] at hclaim <;> exact reg_of_answer he hclaim
  case sbFill =>
    unfold portFill at he
    split at he
    · exact reg_of_answer he rfl
    · cases he
  case sbCommit =>
    unfold portCommit at he
    split at he
    · exact reg_of_answer he rfl
    split at he
    · cases he
    · exact reg_of_answer he rfl
  case sbConsume n =>
    unfold portConsume at he
    split at he
    · exact reg_of_answer he rfl
    split at he
    · cases he
    · exact reg_of_answer he (consumeBytes_reg n s)
  case sbPush b =>
    obtain ⟨r, u, e, hreg⟩ := portPush_answers_reg b s
    exact reg_of_answer (e ▸ he) hreg
  case registryUnregister => cases he
  case send | sendAck | sendStatus =>
    obtain ⟨-, -, hreg, -⟩ := sendChunk_parts _ s
    exact reg_of_answer he hreg
  case tick => cases he; rfl
  case dispatchDone =>
    unfold portDispatchDone at he
    split at he <;> cases he
    rfl
  case sbAvailableToRead | sbAvailableToWrite | sbDataPtr | registryFind | registryFindTransport =>
    exact reg_of_answer he rfl

/-- An operation that is no teardown and runs on a block that was and stays initialised: `init` would fault there, and
`deinit` leaves the block uninitialised. -/
theorem KeepsOccupied.execPort {op : PortOp} {s t : State} (hi : s.ctx.initialised = true)
    (ht : t.ctx.initialised = true) (hop : op ≠ .registryDeinitAll) (he : execPort op s = .next t) : KeepsOccupied s t := by
  by_cases hw : WritesRegistry op
  · cases op with
    | init c =>
      rw [show Machine.execPort (.init c) s = .fault .reinit from if_pos hi] at he
      cases he
    | deinit =>
      obtain ⟨-, he⟩ := guarded_next he
      cases he
      cases ht
    | registryRegister d =>
      obtain ⟨-, he⟩ := guarded_next he
      cases he
      exact .registerChannel d s
    | registryDeinitAll => exact absurd rfl hop
    | _ => exact hw.elim
  · exact .of_slots (by rw [execPort_reg hw he])

/-- Settles O20: a step is an operation, a restart, which leaves the block uninitialised, or a transition. -/
theorem occupiedSlotsAreStable : Obligations.OccupiedSlotsAreStable := by
  intro s t hr hi ht hin he i d hd
  obtain ⟨hlt, hslot⟩ := registryFind_eq_some_iff.mp hd
  have hkeeps : KeepsOccupied s t := by
    rcases runInputs_next _ s he with ⟨op, rest, hsuffix, e⟩ | ⟨rest, -, rfl⟩ | ⟨rest, -, e⟩
    · have hop : op ≠ .registryDeinitAll := fun heq => hin (hsuffix.mem (heq ▸ List.mem_cons_self))
      exact KeepsOccupied.execPort (s := s.withInputs rest) hi ht hop e
    · cases ht
    · exact .of_slots (transition_slots (s := s.withInputs rest) e)
  obtain ⟨hid, -⟩ := hr.ids i d hslot
  exact ⟨registryFind_eq_some_iff.mpr ⟨by rwa [(Appends.step he).par], hkeeps i d hslot⟩, hid⟩

end Sys2Proof.Machine

/-! ### O25 to O30: the framing transitions (43_framing_fsm.md R351-R363, R380)

With no action of the environment pending a step is the enabled transition, and outside a wait there is one rule a framing
state. The statements then follow from what the header checks, the scan and the consumed packet are. -/

namespace Sys2Proof.Machine

/-! #### The transition of each framing state -/

theorem State.withInputs_nil {s : State} (h : s.env.inputs = []) : s.withInputs [] = s := by
  rw [← h]; rfl

/-- With nothing pending a step is the enabled transition (00_scope.md R17). -/
theorem step_of_transition {s : State} {r : Host.Outcome State Fault Refusal} (hin : s.env.inputs = [])
    (h : transition s = some r) : step s = r := by
  unfold step
  rw [hin]
  unfold runInputs
  rw [State.withInputs_nil hin, h]

section
variable {s : State} (hi : s.ctx.initialised = true) (hd : s.ctx.inDispatch = false)
include hi hd

theorem transition_sync (hs : s.ctx.state = .sync) :
    transition s = if s.sb.used < 2 then none else some (.next (syncStep s)) := by
  simp [transition, hi, hd, hs]

theorem transition_header (hs : s.ctx.state = .header) :
    transition s = if s.sb.used < Config.headerSize then none else some (.next (headerStep s)) := by
  simp [transition, hi, hd, hs]

theorem transition_payload (hs : s.ctx.state = .payload) : transition s = some (payloadStep s) := by
  simp [transition, hi, hd, hs]

theorem transition_syncRecovery (hs : s.ctx.state = .syncRecovery) : transition s = recoveryStep s := by
  simp [transition, hi, hd, hs]

end

/-! #### Reads of the buffer -/

/-- What can be read depends on the buffer alone (40_staging_buffer.md R211). -/
theorem readable_congr {s t : State} (h : t.sb = s.sb) : readable t = readable s := by
  unfold readable
  rw [memRead_congr (s := t) (t := s) _ _ (by rw [h]) (by rw [h]), h]

/-- A shorter read at the same place is the front of the longer one. -/
theorem memRead_take {m n : Nat} (h : m ≤ n) (s : State) (k : Nat) : (memRead s k n).take m = memRead s k m := by
  unfold memRead
  rw [← List.map_take, List.take_range, Nat.min_eq_left h]

/-- A read from the read cursor is the front of what is readable. -/
theorem memRead_front {s : State} {n : Nat} (h : n ≤ s.sb.used) : memRead s 0 n = (readable s).take n :=
  (memRead_take h s 0).symm

/-- The sync word is `AA D5` (20_memory.md R101). -/
theorem syncWordAt_iff (s : State) (k : Nat) :
    syncWordAt s k = true ↔ byteAt s (s.sb.rd + k) = 0xAA#8 ∧ byteAt s (s.sb.rd + k + 1) = 0xD5#8 := by
  have hword : Config.syncWord = 0xD5#8 ++ 0xAA#8 := rfl
  rw [syncWordAt, beq_iff_eq, le16_memRead, hword]
  constructor
  · intro h
    have hbytes := congrArg enc16 h
    rw [enc16_append, enc16_append] at hbytes
    simpa using hbytes
  · rintro ⟨h0, h1⟩
    rw [h0, h1]

/-- An instruction at the front of what is readable is the packet at offset 0 (30_encoding.md R140, R142). -/
theorem rxAt_of_readable {s : State} {i : Instr} {rest : List Byte} (hwf : i.wellFormed = true)
    (h : readable s = encode i ++ rest) : sizeAt s 0 = (encode i).length ∧ rxAt s 0 = i.rx := by
  obtain ⟨hsize, hlen, hcrc⟩ := encode_facts hwf
  have hused : s.sb.used = (encode i).length + rest.length := by rw [← readable_length, h, List.length_append]
  have h10 : 10 ≤ (encode i).length := by simp [encode]
  have hhdr : hdrAt s 0 = i.rx.hdr := by
    have hfront : memRead s 0 10 = headerBytes i.rx.hdr ++ [] := by
      rw [memRead_front (by omega), h, encode, List.append_assoc, List.append_nil]
      exact List.take_left' rfl
    exact (congrArg hdrOf hfront).trans (hdrOf_headerBytes _ _)
  have hat : sizeAt s 0 = (encode i).length := by rw [sizeAt, hhdr, hsize]
  refine ⟨hat, ?_⟩
  rw [rxAt, hat, memRead_front (by omega), h, List.take_left]
  simpa [encode] using rxOf_encode i.rx.hdr i.rx.payload i.rx.payloadCrc [] hlen hcrc

/-! #### SYNC (R351) -/

/-- Settles O25 (`syncStep` is the model's function): the rule of SYNC, with the sync word as its two bytes. -/
theorem syncStep_spec : Obligations.SyncStep := by
  intro s hin hi hs hd
  have htransition := transition_sync hi hd hs
  split
  next hshort => rw [htransition, if_pos hshort]
  next hlong =>
    rw [if_neg hlong] at htransition
    have hstep := step_of_transition hin htransition
    have hword := syncWordAt_iff s 0
    split
    next hsync => rw [hstep, syncStep, if_pos (hword.mpr hsync)]; rfl
    next hsync => exact ⟨by rw [hstep, syncStep, if_neg (mt hword.mp hsync)], readable_consume 1 s⟩

/-! #### HEADER (R352, R354, R358) -/

/-- A header CRC fails when it is checked and differs (41_packet_codec.md R253). -/
theorem headerOkAt_eq_false_iff (s : State) (k : Nat) : headerOkAt s k = false ↔
    s.ctx.cfg.crcEn = true ∧ (hdrAt s k).headerCrc ≠ crc16 s.par.crc16 (memRead s k 8) := by
  have htake : (memRead s k Config.headerSize).take 8 = memRead s k 8 := memRead_take (by decide) s k
  have hfield : le16 (memRead s k Config.headerSize) 8 = (hdrAt s k).headerCrc := rfl
  simp [headerOkAt, verifyHeaderCrc, htake, hfield]

theorem lengthOk_eq_false_iff (s : State) (h : Hdr) :
    lengthOk s h = false ↔ s.ctx.cfg.maxPayload.toNat < h.length.toNat := by
  simp [lengthOk, BitVec.lt_def]

theorem seqOk_eq_false_iff (s : State) (h : Hdr) :
    seqOk s h = false ↔ s.ctx.cfg.seqEn = true ∧ exempt h = false ∧ h.sequence ≠ s.ctx.seq := by
  simp [seqOk, and_assoc]

/-- The header checks, written out (43_framing_fsm.md R352). -/
theorem headerFailure_eq (s : State) : headerFailure s =
    if s.ctx.cfg.crcEn = true ∧ (hdrAt s 0).headerCrc ≠ crc16 s.par.crc16 (memRead s 0 8) then some .checksum
    else if s.ctx.cfg.maxPayload.toNat < (hdrAt s 0).length.toNat then some .overflow
    else if s.ctx.cfg.seqEn = true ∧ exempt (hdrAt s 0) = false ∧ (hdrAt s 0).sequence ≠ s.ctx.seq then some .sequence
    else none := by
  simp only [headerFailure, Bool.not_eq_true', headerOkAt_eq_false_iff, lengthOk_eq_false_iff, seqOk_eq_false_iff]

/-- A packet with an echoed sequence number does not advance `ctx.seq` (44_reliable_delivery.md R421). -/
theorem sendOne_seq {c : Chunk} (he : c.echoSeq.isSome = true) (s : State) : (sendOne c s).2.ctx.seq = s.ctx.seq := by
  obtain ⟨echo, hecho⟩ := Option.isSome_iff_exists.mp he
  have hwrite := (transmitOnce_quiet (chunkPkt s c) s).2
  unfold sendOne
  simp only [stamp, hecho, Bool.false_eq_true, if_false]
  split
  · rfl
  split <;> rename_i hsent <;> rw [hsent] at hwrite
  · exact hwrite
  split <;> exact hwrite

theorem sendAll_seq {cs : List Chunk} (he : ∀ c ∈ cs, c.echoSeq.isSome = true) (s : State) :
    (sendAll cs s).2.ctx.seq = s.ctx.seq := by
  induction cs generalizing s with
  | nil => rfl
  | cons c cs ih =>
    have hc := sendOne_seq (he c List.mem_cons_self) s
    have hcs := ih fun d hd => he d (List.mem_cons_of_mem c hd)
    unfold sendAll
    split <;> rename_i hsent <;> rw [hsent] at hc
    · exact (hcs _).trans hc
    · exact hc

/-- A NAK does not advance `ctx.seq`, even one that has to be cut (44_reliable_delivery.md R421, R440). -/
theorem sendStatus_seq (h : Hdr) (st : Status) (s : State) : (sendStatus h st s).ctx.seq = s.ctx.seq := by
  unfold sendStatus sendChunk
  split
  · unfold sendFragmented
    simp only [statusChunk_unacked, Bool.false_and, Bool.false_eq_true, if_false, Bool.not_false, if_true]
    refine sendAll_seq (fun d hd => ?_) s
    obtain ⟨_, -, -, -, -, hecho, -⟩ := fragments_mem hd
    rw [hecho]; rfl
  · exact sendOne_seq rfl s

theorem countHeaderFailure_quiet (st : Status) (s : State) :
    Quiet s (countHeaderFailure st s) ∧ (countHeaderFailure st s).ctx.seq = s.ctx.seq := by
  cases st <;> exact ⟨Quiet.withStats _ s, rfl⟩

/-- A header that fails costs one byte and leads back to SYNC; the sequence number stays (43_framing_fsm.md R354, R358). -/
theorem headerStep_failed {s : State} {st : Status} (h : headerFailure s = some st) :
    (headerStep s).ctx.state = .sync ∧ readable (headerStep s) = (readable s).drop 1 ∧
      (headerStep s).ctx.seq = s.ctx.seq := by
  obtain ⟨hcount, hcountSeq⟩ := countHeaderFailure_quiet st s
  have hquiet := hcount.trans (sendStatus_quiet (hdrAt s 0) st _)
  have hseq := (sendStatus_seq (hdrAt s 0) st _).trans hcountSeq
  simp only [headerStep, h]
  refine ⟨rfl, ?_, ?_⟩
  · exact (readable_congr rfl).trans ((readable_consume 1 _).trans (by rw [readable_congr hquiet.sb]))
  · rw [State.enter_ctx, consumeBytes_ctx]; exact hseq

/-- The whole next state of a header that fails, once it is known how the NAK ends. -/
theorem headerStep_writeEnds {s w : State} {st : Status} (h : headerFailure s = some st)
    (hw : WriteEnds (countHeaderFailure st s) (responseBytes s.par (hdrAt s 0) flagNak (enc16 (codeOf s st))) w)
    (hmax : 2 ≤ s.ctx.cfg.maxPayload.toNat) :
    headerStep s = (consumeBytes 1 w).enter .sync (consumeBytes 1 w).ctx.scanOffset := by
  have hquiet := (countHeaderFailure_quiet st s).1
  have hsend : sendStatus (hdrAt s 0) st (countHeaderFailure st s) = w :=
    sendStatus_ends _ _ (by rwa [hquiet.cfg]) (by rwa [codeOf, hquiet.par])
  simp only [headerStep, h, hsend]

/-- Settles O26 (`headerStep` is the model's function): `headerFailure_eq` gives the branches, `headerStep_failed` and
`headerStep_writeEnds` the failing ones. -/
theorem headerStep_spec : Obligations.HeaderStep := by
  intro s hin hi hs h10 hd h failed
  have hstep : step s = .next (headerStep s) :=
    step_of_transition hin ((transition_header hi hd hs).trans (if_neg (Nat.not_lt.mpr h10)))
  have hfailed : ∀ st, headerFailure s = some st → failed st (countHeaderFailure st s) := fun st hst =>
    ⟨⟨_, hstep, headerStep_failed hst⟩, fun w hw hmax => hstep.trans (congrArg _ (headerStep_writeEnds hst hw hmax))⟩
  have hchecks := headerFailure_eq s
  split
  next hcrc => exact hfailed .checksum (hchecks.trans (if_pos hcrc))
  next hcrc =>
    replace hchecks := hchecks.trans (if_neg hcrc)
    split
    next hlen => exact hfailed .overflow (hchecks.trans (if_pos hlen))
    next hlen =>
      replace hchecks := hchecks.trans (if_neg hlen)
      split
      next hseq => exact hfailed .sequence (hchecks.trans (if_pos hseq))
      next hseq =>
        rw [if_neg hseq] at hchecks
        rw [hstep, headerStep, hchecks]
        rfl

/-! #### PAYLOAD (R360, R361) -/

theorem runReceived_of_classify {p : Rx} {i : Instr} (h : classify p = some i) (s : State) :
    runReceived p s = exec i s := by
  unfold runReceived; rw [h]

/-- The parts of the state in which the dispatch stage sees a packet (43_framing_fsm.md R360). -/
theorem afterFetch_parts (s : State) : (afterFetch s).par = s.par ∧ (afterFetch s).reg = s.reg ∧
    (afterFetch s).env = s.env ∧ (afterFetch s).sb.bytes = s.sb.bytes ∧
    (afterFetch s).ctx = { s.ctx with
      state := .sync
      stats := { s.ctx.stats with received := s.ctx.stats.received + 1#32 } } := by
  simp [afterFetch]

theorem readable_afterFetch (s : State) : readable (afterFetch s) = (readable s).drop (sizeAt s 0) :=
  (readable_congr rfl).trans (readable_consume (sizeAt s 0) s)

/-- Settles O27: bytes that decode are the encoding of the instruction, so they are the packet at offset 0. -/
theorem stepRunsDecodedInstruction : Obligations.StepRunsDecodedInstruction := by
  intro s i rest hin hi hs hd hdecode
  obtain ⟨hwf, hbytes⟩ := decodedBytesAreTheEncoding _ i rest hdecode
  obtain ⟨hsize, hrx⟩ := rxAt_of_readable hwf hbytes
  have hcomplete : sizeAt s 0 ≤ s.sb.used := by
    rw [← readable_length s, hbytes, hsize, List.length_append]; omega
  have hstep : step s = payloadStep s := step_of_transition hin (transition_payload hi hd hs)
  have hrest : readable (afterFetch s) = rest := by rw [readable_afterFetch, hbytes, hsize, List.drop_left]
  obtain ⟨hpar, hreg, henv, hlisted, hctx⟩ := afterFetch_parts s
  refine ⟨afterFetch s, ?_, hrest, hlisted, hpar, hreg, henv, hctx⟩
  rw [hstep, payloadStep, if_pos hcomplete, hrx, runReceived_of_classify (classify_rx i)]

/-- Settles O28: the other branch of `payloadStep`. -/
theorem incompletePayloadEntersRecovery : Obligations.IncompletePayloadEntersRecovery := by
  intro s hin hi hs hd hshort
  have hincomplete : ¬ sizeAt s 0 ≤ s.sb.used := Nat.not_le.mpr hshort
  rw [step_of_transition hin (transition_payload hi hd hs), payloadStep, if_neg hincomplete]
  rfl

/-! #### SYNC_RECOVERY (R362, R363, R380) -/

/-- A recovery scan ends at a SYNC command it comes to. -/
theorem recoveryScan_found {s : State} {j fuel : Nat} (hfuel : s.sb.used < fuel + j) (h10 : j + 10 ≤ s.sb.used)
    (hword : syncWordAt s j = true) (hyes : syncCmdAt s j = .yes) : recoveryScan s fuel j = .found j := by
  obtain ⟨m, rfl⟩ : ∃ m, fuel = m + 1 := ⟨fuel - 1, by omega⟩
  rw [recoveryScan, if_neg (by omega), hword, if_neg (by simp), if_neg (by simp [Config.headerSize]; omega), hyes]

/-- The scan of a recovery step comes to `j` when it passes every offset before. -/
theorem recoveryScan_comes {s : State} {k j : Nat} (hk : k ≤ j) (hpass : ∀ i, k ≤ i → i < j → RecoveryPasses s i) :
    ∃ fuel, s.sb.used < fuel + j ∧ recoveryScan s (s.sb.used + 1) k = recoveryScan s fuel j :=
  recoveryScan_passes (j - k) k _ (by omega) (by omega) hpass

/-- A SYNC command that is found is the instruction SYNC, on channel 0 (43_framing_fsm.md R363). -/
theorem sync_of_syncCmdAt_yes {s : State} {k : Nat} {i : Instr} (hyes : syncCmdAt s k = .yes)
    (hclass : classify (rxAt s k) = some i) : ∃ u f, i = .sync u f ∧ f.channel = 0#8 := by
  obtain ⟨-, hopcode, hchannel, hcommand, -⟩ := syncCmdAt_yes hyes
  rw [← rxAt_hdr, ← classify_rxAt hclass] at hopcode hchannel hcommand
  cases i with
  | sync u f => exact ⟨u, f, rfl, hchannel⟩
  | ack op u f => exact absurd ((isResponse_ackFlags u).symm.trans hcommand) (by decide)
  | nak op a u f => exact absurd ((isResponse_nakFlags a u).symm.trans hcommand) (by decide)
  | _ => simp [Instr.rx, Frame.rx] at hopcode

/-- The parts of the state once the packet at an offset is taken (43_framing_fsm.md R380). -/
theorem takeAt_parts (k : Nat) (s : State) : (takeAt k s).par = s.par ∧ (takeAt k s).reg = s.reg ∧
    (takeAt k s).env = s.env ∧
    (takeAt k s).ctx = { s.ctx with stats := { s.ctx.stats with received := s.ctx.stats.received + 1#32 } } := by
  simp [takeAt]

theorem readable_takeAt (k : Nat) (s : State) : readable (takeAt k s) = (readable s).drop (k + sizeAt s k) := by
  have hcount : readable (takeAt k s) = readable (consumeBytes (sizeAt s k) (consumeBytes k s)) := readable_congr rfl
  rw [hcount, readable_consume, readable_consume, List.drop_drop]

/-- Settles O29: the scan passes every offset before `j`, and finds the SYNC command there. -/
theorem recoveryTakesSync : Obligations.RecoveryTakesSync := by
  intro s j i hin hi hs hd hj h10 hword hyes hno hclass
  have hpass : ∀ k, max s.ctx.scanOffset 1 ≤ k → k < j → RecoveryPasses s k := fun k hk hkj =>
    ⟨by omega, fun hw => ⟨by omega, hno k hk hkj hw⟩⟩
  obtain ⟨fuel, hfuel, hscan⟩ := recoveryScan_comes hj hpass
  rw [recoveryScan_found hfuel h10 hword hyes] at hscan
  have hstep : step s = exec i (takeAt j s) := by
    refine step_of_transition hin ((transition_syncRecovery hi hd hs).trans ?_)
    rw [recoveryStep, hscan, ← runReceived_of_classify hclass]
  obtain ⟨u, f, hsync, hchannel⟩ := sync_of_syncCmdAt_yes hyes hclass
  obtain ⟨hpar, hreg, henv, hctx⟩ := takeAt_parts j s
  exact ⟨u, f, takeAt j s, hsync, hchannel, hstep, readable_takeAt j s, hctx, hpar, hreg, henv⟩

/-- Settles O30: the scan stops at `j`, and `recoveryStep` then has these three cases. -/
theorem recoveryReturnsToPayload : Obligations.RecoveryReturnsToPayload := by
  intro s j hin hi hs hd hj hpass hstops
  obtain ⟨fuel, -, hscan⟩ := recoveryScan_comes hj hpass
  rw [recoveryScan_stops hstops] at hscan
  have htransition : transition s =
      if sizeAt s 0 ≤ s.sb.used then some (.next (s.enter .payload 0))
      else if j = s.ctx.scanOffset then none else some (.next (s.enter .syncRecovery j)) := by
    rw [transition_syncRecovery hi hd hs, recoveryStep, hscan]
  split
  next hcomplete => exact step_of_transition hin (htransition.trans (if_pos hcomplete))
  next hshort =>
    replace htransition := htransition.trans (if_neg hshort)
    split
    next hstays => exact htransition.trans (if_pos hstays)
    next hmoves =>
      rw [step_of_transition hin (htransition.trans (if_neg hmoves)), State.enter, ← hs]
      rfl

end Sys2Proof.Machine

/-! ### O5, O32, O33, O34, O45: the dispatch stage (43_framing_fsm.md R355, R364-R370)

What each check tests, in the terms of the spec; which check rejects a packet; and what a rejection does. -/

namespace Sys2Proof.Machine

/-! #### Exempt packets (R355) -/

theorem exempt_iff (h : Hdr) :
    exempt h = true ↔ h.flags &&& 0x23#8 ≠ 0#8 ∨ h.opcode = 0x00#8 ∨ h.opcode = 0x13#8 ∨ h.opcode = 0x29#8 := by
  have hmask : flagAck ||| flagNak ||| flagEvent = 0x23#8 := rfl
  simp [exempt, isUnsequenced, hasFlag, hmask, isExemptOpcode, or_assoc]

theorem seqOk_of_exempt {h : Hdr} (he : exempt h = true) (s : State) : seqOk s h = true := by
  simp [seqOk, he]

theorem acceptSeq_of_exempt {p : Rx} (he : exempt p.hdr = true) (s : State) : acceptSeq p s = s := if_pos he

/-- Settles O5: the exempt packets by their bits, and the two places that ask for them. -/
theorem exemptPackets : Obligations.ExemptPackets := by
  intro s h
  refine ⟨exempt_iff h, fun he => ⟨seqOk_of_exempt he s, fun p hp => ?_⟩⟩
  subst hp
  rw [acceptSeq_of_exempt he]

/-! #### The checks (R365-R368, R374) -/

/-- Policy (a): channel 0 is for the protocol and system opcodes, and for them only (R365). -/
theorem chanOk_iff (h : Hdr) : chanOk h = true ↔ (h.opcode.toNat ≤ 0x13 ↔ h.channel = 0#8) := by
  have hlow : h.opcode ≤ 0x13#8 ↔ h.opcode.toNat ≤ 0x13 := Iff.rfl
  have hhigh : 0x13#8 < h.opcode ↔ ¬ h.opcode.toNat ≤ 0x13 := Nat.not_le.symm
  simp only [chanOk, hlow, hhigh, Bool.or_eq_true, Bool.and_eq_true, decide_eq_true_eq, beq_iff_eq, bne_iff_ne]
  tauto

/-- Policy (c): a payload CRC fails when it is checked, there is a payload, and it differs (R366). -/
theorem payloadOk_eq_false_iff (s : State) (p : Rx) : payloadOk s p = false ↔
    s.ctx.cfg.crcEn = true ∧ p.payload ≠ [] ∧ p.payloadCrc ≠ crc32 s.par.crc32 p.payload := by
  simp [payloadOk, payloadCrcMatches, and_assoc]

/-- The opcodes of the table (30_encoding.md R147). -/
def commandCodes : List Nat := commandRows.map Prod.fst

/-- A command has a row exactly when its opcode is in the table. -/
theorem commandOf_isSome_iff (op : Byte) (u : UpperFlags) (f : Frame) :
    (commandOf op u f).isSome = true ↔ op.toNat ∈ commandCodes := by
  constructor
  · intro h
    by_contra hmem
    rw [commandOf_eq_none (fun r hr e => hmem (e ▸ List.mem_map_of_mem hr))] at h
    cases h
  · intro hmem
    obtain ⟨r, hr, e⟩ := List.mem_map.mp hmem
    rw [commandOf_of_mem hr e.symm]
    rfl

theorem opcodeDefined_eq_false_iff (op : Byte) : opcodeDefined op = false ↔ op.toNat ∉ commandCodes := by
  rw [← Bool.not_eq_true, opcodeDefined, commandOf_isSome_iff]

/-- A packet that is no instruction has an undefined opcode (30_encoding.md R150, R151). -/
theorem opcodeDefined_of_classify_none {p : Rx} (h : classify p = none) : opcodeDefined p.hdr.opcode = false := by
  unfold classify at h
  simp only at h
  split at h
  · cases h
  split at h
  · cases h
  rw [opcodeDefined_eq_false_iff, ← commandOf_isSome_iff, h]
  simp

/-- The channel opcodes that need one operation of their target (R368); READ is satisfied by either of two. -/
def requiredOps : List (Nat × ChannelOp) :=
  [(0x21, .poll), (0x22, .lock), (0x23, .unlock), (0x24, .shape), (0x25, .size), (0x27, .write), (0x28, .ioctl)]

theorem targetHasOp_of_mem {op : Byte} {o : ChannelOp} (h : (op.toNat, o) ∈ requiredOps) (d : Descriptor) :
    targetHasOp op d = hasOp d.ops o := by
  have hrows : ∀ r ∈ requiredOps, op.toNat = r.1 → targetHasOp op d = hasOp d.ops r.2 := by
    intro r hr hop
    unfold targetHasOp
    rw [hop]
    fin_cases hr <;> rfl
  exact hrows _ h rfl

theorem targetHasOp_read {op : Byte} (h : op.toNat = 0x26) (d : Descriptor) :
    targetHasOp op d = (hasOp d.ops .read || hasOp d.ops .readPointer) := by
  unfold targetHasOp
  rw [h]
  rfl

/-- Protocol and system opcodes and LIST name no target (R368). -/
theorem chanTargetOk_untargeted {h : Hdr} (hop : h.opcode.toNat ≤ 0x20) (s : State) : chanTargetOk s h = true :=
  if_pos hop

/-- Every other opcode needs a registered channel with the operation (R368). -/
theorem chanTargetOk_targeted_iff {h : Hdr} (hop : 0x20 < h.opcode.toNat) (s : State) :
    chanTargetOk s h = true ↔ ∃ d, registryFind s h.channel.toNat = some d ∧ targetHasOp h.opcode d = true := by
  have hle : ¬ h.opcode ≤ 0x20#8 := Nat.not_le.mpr hop
  rw [chanTargetOk, if_neg hle]
  cases registryFind s h.channel.toNat <;> simp

/-- The target check of an opcode that needs one operation (R368). -/
theorem chanTargetOk_iff_channelHas {h : Hdr} {o : ChannelOp} (ho : (h.opcode.toNat, o) ∈ requiredOps) (s : State) :
    chanTargetOk s h = true ↔ channelHas s h.channel o := by
  have hop : 0x20 < h.opcode.toNat := (by decide : ∀ r ∈ requiredOps, 0x20 < r.1) _ ho
  simp only [chanTargetOk_targeted_iff hop, targetHasOp_of_mem ho, channelHas]

/-- The target check of READ (R368). -/
theorem chanTargetOk_read_iff {h : Hdr} (hop : h.opcode.toNat = 0x26) (s : State) :
    chanTargetOk s h = true ↔ channelHas s h.channel .read ∨ channelHas s h.channel .readPointer := by
  simp only [chanTargetOk_targeted_iff (hop ▸ by decide : 0x20 < h.opcode.toNat), targetHasOp_read hop, channelHas,
    Bool.or_eq_true, and_or_left, exists_or]

/-- A LOCK within the interval of the last one comes too soon (R374). -/
theorem lockTooSoon_of_lt {s : State} {channel : Byte} {t0 : Word} (ht : lastLock s channel.toNat = some t0)
    (hlt : s.ctx.now - t0 < s.ctx.cfg.lockInterval) : lockTooSoon s channel = true := by
  rw [lockTooSoon, ht]
  exact decide_eq_true hlt

/-! #### Which check rejects (R364, 60_exceptions.md R603) -/

/-- The checks in their order; the last two, which look at the registry, stand as they are. -/
theorem rejection_eq (s : State) (p : Rx) : rejection s p =
    if ¬ (p.hdr.opcode.toNat ≤ 0x13 ↔ p.hdr.channel = 0#8) then some .invalid
    else if s.ctx.cfg.crcEn = true ∧ p.payload ≠ [] ∧ p.payloadCrc ≠ crc32 s.par.crc32 p.payload then some .checksum
    else if p.hdr.opcode.toNat ∉ commandCodes then some .unknown
    else if ¬ chanTargetOk s p.hdr = true then some .invalid
    else if p.hdr.opcode = 0x22#8 ∧ lockTooSoon s p.hdr.channel = true then some .busy
    else none := by
  simp only [rejection, ← chanOk_iff, ← payloadOk_eq_false_iff, ← opcodeDefined_eq_false_iff, Bool.not_eq_true',
    Bool.not_eq_true, Bool.and_eq_true, beq_iff_eq]

/-- Settles O33: the branches of `rejection_eq`; in the last one the clauses differ in what the target check needs. -/
theorem rejectionOrder : Obligations.RejectionOrder := by
  intro s p codes op has
  have hchecks := rejection_eq s p
  split
  next hchannel => exact hchecks.trans (if_pos hchannel)
  next hchannel =>
  replace hchecks := hchecks.trans (if_neg hchannel)
  split
  next hcrc => exact hchecks.trans (if_pos hcrc)
  next hcrc =>
  replace hchecks := hchecks.trans (if_neg hcrc)
  split
  next hcode => exact hchecks.trans (if_pos hcode)
  next hcode =>
  replace hchecks := hchecks.trans (if_neg hcode)
  have hinvalid (h : ¬ chanTargetOk s p.hdr = true) : rejection s p = some .invalid := hchecks.trans (if_pos h)
  have hlacks {n : Nat} {o : ChannelOp} (hrow : (n, o) ∈ requiredOps) (hop : op = n) (h : ¬ has o) :
      rejection s p = some .invalid := by
    subst hop
    exact hinvalid (mt (chanTargetOk_iff_channelHas hrow s).mp h)
  refine ⟨fun hop => ?untargeted, fun hop hnone => ?unregistered, hlacks (by decide), hlacks (by decide),
    hlacks (by decide), hlacks (by decide), hlacks (by decide), fun hop hr hrp => ?read, hlacks (by decide),
    hlacks (by decide), fun hop hlock t0 ht0 hlt => ?tooSoon⟩
  case untargeted =>
    have hnolock : p.hdr.opcode ≠ 0x22#8 := fun h => absurd (h ▸ hop : (0x22#8 : Byte).toNat ≤ 0x20) (by decide)
    exact hchecks.trans ((if_neg (not_not.mpr (chanTargetOk_untargeted hop s))).trans (if_neg fun h => hnolock h.1))
  case unregistered =>
    refine hinvalid (mt (chanTargetOk_targeted_iff hop s).mp ?_)
    rintro ⟨d, hd, -⟩
    rw [hnone] at hd
    cases hd
  case read => exact hinvalid (mt (chanTargetOk_read_iff hop s).mp (not_or.mpr ⟨hr, hrp⟩))
  case tooSoon =>
    have hrow : (op, .lock) ∈ requiredOps := hop ▸ by decide
    have hok : chanTargetOk s p.hdr = true := (chanTargetOk_iff_channelHas hrow s).mpr hlock
    have hopcode : p.hdr.opcode = 0x22#8 := BitVec.eq_of_toNat_eq hop
    exact hchecks.trans ((if_neg (not_not.mpr hok)).trans (if_pos ⟨hopcode, lockTooSoon_of_lt ht0 hlt⟩))

/-! #### What a rejection does (R370) -/

/-- A rejection does not advance `ctx.seq` (R370). -/
theorem reject_seq (st : Status) (p : Rx) (s : State) : (reject st p s).ctx.seq = s.ctx.seq := by
  rw [reject, sendStatus_seq]
  split <;> rfl

/-- The whole next state of a rejection, once it is known how the NAK ends (R370, R366). -/
theorem reject_writeEnds {s t : State} {st : Status} {p : Rx} (hmax : 2 ≤ s.ctx.cfg.maxPayload.toNat)
    (ht : WriteEnds (if st = .checksum then countChecksumError s else s)
      (responseBytes s.par p.hdr flagNak (enc16 (codeOf s st))) t) : reject st p s = t := by
  rw [reject]
  split at ht
  next hst => rw [if_pos hst]; exact sendStatus_ends p.hdr st hmax ht
  next hst => rw [if_neg hst]; exact sendStatus_ends p.hdr st hmax ht

/-- Every command passes the checks of `accept` and is then handled in its own way (R364). -/
theorem exec_command {i : Instr} (hcommand : isResponse i.rx.hdr.flags = false) (s : State) :
    ∃ handle, exec i s = accept i.rx s handle := by
  cases i with
  | ack op u f => exact absurd ((isResponse_ackFlags u).symm.trans hcommand) (by decide)
  | nak op a u f => exact absurd ((isResponse_nakFlags a u).symm.trans hcommand) (by decide)
  | getCaps u f => unfold exec execGetCaps; exact ⟨_, rfl⟩
  | stats u f => unfold exec execStats; exact ⟨_, rfl⟩
  | version u f => unfold exec execVersion; exact ⟨_, rfl⟩
  | lock u f => unfold exec execLock; exact ⟨_, rfl⟩
  | _ => exact ⟨_, rfl⟩

/-- A command is rejected before its meaning comes in (R364). -/
theorem exec_rejected {i : Instr} {s : State} {st : Status} (hi : s.ctx.initialised = true)
    (hcommand : isResponse i.rx.hdr.flags = false) (hr : rejection s i.rx = some st) :
    exec i s = .next (reject st i.rx s) := by
  obtain ⟨handle, hexec⟩ := exec_command hcommand s
  rw [hexec, accept_rejected hi hr]

/-- The packet with the length its payload has. Neither the checks nor their answer look at the length field. -/
def measured (p : Rx) : Rx :=
  { p with hdr := { p.hdr with length := BitVec.ofNat 16 p.payload.length } }

theorem classify_measured (p : Rx) : classify (measured p) = classify p := rfl

theorem rejection_measured (s : State) (p : Rx) : rejection s (measured p) = rejection s p := rfl

theorem reject_measured (st : Status) (p : Rx) (s : State) : reject st (measured p) s = reject st p s := rfl

/-- A packet that is no instruction meets the checks only (R367). -/
theorem runReceived_undefined {p : Rx} (h : classify p = none) (s : State) : runReceived p s = accept p s id := by
  unfold runReceived; rw [h]

/-- Every rejected packet that is no response is answered alike, whether its opcode has a row or not. -/
theorem runReceived_rejected {p : Rx} {s : State} {st : Status} (hi : s.ctx.initialised = true)
    (hcommand : isResponse p.hdr.flags = false) (hr : rejection s p = some st) :
    runReceived p s = .next (reject st p s) := by
  cases hclass : classify p with
  | none => rw [runReceived_undefined hclass]; exact accept_rejected hi hr
  | some i =>
    have hrx : i.rx = measured p := rx_of_classify _ i ((classify_measured p).trans hclass) rfl
    have hexec : exec i s = .next (reject st i.rx s) :=
      exec_rejected hi (by rw [hrx]; exact hcommand) (by rw [hrx, rejection_measured, hr])
    rw [runReceived_of_classify hclass, hexec, hrx, reject_measured]

/-- Settles O32: the packet is answered by `reject`, whose frame is `reject_quiet`. -/
theorem rejectionSendsOneNak : Obligations.RejectionSendsOneNak := by
  intro s p st hi hcommand hr
  have hrun := runReceived_rejected hi hcommand hr
  have hquiet := reject_quiet st p s
  obtain ⟨_, _, hctx⟩ := hquiet.ctx
  exact ⟨⟨_, hrun, by rw [hctx], reject_seq st p s, hquiet.reg, hquiet.sb, hquiet.waiting, hquiet.cfg⟩,
    fun hmax t ht => hrun.trans (congrArg _ (reject_writeEnds hmax ht))⟩

/-! #### An undefined opcode (R367) -/

/-- The state with other bytes left, back in SYNC, and another count of received packets. -/
def State.withFetched (s : State) (b : StagingBuffer) (received : Word) : State :=
  { s with sb := b, ctx := { s.ctx with state := .sync, stats := { s.ctx.stats with received := received } } }

/-- A consume touches the buffer only (40_staging_buffer.md R210). -/
theorem consumeBytes_eq_withSb (n : Nat) (s : State) : consumeBytes n s = s.withSb (consumeBytes n s).sb := by
  unfold consumeBytes; split <;> [rfl; split <;> rfl]

theorem afterFetch_eq_withFetched (s : State) :
    afterFetch s = s.withFetched (consumeBytes (sizeAt s 0) s).sb (s.ctx.stats.received + 1#32) := by
  rw [afterFetch, consumeBytes_eq_withSb]
  rfl

/-- How a write ends depends neither on the buffer nor on the count of received packets (44_reliable_delivery.md R423). -/
theorem WriteEnds.withFetched {s w : State} {bytes : List Byte} (h : WriteEnds s bytes w) (b : StagingBuffer) (n : Word) :
    WriteEnds (s.withFetched b n) bytes (w.withFetched b n) := by
  rcases h with ⟨rest, htakes, rfl⟩ | ⟨e, hfails, rfl⟩
  · exact .inl ⟨rest, htakes, rfl⟩
  · exact .inr ⟨e, hfails, rfl⟩

theorem WriteEnds.reg {s w : State} {bytes : List Byte} (h : WriteEnds s bytes w) : w.reg = s.reg := by
  rcases h with ⟨_, -, rfl⟩ | ⟨_, -, rfl⟩ <;> rfl

/-- Settles O34: the first two checks pass, the third one rejects, and the NAK ends as in `s`. -/
theorem undefinedOpcodeAnsweredUnknown : Obligations.UndefinedOpcodeAnsweredUnknown := by
  intro s w hin hi hs hd hcomplete hclass hchannel hpayload hmax hw
  have hunknown : rejection (afterFetch s) (rxAt s 0) = some .unknown := by
    have hchan : chanOk (rxAt s 0).hdr = true := (chanOk_iff _).mpr (by rw [rxAt_hdr]; exact hchannel)
    have hpay : payloadOk (afterFetch s) (rxAt s 0) = true := by rw [afterFetch_eq_withFetched]; exact hpayload
    simp [rejection, hchan, hpay, opcodeDefined_of_classify_none hclass]
  have hnak : reject .unknown (rxAt s 0) (afterFetch s) =
      w.withFetched (consumeBytes (sizeAt s 0) s).sb (s.ctx.stats.received + 1#32) := by
    rw [afterFetch_eq_withFetched]
    refine reject_writeEnds hmax ?_
    rw [rxAt_hdr]
    exact hw.withFetched _ _
  have hinit : (afterFetch s).ctx.initialised = true := by rw [afterFetch_eq_withFetched]; exact hi
  have hstep : step s = .next (w.withFetched (consumeBytes (sizeAt s 0) s).sb (s.ctx.stats.received + 1#32)) := by
    rw [step_of_transition hin (transition_payload hi hd hs), payloadStep]
    refine (if_pos hcomplete).trans ?_
    rw [runReceived_undefined hclass, accept_rejected hinit hunknown, hnak]
  exact ⟨_, hstep, (readable_congr rfl).trans (readable_consume (sizeAt s 0) s), rfl, hw.reg, rfl⟩

/-! #### Stray responses (R369, 44_reliable_delivery.md R428) -/

theorem respond_dropped {p : Rx} {s : State} {finish : State → State} (hi : s.ctx.initialised = true)
    (h : endsWait s p = false) : respond p s finish = .next s := by
  simp [respond, hi, h]

/-- Settles O45: neither a response outside a wait nor one for another transaction ends the wait. -/
theorem strayResponseDropped : Obligations.StrayResponseDropped := by
  intro op a u f s hi hstray
  have hdropped (p : Rx) (hop : p.hdr.opcode = op) (hsq : p.hdr.sequence = f.sequence) : endsWait s p = false := by
    rcases hstray with hstate | hopcode | hsequence
    · simp [endsWait, hstate]
    · simp [endsWait, ackMatch, hop, hopcode]
    · simp [endsWait, ackMatch, hsq, hsequence]
  exact ⟨respond_dropped hi (hdropped _ rfl rfl), respond_dropped hi (hdropped _ rfl rfl)⟩

end Sys2Proof.Machine

/-! ### O48: what one transport write puts on the ports and counts (44_reliable_delivery.md R423) -/

namespace Sys2Proof.Machine

/-- A flag test on a mask is a test of the masked bits (30_encoding.md R144). -/
theorem hasFlag_eq_false_iff {flags mask : Byte} : hasFlag flags mask = false ↔ flags &&& mask = 0#8 := by
  simp [hasFlag]

/-- The counters after a packet with these flags is written (R423). -/
def Stats.afterWrite (n : Stats) (flags : Byte) : Stats :=
  { n with
    sent := n.sent + 1#32
    eventsSent := if flags &&& 0x20#8 = 0#8 then n.eventsSent else n.eventsSent + 1#32 }

theorem countWrite_eq (p : Pkt) (s : State) : countWrite p s = s.withStats (s.ctx.stats.afterWrite p.hdr.flags) := by
  have hplain : hasFlag p.hdr.flags flagEvent = false ↔ p.hdr.flags &&& 0x20#8 = 0#8 := hasFlag_eq_false_iff
  unfold countWrite Stats.afterWrite
  split
  next hevent => rw [if_neg (mt hplain.mpr (by rw [hevent]; exact nofun))]; rfl
  next hevent => rw [if_pos (hplain.mp ((Bool.not_eq_true _).mp hevent))]; rfl

/-- The state after a packet with these flags and bytes is written; the transport's later answers are `rest` (R423). -/
def State.afterTaken (s : State) (flags : Byte) (bytes : List Byte) (rest : List Bool) : State :=
  { s with
    ctx := { s.ctx with stats := s.ctx.stats.afterWrite flags }
    env := { s.env with answers := rest, outputs := s.env.outputs ++ [.tWrite bytes true] } }

theorem transmitOnce_taken {s : State} {rest : List Bool} (h : TransportTakes s rest) (p : Pkt) :
    transmitOnce p s = (true, s.afterTaken p.hdr.flags (pktBytes s.par p) rest) := by
  rw [transmitOnce_takes h, countWrite_eq]
  rfl

/-- Settles O48: without a transport nothing is drawn; with one the first two answers decide. -/
theorem transmitOnceOutcomes : Obligations.TransmitOnceOutcomes := by
  intro s p rest bytes failed heard
  refine ⟨fun hnone => ?missing, fun hsome => ⟨fun ha => ?inactive, fun ha => ?broken, fun ha => ?written⟩⟩
  case missing => exact transmitOnce_fails (.inl ⟨hnone, rfl⟩)
  case inactive =>
    refine (transmitOnce_fails (.inr ⟨hsome, .inl ⟨rest, ha, rfl⟩⟩)).trans ?_
    simp only [failed, heard, List.append_nil]
    rfl
  case broken => exact transmitOnce_fails (.inr ⟨hsome, .inr ⟨rest, ha, rfl⟩⟩)
  case written => exact transmitOnce_taken ⟨hsome, ha⟩ p

end Sys2Proof.Machine

/-! ### O49, O50, O51, O52, O56: the sends (44_reliable_delivery.md R420-R425, R440-R442)

`sendOne` has one rule for each way it can end, with the next state written out. A send of one packet is `sendOne`, and a send
that has to be cut is a chain of them. -/

namespace Sys2Proof.Machine

/-! #### The packet of a chunk (R420-R422) -/

/-- The effective ACK requirement (R422). -/
theorem effAckRequired_iff {ackEn ackRequired : Bool} {flags : Byte} :
    effAckRequired ackEn flags ackRequired = true ↔ ackRequired = true ∧ ackEn = true ∧ flags &&& 0x23#8 = 0#8 := by
  have hmask : flagAck ||| flagNak ||| flagEvent = 0x23#8 := rfl
  simp [effAckRequired, isUnsequenced, hasFlag, hmask, and_assoc]

theorem effAckRequired_eq_false_iff {ackEn ackRequired : Bool} {flags : Byte} :
    effAckRequired ackEn flags ackRequired = false ↔
      ackRequired = false ∨ ackEn = false ∨ flags &&& 0x23#8 ≠ 0#8 := by
  rw [← Bool.not_eq_true, effAckRequired_iff]
  simp only [not_and_or, Bool.not_eq_true, ne_eq]

/-- The sequence number of a packet is the echoed one, or `ctx.seq` (R421). -/
theorem stamp_fst (s : State) (opcode flags : Byte) (echo : Option Byte) :
    (stamp s opcode flags echo).1 = echo.getD s.ctx.seq := by
  cases echo <;> rfl

/-- `ctx.seq` once the packet of this chunk is written (R421). -/
def seqAfter (s : State) (c : Chunk) : Byte :=
  if c.echoSeq ≠ none ∨ c.flags &&& 0x23#8 ≠ 0#8 ∨ c.opcode = 0x00#8 ∨ c.opcode = 0x13#8 ∨ c.opcode = 0x29#8
  then s.ctx.seq else s.ctx.seq + 1#8

theorem stamp_snd_iff (s : State) (opcode flags : Byte) (echo : Option Byte) :
    (stamp s opcode flags echo).2 = true ↔
      ¬ (echo ≠ none ∨ flags &&& 0x23#8 ≠ 0#8 ∨ opcode = 0x00#8 ∨ opcode = 0x13#8 ∨ opcode = 0x29#8) := by
  have hmask : flagAck ||| flagNak ||| flagEvent = 0x23#8 := rfl
  cases echo <;> simp [stamp, isUnsequenced, hasFlag, hmask, isExemptOpcode, and_assoc]

/-- The advance of `ctx.seq` behind a write, in a state that has it as in `s`. -/
theorem advanceSeq_of_stamp {s t : State} (c : Chunk) (hseq : t.ctx.seq = s.ctx.seq) :
    (if (stamp s c.opcode c.flags c.echoSeq).2 then advanceSeq t else t) =
      t.withCtx { t.ctx with seq := seqAfter s c } := by
  unfold seqAfter
  split
  next hadvance => rw [if_neg ((stamp_snd_iff ..).mp hadvance), ← hseq]; rfl
  next hkeep => rw [if_pos (not_not.mp (mt (stamp_snd_iff ..).mpr hkeep)), ← hseq]; rfl

/-- The packet of a chunk, sent with these flags (R420). -/
def chunkPktWith (s : State) (c : Chunk) (flags : Byte) : Pkt :=
  makePkt s.par (c.echoSeq.getD s.ctx.seq) c.channel flags c.opcode c.payload

theorem chunkPkt_unacked {s : State} {c : Chunk} (h : effAckRequired s.ctx.cfg.ackEn c.flags c.ackRequired = false) :
    chunkPkt s c = chunkPktWith s c (c.flags &&& 0x37#8) := by
  unfold chunkPkt chunkPktWith
  rw [h, stamp_fst, outgoingFlags, if_neg Bool.false_ne_true, BitVec.or_zero]

theorem chunkPkt_acked {s : State} {c : Chunk} (h : effAckRequired s.ctx.cfg.ackEn c.flags c.ackRequired = true) :
    chunkPkt s c = chunkPktWith s c ((c.flags &&& 0x37#8) ||| 0x08#8) := by
  unfold chunkPkt chunkPktWith
  rw [h, stamp_fst]
  rfl

/-- The flags a chunk keeps on the wire hold its EVENT bit. -/
theorem eventBit_outgoing (flags : Byte) : flags &&& 0x37#8 &&& 0x20#8 = flags &&& 0x20#8 := by
  rw [BitVec.and_assoc]; rfl

theorem eventBit_outgoing_acked (flags : Byte) :
    ((flags &&& 0x37#8) ||| 0x08#8) &&& 0x20#8 = flags &&& 0x20#8 := by
  rw [BitVec.and_or_distrib_right, eventBit_outgoing]; exact BitVec.or_zero

theorem Stats.afterWrite_congr {flags flags' : Byte} (h : flags &&& 0x20#8 = flags' &&& 0x20#8) (n : Stats) :
    n.afterWrite flags = n.afterWrite flags' := by
  unfold Stats.afterWrite; rw [h]

/-- A chunk that is acknowledged carries no EVENT bit, so it counts no event (R422, R423). -/
theorem Stats.afterWrite_of_acked {flags : Byte} (h : flags &&& 0x23#8 = 0#8) (n : Stats) :
    n.afterWrite flags = { n with sent := n.sent + 1#32 } := by
  have hevent : flags &&& 0x20#8 = 0#8 := by
    rw [show (0x20#8 : Byte) = 0x23#8 &&& 0x20#8 from rfl, ← BitVec.and_assoc, h]; rfl
  unfold Stats.afterWrite
  rw [if_pos hevent]

/-! #### The ends of `send_one` (R420, R424, R425) -/

/-- The state after the packet of a chunk is written (R420). -/
def State.afterSent (s : State) (c : Chunk) (bytes : List Byte) (rest : List Bool) : State :=
  { s with
    ctx := { s.ctx with seq := seqAfter s c, stats := s.ctx.stats.afterWrite c.flags }
    env := { s.env with answers := rest, outputs := s.env.outputs ++ [.tWrite bytes true] } }

section
variable {s : State} {c : Chunk} {rest : List Bool} {e : Env}

/-- Written, no ACK needed (R420). -/
theorem sendOne_unacked_taken (h : TransportTakes s rest)
    (ha : effAckRequired s.ctx.cfg.ackEn c.flags c.ackRequired = false) :
    sendOne c s =
      (.success, s.afterSent c (pktBytes s.par (chunkPktWith s c (c.flags &&& 0x37#8))) rest) := by
  unfold sendOne
  simp only [ha, Bool.false_and, Bool.false_eq_true, if_false, transmitOnce_taken h, chunkPkt_unacked ha]
  rw [advanceSeq_of_stamp (s := s) c (by rfl)]
  exact congrArg (Prod.mk _) (congrArg (fun n => (State.afterSent s c _ rest).withStats n)
    (Stats.afterWrite_congr (eventBit_outgoing c.flags) s.ctx.stats))

/-- Written while no send waits, ACK needed: the wait starts (R424). -/
theorem sendOne_acked_taken (h : TransportTakes s rest) (hw : s.ctx.waitForAck = false)
    (ha : effAckRequired s.ctx.cfg.ackEn c.flags c.ackRequired = true) :
    let p := chunkPktWith s c ((c.flags &&& 0x37#8) ||| 0x08#8)
    sendOne c s = (.pending, waitStart p (s.afterSent c (pktBytes s.par p) rest)) := by
  unfold sendOne
  simp only [hw, Bool.and_false, Bool.false_eq_true, if_false, transmitOnce_taken h, chunkPkt_acked ha, ha, if_true]
  rw [advanceSeq_of_stamp (s := s) c (by rfl)]
  exact congrArg (Prod.mk _) (congrArg (fun n => waitStart _ ((State.afterSent s c _ rest).withStats n))
    (Stats.afterWrite_congr (eventBit_outgoing_acked c.flags) s.ctx.stats))

/-- A send that needs an ACK is turned away while another one waits (R425). -/
theorem sendOne_busy (hw : s.ctx.waitForAck = true)
    (ha : effAckRequired s.ctx.cfg.ackEn c.flags c.ackRequired = true) : sendOne c s = (.busy, s) :=
  if_pos (by rw [ha, hw]; rfl)

end

/-! #### `send` on an initialised block -/

/-- The send port answers with what the send returns. -/
theorem execPort_send {s t : State} {c : Chunk} {r : SendResult} (hi : s.ctx.initialised = true)
    (h : sendChunk c s = (r, t)) : execPort (.send c) s = .next (emit (.returned (.sent r)) t) := by
  refine (guarded_initialised hi (portSend c s)).trans ?_
  unfold portSend
  rw [h]
  rfl

theorem execPort_send_eq {s : State} (hi : s.ctx.initialised = true) (c : Chunk) :
    execPort (.send c) s = .next (emit (.returned (.sent (sendChunk c s).1)) (sendChunk c s).2) :=
  execPort_send hi rfl

/-- Settles O49: the packet fits, so the send is `send_one`, which writes it or not. -/
theorem sendWithoutAck : Obligations.SendWithoutAck := by
  intro s c hi hfits hunacked bytes
  have ha := effAckRequired_eq_false_iff.mpr hunacked
  have hbytes : pktBytes s.par (chunkPkt s c) = bytes := by rw [chunkPkt_unacked ha]; rfl
  refine ⟨fun rest htakes => ?_, fun e hfails => ?_⟩
  · rw [execPort_send hi ((sendChunk_short hfits).trans (sendOne_unacked_taken htakes ha))]
    simp only [emit, State.afterSent, State.withEnv, List.append_assoc]
    rfl
  · exact execPort_send hi ((sendChunk_short hfits).trans (sendOne_unacked_fails ha (hbytes ▸ hfails)))

/-! #### A send that waits (R424, R440) -/

/-- A chunk that needs an ACK takes part in the sequence unless it is echoed or exempt (R421). -/
theorem seqAfter_of_acked {c : Chunk} (h : c.flags &&& 0x23#8 = 0#8) (s : State) :
    seqAfter s c = if c.echoSeq ≠ none ∨ c.opcode = 0x00#8 ∨ c.opcode = 0x13#8 ∨ c.opcode = 0x29#8
      then s.ctx.seq else s.ctx.seq + 1#8 := by
  unfold seqAfter
  exact if_congr (or_congr_right (or_iff_right (not_not.mpr h))) rfl rfl

/-- The state in which a wait has started for this chunk, with the chunks behind it held back (R424, R440). -/
def State.afterPending (s : State) (c : Chunk) (left : List Chunk) (rest : List Bool) : State :=
  let p := chunkPktWith s c ((c.flags &&& 0x37#8) ||| 0x08#8)
  { s with
    ctx := { waitingCtx s.ctx p with
      fragRest := left
      seq := seqAfter s c
      stats := { s.ctx.stats with sent := s.ctx.stats.sent + 1#32 } }
    env := { s.env with answers := rest, outputs := s.env.outputs ++ [.tWrite (pktBytes s.par p) true] } }

section
variable {s t : State} {c d : Chunk} {left : List Chunk} {rest : List Bool} {e : Env}

theorem sendOne_held_taken (h : TransportTakes s rest) (hw : s.ctx.waitForAck = false)
    (ha : effAckRequired s.ctx.cfg.ackEn c.flags c.ackRequired = true) :
    sendOne c (setFragRest left s) = (.pending, s.afterPending c left rest) := by
  obtain ⟨-, -, hflags⟩ := effAckRequired_iff.mp ha
  rw [sendOne_acked_taken (s := setFragRest left s) h hw ha]
  simp only [State.afterSent, Stats.afterWrite_of_acked hflags]
  rfl

theorem sendOne_held_fails {p : Pkt} (hw : s.ctx.waitForAck = false) (hp : chunkPkt s c = p)
    (h : TransportFails s (pktBytes s.par p) e) :
    sendOne c (setFragRest left s) = (.failed, setFragRest left (s.afterFailure e)) :=
  sendOne_fails (s := setFragRest left s) hw (hp ▸ h)

/-- A payload that is cut and needs an ACK: the first chunk starts the wait, and the others are held back (R440). -/
theorem sendChunk_cut_pending (hlong : s.ctx.cfg.maxPayload.toNat < c.payload.length) (hw : s.ctx.waitForAck = false)
    (ha : effAckRequired s.ctx.cfg.ackEn c.flags c.ackRequired = true)
    (hcut : fragments s.ctx.cfg.maxPayload.toNat c = d :: left)
    (hfirst : sendOne d (setFragRest left s) = (.pending, t)) : sendChunk c s = (.pending, t) := by
  unfold sendChunk sendFragmented
  simp only [if_pos hlong, ha, hw, hcut, hfirst, Bool.and_false, Bool.not_true, Bool.false_eq_true, if_false]

/-- A payload that is cut and needs an ACK, whose first chunk is not written: nothing is held back (R440). -/
theorem sendChunk_cut_failed (hlong : s.ctx.cfg.maxPayload.toNat < c.payload.length) (hw : s.ctx.waitForAck = false)
    (ha : effAckRequired s.ctx.cfg.ackEn c.flags c.ackRequired = true)
    (hcut : fragments s.ctx.cfg.maxPayload.toNat c = d :: left)
    (hfirst : sendOne d (setFragRest left s) = (.failed, t)) : sendChunk c s = (.failed, setFragRest [] t) := by
  unfold sendChunk sendFragmented
  simp only [if_pos hlong, ha, hw, hcut, hfirst, Bool.and_false, Bool.not_true, Bool.false_eq_true, if_false]

/-- A payload that is cut and needs no ACK: the chunks are sent one behind the other (R440). -/
theorem sendChunk_cut_unacked (hlong : s.ctx.cfg.maxPayload.toNat < c.payload.length)
    (ha : effAckRequired s.ctx.cfg.ackEn c.flags c.ackRequired = false) :
    sendChunk c s = sendAll (fragments s.ctx.cfg.maxPayload.toNat c) s := by
  unfold sendChunk sendFragmented
  simp only [if_pos hlong, ha, Bool.false_and, Bool.not_false, Bool.false_eq_true, if_false, if_true]

end

/-- Full chunks and a last one that is neither empty nor too long are the cut of their join (R440). -/
theorem cutPayload_of_parts {m : Nat} {first payload : List Byte} {more : List (List Byte)}
    (hjoin : first ++ more.flatten = payload) (hfirst : first.length = m) (hmore : more ≠ [])
    (hparts : ∀ i pl, more[i]? = some pl → if i + 1 < more.length then pl.length = m else 0 < pl.length ∧ pl.length ≤ m) :
    cutPayload m (payload.length + 1) payload = first :: more := by
  have hflat : payload = (first :: more).flatten := hjoin.symm
  have hpos : 0 < more.length := List.length_pos_iff.mpr hmore
  rw [hflat]
  refine cutPayload_flatten (first :: more) _ (List.cons_ne_nil _ _) (Nat.lt_succ_self _) fun i pl hpl => ?_
  cases i with
  | zero =>
    obtain rfl : first = pl := Option.some.inj hpl
    rwa [if_pos (by simpa using hpos)]
  | succ i => simpa using hparts i pl hpl

/-- A payload that is cut is longer than a chunk. -/
theorem lt_of_cutPayload {m n : Nat} {first payload : List Byte} {more : List (List Byte)}
    (h : cutPayload m (n + 1) payload = first :: more) (hmore : more ≠ []) : m < payload.length := by
  by_contra hle
  rw [cutPayload, if_pos (Nat.not_lt.mp hle)] at h
  exact hmore (List.cons.inj h).2.symm

/-- The chunks of a payload that is cut into `first` and `more` (R440). -/
theorem fragments_of_cut {m : Nat} {c : Chunk} {first : List Byte} {more : List (List Byte)} (hmore : more ≠ [])
    (hcut : cutPayload m (c.payload.length + 1) c.payload = first :: more) :
    fragments m c = { c with flags := c.flags ||| 0x10#8, payload := first } ::
      more.mapIdx (fun i pl =>
        { c with flags := if i + 1 < more.length then c.flags ||| 0x10#8 else c.flags &&& 0xEF#8, payload := pl }) := by
  have hlen : more.length ≠ 0 := mt List.length_eq_zero_iff.mp hmore
  unfold fragments
  simp only [hcut, List.mapIdx_cons, List.length_cons]
  congr 1
  · rw [show (0 + 1 == more.length + 1) = false by simpa using hmore]
    rfl
  · refine List.mapIdx_eq_mapIdx_iff.mpr fun i hi => ?_
    by_cases hlast : i + 1 < more.length
    · rw [if_pos hlast, show (i + 1 + 1 == more.length + 1) = false by simpa using hlast.ne]
      rfl
    · rw [if_neg hlast, show (i + 1 + 1 == more.length + 1) = true by simp; omega]
      rfl

/-- A flag that is no part of ACK, NAK and EVENT makes no difference to the requirement (R422). -/
theorem effAckRequired_orFragment (ackEn : Bool) (flags : Byte) (ackRequired : Bool) :
    effAckRequired ackEn (flags ||| 0x10#8) ackRequired = effAckRequired ackEn flags ackRequired :=
  effAckRequired_fragment ackEn flags false ackRequired

/-- Settles O50: `send_one` starts the wait for the one packet, or for the first chunk with the others held back. -/
theorem sendStartsWait : Obligations.SendStartsWait := by
  intro s c hi hreq hen hflags hw m sq sent
  have ha : effAckRequired s.ctx.cfg.ackEn c.flags c.ackRequired = true := effAckRequired_iff.mpr ⟨hreq, hen, hflags⟩
  refine ⟨fun hfits => ⟨fun rest htakes => ?one, fun e hfails => ?oneFails⟩,
    fun first more hjoin hfirst hmore hparts => ?cut⟩
  case one =>
    have hsend := (sendChunk_short hfits).trans (sendOne_held_taken (left := s.ctx.fragRest) htakes hw ha)
    rw [execPort_send hi hsend, State.afterPending, seqAfter_of_acked hflags]
    simp only [emit, State.withEnv, List.append_assoc]
    rfl
  case oneFails =>
    exact execPort_send hi ((sendChunk_short hfits).trans
      (sendOne_held_fails (left := s.ctx.fragRest) hw (chunkPkt_acked ha) hfails))
  case cut =>
    have hcut := cutPayload_of_parts hjoin hfirst hmore hparts
    have hlong := lt_of_cutPayload hcut hmore
    have hfrag := fragments_of_cut hmore hcut
    have hfirstFlags : (c.flags ||| 0x10#8) &&& 0x23#8 = 0#8 := by
      rw [BitVec.and_or_distrib_right, hflags]; rfl
    have hfirstAcked := (effAckRequired_orFragment s.ctx.cfg.ackEn c.flags c.ackRequired).trans ha
    have hwire : ((c.flags ||| 0x10#8) &&& 0x37#8) ||| 0x08#8 = (c.flags &&& 0x37#8) ||| 0x18#8 := by
      rw [BitVec.and_or_distrib_right, BitVec.or_assoc]; rfl
    have hpkt : chunkPkt s { c with flags := c.flags ||| 0x10#8, payload := first } =
        makePkt s.par sq c.channel ((c.flags &&& 0x37#8) ||| 0x18#8) c.opcode first := by
      rw [chunkPkt_acked hfirstAcked, chunkPktWith, hwire]
    refine ⟨fun rest htakes => ?_, fun e hfails => ?_⟩
    · have hsend := sendChunk_cut_pending hlong hw ha hfrag (sendOne_held_taken htakes hw hfirstAcked)
      rw [execPort_send hi hsend, State.afterPending, seqAfter_of_acked hfirstFlags, hwire]
      simp only [emit, State.withEnv, List.append_assoc, ← hreq]
      rfl
    · exact execPort_send hi (sendChunk_cut_failed hlong hw ha hfrag (sendOne_held_fails hw hpkt hfails))

/-! #### A send during a wait (R425) -/

theorem sendChunk_busy {s : State} {c : Chunk} (hw : s.ctx.waitForAck = true)
    (ha : effAckRequired s.ctx.cfg.ackEn c.flags c.ackRequired = true) : sendChunk c s = (.busy, s) := by
  unfold sendChunk
  split
  · exact if_pos (by rw [ha, hw]; rfl)
  · exact sendOne_busy hw ha

theorem sendOne_unacked_result {s : State} {c : Chunk}
    (ha : effAckRequired s.ctx.cfg.ackEn c.flags c.ackRequired = false) :
    (sendOne c s).1 = .success ∨ (sendOne c s).1 = .failed := by
  rcases sendOne_cases c s with ⟨h, -, -⟩ | ⟨u, -, -, e⟩ | ⟨u, -, -, e⟩ | ⟨u, -, h, -, -⟩
  · rw [ha] at h; cases h
  · exact .inr (congrArg Prod.fst e)
  · exact .inl (congrArg Prod.fst e)
  · rw [ha] at h; cases h

theorem sendAll_unacked_result {cs : List Chunk} : ∀ {s : State},
    (∀ c ∈ cs, effAckRequired s.ctx.cfg.ackEn c.flags c.ackRequired = false) →
    (sendAll cs s).1 = .success ∨ (sendAll cs s).1 = .failed := by
  induction cs with
  | nil => exact fun _ => .inl rfl
  | cons c cs ih =>
    intro s h
    have hc := h c List.mem_cons_self
    have hresult := sendOne_unacked_result hc
    have hquiet := sendOne_quiet hc
    unfold sendAll
    split <;> rename_i hsent <;> rw [hsent] at hresult hquiet
    · exact ih fun d hd => by rw [hquiet.cfg]; exact h d (List.mem_cons_of_mem c hd)
    · exact hresult

/-- The chunks of a send have its ACK requirement (R422, R440). -/
theorem fragments_unacked {m : Nat} {c : Chunk} {ackEn : Bool}
    (ha : effAckRequired ackEn c.flags c.ackRequired = false) :
    ∀ d ∈ fragments m c, effAckRequired ackEn d.flags d.ackRequired = false := by
  intro d hd
  obtain ⟨last, hflags, hreq, -⟩ := fragments_mem hd
  rw [hflags, hreq, effAckRequired_fragment, ha]

/-- A send that needs no ACK is written or fails; it is never turned away and never waits (R420, R422). -/
theorem sendChunk_unacked_result {s : State} {c : Chunk}
    (ha : effAckRequired s.ctx.cfg.ackEn c.flags c.ackRequired = false) :
    (sendChunk c s).1 = .success ∨ (sendChunk c s).1 = .failed := by
  rcases Nat.lt_or_ge s.ctx.cfg.maxPayload.toNat c.payload.length with hlong | hfits
  · rw [sendChunk_cut_unacked hlong ha]
    exact sendAll_unacked_result (fragments_unacked ha)
  · rw [sendChunk_short hfits]
    exact sendOne_unacked_result ha

/-- Settles O51: a send that needs an ACK is turned away, and any other one is `Quiet`. -/
theorem oneOutstandingTransaction : Obligations.OneOutstandingTransaction := by
  intro s c hi hw
  split
  next hacked => exact execPort_send hi (sendChunk_busy hw (effAckRequired_iff.mpr hacked))
  next hacked =>
    have ha : effAckRequired s.ctx.cfg.ackEn c.flags c.ackRequired = false :=
      (Bool.not_eq_true _).mp (mt effAckRequired_iff.mp hacked)
    have hquiet := sendChunk_quiet ha
    obtain ⟨st, sq, hctx⟩ := hquiet.ctx
    exact ⟨_, _, execPort_send_eq hi c, sendChunk_unacked_result ha, st, sq, hctx, hquiet.sb, hquiet.reg⟩

/-! #### A payload that is cut, without an ACK requirement (R440, R441) -/

/-- A payload of `k` full chunks and a shorter or full rest is cut into these (R440). -/
theorem cutPayload_parts {m r : Nat} (hr : 0 < r) (hrm : r ≤ m) : ∀ {k fuel : Nat} {payload : List Byte}, k < fuel →
    payload.length = k * m + r → (cutPayload m fuel payload).length = k + 1 ∧
      (cutPayload m fuel payload).flatten = payload ∧
      ∀ i part, (cutPayload m fuel payload)[i]? = some part → part.length = if i < k then m else r := by
  intro k
  induction k with
  | zero =>
    intro fuel payload hfuel hlen
    obtain ⟨n, rfl⟩ : ∃ n, fuel = n + 1 := ⟨fuel - 1, by omega⟩
    rw [cutPayload, if_pos (by omega)]
    refine ⟨rfl, List.append_nil _, fun i part hpart => ?_⟩
    obtain rfl : payload = part := (List.mem_singleton.mp (List.mem_of_getElem? hpart)).symm
    rw [if_neg (Nat.not_lt_zero i)]
    omega
  | succ k ih =>
    intro fuel payload hfuel hlen
    obtain ⟨n, rfl⟩ : ∃ n, fuel = n + 1 := ⟨fuel - 1, by omega⟩
    have hlen : payload.length = k * m + m + r := by rw [hlen, Nat.succ_mul]
    obtain ⟨hcount, hjoin, hparts⟩ := ih (fuel := n) (payload := payload.drop m) (by omega)
      (by rw [List.length_drop]; omega)
    rw [cutPayload, if_neg (by omega)]
    refine ⟨by rw [List.length_cons, hcount], by rw [List.flatten_cons, hjoin, List.take_append_drop],
      fun i part hpart => ?_⟩
    cases i with
    | zero =>
      obtain rfl : payload.take m = part := Option.some.inj hpart
      rw [if_pos (Nat.succ_pos k), List.length_take]
      omega
    | succ i => simpa using hparts i part hpart

theorem fragments_length (m : Nat) (c : Chunk) :
    (fragments m c).length = (cutPayload m (c.payload.length + 1) c.payload).length := by
  simp [fragments]

/-- Cutting loses nothing of the payload (R440). -/
theorem fragments_payload (m : Nat) (c : Chunk) :
    (fragments m c).map (·.payload) = cutPayload m (c.payload.length + 1) c.payload := by
  refine List.ext_getElem? fun i => ?_
  simp [fragments, List.getElem?_mapIdx, Function.comp_def]

theorem fragments_flags {m i : Nat} {c d : Chunk} (h : (fragments m c)[i]? = some d) :
    d.flags = fragmentFlags c.flags (i + 1 == (fragments m c).length) := by
  rw [fragments_length]
  simp only [fragments, List.getElem?_mapIdx, Option.map_eq_some_iff] at h
  obtain ⟨_, -, rfl⟩ := h
  rfl

/-- The packet that carries this chunk, without an ACK requirement (R420). -/
structure Carries (c : Chunk) (p : Pkt) : Prop where
  channel : p.hdr.channel = c.channel
  opcode : p.hdr.opcode = c.opcode
  flags : p.hdr.flags = c.flags &&& 0x37#8
  payload : p.payload = c.payload
  echo : c.echoSeq ≠ none → some p.hdr.sequence = c.echoSeq

theorem Carries.chunkPktWith (s : State) (c : Chunk) : Carries c (chunkPktWith s c (c.flags &&& 0x37#8)) where
  channel := rfl
  opcode := rfl
  flags := rfl
  payload := rfl
  echo h := by
    obtain ⟨q, hq⟩ := Option.ne_none_iff_exists'.mp h
    rw [hq]
    exact congrArg some (by simp [Machine.chunkPktWith, makePkt, hq])

/-- Chunks that need no ACK are written one behind the other while the transport takes them (R440). -/
theorem sendAll_taken {rest : List Bool} : ∀ {cs : List Chunk} {s : State}, (findTransport s).isSome = true →
    s.env.answers = List.replicate (2 * cs.length) true ++ rest →
    (∀ c ∈ cs, effAckRequired s.ctx.cfg.ackEn c.flags c.ackRequired = false) →
    ∃ (t : State) (pkts : List Pkt), sendAll cs s = (.success, t) ∧
      t.env.outputs = s.env.outputs ++ pkts.map (fun p => .tWrite (pktBytes s.par p) true) ∧
      List.Forall₂ Carries cs pkts := by
  intro cs
  induction cs with
  | nil => exact fun {s} _ _ _ => ⟨s, [], rfl, (List.append_nil _).symm, .nil⟩
  | cons c cs ih =>
    intro s hfound hanswers hunacked
    have htakes : TransportTakes s (List.replicate (2 * cs.length) true ++ rest) := by
      refine ⟨hfound, hanswers.trans ?_⟩
      rw [List.length_cons, Nat.mul_succ, List.replicate_succ, List.replicate_succ]
      rfl
    have hone := sendOne_unacked_taken htakes (hunacked c List.mem_cons_self)
    obtain ⟨t, pkts, hall, houtputs, hcarry⟩ := ih
      (s := s.afterSent c (pktBytes s.par (chunkPktWith s c (c.flags &&& 0x37#8)))
        (List.replicate (2 * cs.length) true ++ rest))
      hfound rfl (fun d hd => hunacked d (List.mem_cons_of_mem c hd))
    refine ⟨t, chunkPktWith s c (c.flags &&& 0x37#8) :: pkts, ?_, ?_, .cons (.chunkPktWith s c) hcarry⟩
    · rw [sendAll, hone]; exact hall
    · rw [houtputs]
      exact List.append_assoc _ _ _

/-- The packet at a position carries the chunk at this position. -/
theorem exists_carried {cs : List Chunk} {pkts : List Pkt} (h : List.Forall₂ Carries cs pkts) {i : Nat} {p : Pkt}
    (hp : pkts[i]? = some p) : ∃ c, cs[i]? = some c ∧ Carries c p := by
  obtain ⟨hi, rfl⟩ := List.getElem?_eq_some_iff.mp hp
  have hi' : i < cs.length := h.length_eq ▸ hi
  exact ⟨cs[i], List.getElem?_eq_getElem hi', h.get hi' hi⟩

theorem carried_payloads {cs : List Chunk} {pkts : List Pkt} (h : List.Forall₂ Carries cs pkts) :
    pkts.map (·.payload) = cs.map (·.payload) := by
  have heq : List.Forall₂ Eq (cs.map (·.payload)) (pkts.map (·.payload)) :=
    List.forall₂_map_left_iff.mpr (List.forall₂_map_right_iff.mpr (h.imp fun _ _ hd => hd.payload.symm))
  rw [List.forall₂_eq_eq_eq] at heq
  exact heq.symm

/-- FRAGMENT goes on the wire as it is in the chunk (R440). -/
theorem fragmentBit_wire (flags : Byte) (last : Bool) :
    fragmentFlags flags last &&& 0x37#8 &&& 0x10#8 = if last then 0#8 else 0x10#8 := by
  revert flags last; decide

/-- Settles O52: the payload is cut as `cutPayload_parts` says, and `sendAll_taken` writes one packet for each chunk. -/
theorem fragmentsCarryThePayload : Obligations.FragmentsCarryThePayload := by
  intro s c k r rest hi hfound hanswers hunacked hk hr hrm hlen
  have ha := effAckRequired_eq_false_iff.mpr hunacked
  have hm : 0 < s.ctx.cfg.maxPayload.toNat := by omega
  have hkm : k ≤ k * s.ctx.cfg.maxPayload.toNat := Nat.le_mul_of_pos_right k hm
  have hmk : s.ctx.cfg.maxPayload.toNat ≤ k * s.ctx.cfg.maxPayload.toNat := Nat.le_mul_of_pos_left _ hk
  have hsend := sendChunk_cut_unacked (by omega) ha
  obtain ⟨hcount, hjoin, hparts⟩ := cutPayload_parts (fuel := c.payload.length + 1) hr hrm (by omega) hlen
  rw [← fragments_payload] at hcount hjoin hparts
  rw [List.length_map] at hcount
  obtain ⟨t, pkts, hall, houtputs, hcarry⟩ := sendAll_taken hfound (hcount.symm ▸ hanswers) (fragments_unacked ha)
  have hpayloads := carried_payloads hcarry
  have hchunk {i p} (hp : pkts[i]? = some p) := exists_carried hcarry hp
  refine ⟨t, pkts, execPort_send hi (hsend.trans hall), hcarry.length_eq ▸ hcount, houtputs, fun i p hp => ?_,
    hpayloads ▸ hjoin, fun hecho p hp => ?_⟩
  · obtain ⟨d, hd, hdp⟩ := hchunk hp
    obtain ⟨-, -, -, hchannel, hopcode, -, -⟩ := fragments_mem (List.mem_of_getElem? hd)
    have hsize := hparts i d.payload (by rw [List.getElem?_map, hd]; rfl)
    have hbit : p.hdr.flags &&& 0x10#8 = if i + 1 == k + 1 then 0#8 else 0x10#8 := by
      rw [hdp.flags, fragments_flags hd, fragmentBit_wire, hcount]
    have hik : i < k + 1 := hcount ▸ (List.getElem?_eq_some_iff.mp hd).1
    refine ⟨hdp.channel.trans hchannel, hdp.opcode.trans hopcode, ?_⟩
    rw [hdp.payload, hsize, hbit]
    split
    next hlt => exact ⟨rfl, by rw [if_neg (by simp; omega)]; decide⟩
    next hlast => exact ⟨rfl, if_pos (by simp; omega)⟩
  · obtain ⟨i, hi'⟩ := List.mem_iff_getElem?.mp hp
    obtain ⟨d, hd, hdp⟩ := hchunk hi'
    obtain ⟨-, -, -, -, -, hdecho, -⟩ := fragments_mem (List.mem_of_getElem? hd)
    rw [← hdecho] at hecho ⊢
    exact hdp.echo hecho

/-! #### What a send puts on the ports (R422, R423)

`Puts` is `Appends` with a condition on what is added. -/

/-- The parameters stay, and everything added to the trace satisfies `P`. -/
structure Puts (P : Output → Prop) (s t : State) : Prop where
  par : t.par = s.par
  outputs : ∃ new, t.env.outputs = s.env.outputs ++ new ∧ ∀ o ∈ new, P o

/-- `P` holds of every packet `send_one` may write under this configuration. -/
def AdmitsSends (P : Output → Prop) (cfg : Config.Cfg) : Prop :=
  ∀ (u : State) (c : Chunk) (ok : Bool), u.ctx.cfg = cfg → P (.tWrite (pktBytes u.par (chunkPkt u c)) ok)

section
variable {P : Output → Prop}

theorem Puts.of_silent {s t : State} (hp : t.par = s.par) (he : t.env.outputs = s.env.outputs) : Puts P s t :=
  ⟨hp, [], by rw [he, List.append_nil], by simp⟩

theorem Puts.refl (s : State) : Puts P s s := .of_silent rfl rfl

theorem Puts.trans {s t u : State} (h : Puts P s t) (g : Puts P t u) : Puts P s u := by
  obtain ⟨new, hnew, hP⟩ := h.outputs
  obtain ⟨new', gnew, gP⟩ := g.outputs
  exact ⟨g.par.trans h.par, new ++ new', by rw [gnew, hnew, List.append_assoc],
    fun o ho => (List.mem_append.mp ho).elim (hP o) (gP o)⟩

theorem Puts.emitAll {os : List Output} (h : ∀ o ∈ os, P o) (s : State) : Puts P s (emitAll os s) := ⟨rfl, os, rfl, h⟩

theorem Puts.emit {o : Output} (h : P o) (s : State) : Puts P s (emit o s) :=
  ⟨rfl, [o], rfl, fun _ ho => List.mem_singleton.mp ho ▸ h⟩

theorem Puts.of_draw {s t : State} {a : Bool} (h : draw s = (a, t)) : Puts P s t := by
  obtain ⟨ans, n, hdraw⟩ := draw_frame s
  rw [h] at hdraw
  obtain rfl : t = _ := hdraw
  exact .of_silent rfl rfl

theorem Puts.transmitOnce {p : Pkt} {s : State} (h : ∀ ok, P (.tWrite (pktBytes s.par p) ok)) :
    Puts P s (transmitOnce p s).2 := by
  rcases transmitOnce_cases p s with ⟨-, e⟩ | ⟨d, s1, -, h1, e⟩ | ⟨d, s1, s2, -, h1, h2, e⟩ | ⟨d, s1, s2, -, h1, h2, e⟩ <;>
    rw [e]
  · exact .of_silent rfl rfl
  · exact (of_draw h1).trans (.of_silent rfl rfl)
  · exact (of_draw h1).trans <| (of_draw h2).trans <| (Puts.emit (h false) s2).trans (.of_silent rfl rfl)
  · rw [countWrite_eq]
    exact (of_draw h1).trans <| (of_draw h2).trans <| (Puts.emit (h true) s2).trans (.of_silent rfl rfl)

theorem Puts.sendOne {c : Chunk} {s : State} (h : AdmitsSends P s.ctx.cfg) : Puts P s (sendOne c s).2 := by
  have hwrite : Puts P s (Machine.transmitOnce (chunkPkt s c) s).2 := .transmitOnce fun ok => h s c ok rfl
  unfold Machine.sendOne
  simp only
  split
  · exact .refl s
  split <;> rename_i u hsent <;> rw [hsent] at hwrite
  · exact hwrite
  have hstamped : Puts P s (if (stamp s c.opcode c.flags c.echoSeq).2 then advanceSeq u else u) := by
    split
    · exact hwrite.trans (.of_silent rfl rfl)
    · exact hwrite
  split
  · exact hstamped.trans (.of_silent rfl rfl)
  · exact hstamped

theorem sendOne_cfg (c : Chunk) (s : State) : (sendOne c s).2.ctx.cfg = s.ctx.cfg :=
  (Framed.sendOne (L := True) (C := True) c s).cfg trivial

theorem Puts.sendAll {cs : List Chunk} {s : State} (h : AdmitsSends P s.ctx.cfg) : Puts P s (sendAll cs s).2 := by
  induction cs generalizing s with
  | nil => exact .refl s
  | cons c cs ih =>
    have hone : Puts P s (Machine.sendOne c s).2 := .sendOne h
    have hcfg := sendOne_cfg c s
    unfold Machine.sendAll
    split <;> rename_i hsent <;> rw [hsent] at hone hcfg
    · exact hone.trans (ih (hcfg.symm ▸ h))
    · exact hone

theorem Puts.sendFragmented {c : Chunk} {s : State} (h : AdmitsSends P s.ctx.cfg) : Puts P s (sendFragmented c s).2 := by
  unfold Machine.sendFragmented
  simp only
  split
  · exact .refl s
  split
  · exact .sendAll h
  split
  · exact .refl s
  rename_i d left _
  have hone : Puts P s (Machine.sendOne d (setFragRest left s)).2 :=
    (Puts.of_silent (s := s) (t := setFragRest left s) rfl rfl).trans (.sendOne h)
  split <;> rename_i hsent <;> rw [hsent] at hone
  · exact hone
  · exact hone.trans (.of_silent rfl rfl)

theorem Puts.sendChunk {c : Chunk} {s : State} (h : AdmitsSends P s.ctx.cfg) : Puts P s (sendChunk c s).2 := by
  unfold Machine.sendChunk
  split
  · exact .sendFragmented h
  · exact .sendOne h

end

/-- A packet on the wire without ACK_REQUIRED (30_encoding.md R144). -/
def IsUnackedWrite (o : Output) : Prop := ∃ b ok, o = .tWrite b ok ∧ byteOf b 4 &&& 0x08#8 = 0#8

/-- While ACK is disabled every packet goes without ACK_REQUIRED (R422). -/
theorem admitsSends_unacked {cfg : Config.Cfg} (h : cfg.ackEn = false) : AdmitsSends IsUnackedWrite cfg := by
  intro u c ok hcfg
  have ha : effAckRequired u.ctx.cfg.ackEn c.flags c.ackRequired = false :=
    effAckRequired_eq_false_iff.mpr (.inr (.inl (hcfg ▸ h)))
  refine ⟨_, ok, rfl, ?_⟩
  rw [chunkPkt_unacked ha]
  show c.flags &&& 0x37#8 &&& 0x3F#8 &&& 0x08#8 = 0#8
  rw [BitVec.and_assoc, BitVec.and_assoc]
  exact BitVec.and_zero

/-- Settles O56: no effective requirement is set, so the send is `Quiet` and puts only such packets on the wire. -/
theorem ackDisabledNeverWaits : Obligations.AckDisabledNeverWaits := by
  intro s c hi hen
  have ha : effAckRequired s.ctx.cfg.ackEn c.flags c.ackRequired = false :=
    effAckRequired_eq_false_iff.mpr (.inr (.inl hen))
  obtain ⟨st, sq, hctx⟩ := (sendChunk_quiet ha).ctx
  obtain ⟨new, hnew, hwrites⟩ := (Puts.sendChunk (c := c) (admitsSends_unacked hen)).outputs
  exact ⟨_, _, new, execPort_send_eq hi c, sendChunk_unacked_result ha, by rw [hctx], by rw [hctx], hnew, hwrites⟩

end Sys2Proof.Machine

/-! ### O57: what the waiting caller hears (44_reliable_delivery.md R437, 70_reset_and_hazards.md R702)

A step from a wait leaves the wait open, or `HearsOnce` holds of it: among what it puts on the ports there is one result, which
is the final status. `Puts NoResult` says that a part of the step, before the result or behind it, gives none. -/

namespace Sys2Proof.Machine

/-- The output is not the result of a wait. -/
def NoResult (o : Output) : Prop := ∀ code, o ≠ .sendResult code

theorem admitsSends_noResult (cfg : Config.Cfg) : AdmitsSends NoResult cfg := fun _ _ _ _ => nofun

/-- The caller hears one result from `s` to `t`: the final status, which is the code of a status. -/
structure HearsOnce (s t : State) : Prop where
  status : t.ctx.ackStatus ∈ statusCodes s.par.statusCode
  heard : ∃ pre post, t.env.outputs = s.env.outputs ++ pre ++ [.sendResult t.ctx.ackStatus] ++ post ∧
    ∀ o ∈ pre ++ post, NoResult o

/-- The wait goes on, or its caller hears its one result. -/
def Concludes (s t : State) : Prop := t.ctx.waitForAck = true ∨ HearsOnce s t

theorem HearsOnce.of_result {s t : State} (hs : t.ctx.ackStatus ∈ statusCodes s.par.statusCode)
    (ho : t.env.outputs = s.env.outputs ++ [.sendResult t.ctx.ackStatus]) : HearsOnce s t :=
  ⟨hs, [], [], by rw [ho]; simp, by simp⟩

theorem HearsOnce.behind {s u t : State} (g : HearsOnce u t) (h : Puts NoResult s u) : HearsOnce s t := by
  obtain ⟨new, hnew, hsilent⟩ := h.outputs
  obtain ⟨pre, post, hheard, hothers⟩ := g.heard
  refine ⟨h.par ▸ g.status, new ++ pre, post, by rw [hheard, hnew]; simp, fun o ho => ?_⟩
  rw [List.append_assoc] at ho
  exact (List.mem_append.mp ho).elim (hsilent o) (hothers o)

theorem HearsOnce.before {s u t : State} (h : HearsOnce s u) (g : Puts NoResult u t)
    (hs : t.ctx.ackStatus = u.ctx.ackStatus) : HearsOnce s t := by
  obtain ⟨new, hnew, hsilent⟩ := g.outputs
  obtain ⟨pre, post, hheard, hothers⟩ := h.heard
  refine ⟨hs ▸ h.status, pre, post ++ new, by rw [hnew, hheard, hs]; simp, fun o ho => ?_⟩
  rw [← List.append_assoc] at ho
  exact (List.mem_append.mp ho).elim (hothers o) (hsilent o)

theorem Concludes.behind {s u t : State} (g : Concludes u t) (h : Puts NoResult s u) : Concludes s t :=
  g.imp id fun heard => heard.behind h

theorem Concludes.of_waiting {s t : State} (hw : s.ctx.waitForAck = true) (h : t.ctx.waitForAck = s.ctx.waitForAck) :
    Concludes s t := .inl (h.trans hw)

/-! #### The resets (70_reset_and_hazards.md R702) -/

theorem puts_unlockCalls (s t : State) : Puts NoResult t (emitAll (unlockCalls s) t) := by
  refine .emitAll (fun o ho code => ?_) t
  obtain ⟨id, -, hid⟩ := List.mem_filterMap.mp ho
  split at hid
  next =>
    split at hid
    next => cases hid; exact nofun
    next => cases hid
  next => cases hid

/-- A reset that finds no wait gives no result and leaves the status. -/
theorem protocolReset_puts {s : State} (hw : s.ctx.waitForAck = false) :
    Puts NoResult s (protocolReset s) ∧ (protocolReset s).ctx.ackStatus = s.ctx.ackStatus := by
  rw [protocolReset_idle hw]
  exact ⟨(Puts.of_silent (s := s) (t := resetFields s) rfl rfl).trans (puts_unlockCalls s _), rfl⟩

/-- A reset that finds a wait ends it with FAILED. -/
theorem protocolReset_hears {s : State} (hw : s.ctx.waitForAck = true) : HearsOnce s (protocolReset s) := by
  rw [protocolReset_waiting hw]
  exact (HearsOnce.of_result (t := resetFields _) (statusCode_mem _ .failed) rfl).before (puts_unlockCalls s _) rfl

/-! #### The ends of a wait (44_reliable_delivery.md R431-R435, R444) -/

theorem failWait_hears {s : State} {code : Half} (h : code ∈ statusCodes s.par.statusCode) :
    HearsOnce s (failWait code s) := .of_result h rfl

theorem exhaust_hears (s : State) : HearsOnce s (exhaust s) := by
  obtain ⟨hputs, -⟩ := protocolReset_puts (s := setFragRest [] (exitWait s)) rfl
  have hheard : HearsOnce (protocolReset (setFragRest [] (exitWait s))) (exhaust s) :=
    .of_result (hputs.par ▸ statusCode_mem _ .timeout) rfl
  exact (hheard.behind hputs).behind (.of_silent rfl rfl)

theorem retransmit_waiting (s : State) : (retransmit s).ctx.waitForAck = s.ctx.waitForAck := (resendHold_quiet _).waiting

theorem timeoutStep_concludes {s : State} (hw : s.ctx.waitForAck = true) : Concludes s (timeoutStep s) := by
  unfold timeoutStep
  split
  · exact .inr (exhaust_hears s)
  · exact .of_waiting hw (retransmit_waiting s)

/-- The result of a transaction whose last chunk has been sent, or could not be (R444). -/
theorem transactionResult_hears {s : State} {code : Half} (h : code ∈ statusCodes s.par.statusCode) :
    HearsOnce s (sendResult code (setAckStatus code (setFragRest [] s))) := .of_result h rfl

/-- The next chunk starts a new wait, or its result is the transaction's. -/
theorem continueFragments_concludes {s : State} (hw : s.ctx.waitForAck = false) (hrest : s.ctx.fragRest ≠ []) :
    Concludes s (continueFragments s) := by
  unfold continueFragments
  split
  next hnil => exact absurd hnil hrest
  next c more _ =>
    have hputs : Puts NoResult s (sendOne c (setFragRest more s)).2 :=
      (Puts.of_silent (s := s) (t := setFragRest more s) rfl rfl).trans (.sendOne (admitsSends_noResult _))
    rcases sendOne_cases c (setFragRest more s) with ⟨-, hbusy, -⟩ | ⟨u, -, -, e⟩ | ⟨u, -, -, e⟩ | ⟨u, -, -, -, e⟩
    · exact absurd (hw.symm.trans hbusy) Bool.false_ne_true
    · rw [e] at hputs ⊢
      exact .inr (.behind (s := s) (u := u) (transactionResult_hears (hputs.par ▸ statusCode_mem _ .failed)) hputs)
    · rw [e] at hputs ⊢
      exact .inr (.behind (s := s) (u := u) (transactionResult_hears (hputs.par ▸ statusCode_mem _ .success)) hputs)
    · rw [e]; exact .inl rfl

theorem endAck_concludes (s : State) : Concludes s (endAck s) := by
  unfold endAck
  simp only
  split
  next => exact .inr (.of_result (statusCode_mem _ .success) rfl)
  next hrest =>
    have hnext := continueFragments_concludes (s := exitWait (setAckStatus (codeOf s .success) s)) rfl
      (by simpa using hrest)
    exact hnext.behind (.of_silent rfl rfl)

/-- A SYNC found during a wait first ends the wait with FAILED (R435); the reset and the acknowledgment come behind. -/
theorem syncFound_hears {s : State} (h : Hdr) (hs : s.ctx.state = .waitAck) : HearsOnce s (syncFound h s) := by
  have hended : HearsOnce s (failWait (codeOf s .failed) s) := failWait_hears (statusCode_mem _ .failed)
  unfold syncFound
  simp only [if_pos hs]
  generalize hu : (failWait (codeOf s .failed) s).withCtx _ = u
  have hu' : HearsOnce s u := by rw [← hu]; exact hended.before (.of_silent rfl rfl) rfl
  obtain ⟨hputs, hstatus⟩ := protocolReset_puts (s := u) (by rw [← hu]; rfl)
  obtain ⟨_, _, hctx⟩ := (sendAck_quiet h [] (protocolReset u)).ctx
  exact (hu'.before hputs hstatus).before (.sendChunk (admitsSends_noResult _)) (by rw [hctx])

/-! #### A packet that runs during a wait -/

theorem isResponse_commandFlags (u : UpperFlags) : isResponse (commandFlags u) = false := by
  revert u; decide

theorem command_concludes {i : Instr} {s t : State} (hw : s.ctx.waitForAck = true) (hsync : ∀ u f, i ≠ .sync u f)
    (hcommand : isResponse i.rx.hdr.flags = false) (he : exec i s = .next t) : Concludes s t := by
  obtain ⟨_, _, _, _, hctx⟩ := CommandWrites.exec hsync hcommand he
  exact .of_waiting hw (by rw [hctx])

/-- ACK, NAK and SYNC may end a wait; no other instruction touches it. -/
theorem exec_concludes {i : Instr} {s t : State} (hw : s.ctx.waitForAck = true) (hs : s.ctx.state = .waitAck)
    (he : exec i s = .next t) : Concludes s t := by
  cases i with
  | ack op u f =>
    rcases respond_next he with ⟨-, ⟨-, rfl⟩ | ⟨-, rfl⟩⟩
    · exact endAck_concludes s
    · exact .inl hw
  | nak op a u f =>
    rcases respond_next he with ⟨-, ⟨-, rfl⟩ | ⟨-, rfl⟩⟩
    · exact .inr (failWait_hears (nakStatus_mem s f.payload))
    · exact .inl hw
  | sync u f =>
    rcases accept_next he with ⟨-, ⟨st, -, rfl⟩ | ⟨-, rfl⟩⟩
    · exact .of_waiting hw (reject_quiet st _ s).waiting
    · rw [acceptSeq_afterAccept]
      have hheard := syncFound_hears (s := s.afterAccept (Instr.sync u f).rx.hdr) (Instr.sync u f).rx.hdr hs
      exact .inr (hheard.behind (.of_silent rfl rfl))
  | _ =>
    refine command_concludes hw (fun _ _ h => ?_) ?_ he
    · cases h
    · exact isResponse_commandFlags _

theorem runReceived_concludes {p : Rx} {s t : State} (hw : s.ctx.waitForAck = true) (hs : s.ctx.state = .waitAck)
    (he : runReceived p s = .next t) : Concludes s t := by
  cases hclass : classify p with
  | some i => exact exec_concludes hw hs (runReceived_of_classify hclass s ▸ he)
  | none =>
    rw [runReceived_undefined hclass] at he
    rcases accept_next he with ⟨-, ⟨st, -, rfl⟩ | ⟨-, rfl⟩⟩
    · exact .of_waiting hw (reject_quiet st p s).waiting
    · exact .of_waiting hw (acceptSeq_quiet p s).waiting

/-! #### The transition (R427, R430) -/

theorem takeAt_concludes {s t : State} {k : Nat} {p : Rx} (hw : s.ctx.waitForAck = true) (hs : s.ctx.state = .waitAck)
    (he : runReceived p (takeAt k s) = .next t) : Concludes s t := by
  obtain ⟨hpar, -, henv, hctx⟩ := takeAt_parts k s
  exact (runReceived_concludes (by rw [hctx]; exact hw) (by rw [hctx]; exact hs) he).behind
    (.of_silent hpar (by rw [henv]))

theorem waitStep_concludes {s t : State} (hw : s.ctx.waitForAck = true) (hs : s.ctx.state = .waitAck)
    (he : waitStep s = some (.next t)) : Concludes s t := by
  unfold waitStep at he
  split at he
  next k _ =>
    have he := Option.some.inj he
    unfold takeResponse at he
    split at he
    · exact takeAt_concludes hw hs he
    · exact runReceived_concludes hw hs he
  next => exact takeAt_concludes hw hs (Option.some.inj he)
  next => cases (Option.ite_none_left_eq_some.mp he).2; exact .inl hw

theorem waitTransition_concludes {s t : State} (hw : s.ctx.waitForAck = true) (hs : s.ctx.state = .waitAck)
    (he : waitTransition s = some (.next t)) : Concludes s t := by
  unfold waitTransition at he
  split at he
  next =>
    split at he
    next => cases he; exact timeoutStep_concludes hw
    next =>
      have hctx := draw_ctx s
      split at he <;> rename_i u hdraw <;> rw [hdraw] at hctx
      · cases he
        exact (timeoutStep_concludes (hctx ▸ hw)).behind (.of_draw hdraw)
      · exact (waitStep_concludes (hctx ▸ hw) (hctx ▸ hs) he).behind (.of_draw hdraw)
  next => exact waitStep_concludes hw hs he

theorem transition_concludes {s t : State} (hw : s.ctx.waitForAck = true) (hs : s.ctx.state = .waitAck)
    (he : transition s = some (.next t)) : Concludes s t := by
  unfold transition at he
  replace he := (Option.ite_none_left_eq_some.mp he).2
  rw [hs] at he
  exact waitTransition_concludes hw hs he

/-! #### The port operations (10_state.md R60-R67) -/

theorem sendChunk_waiting {s : State} (hw : s.ctx.waitForAck = true) (c : Chunk) :
    (sendChunk c s).2.ctx.waitForAck = true := by
  cases ha : effAckRequired s.ctx.cfg.ackEn c.flags c.ackRequired with
  | true => rw [sendChunk_busy hw ha]; exact hw
  | false => exact (sendChunk_quiet ha).waiting.trans hw

/-- The CHANNEL_REGISTERED event needs no ACK, so a registration disturbs no wait (42_channel_registry.md R301). -/
theorem registerChannel_waiting (d : DescriptorSpec) (s : State) :
    (registerChannel d s).2.ctx.waitForAck = s.ctx.waitForAck := by
  rcases registerChannel_cases d s with ⟨st, u, hquiet, e⟩ | ⟨id, dyn, u, hquiet, -, -, -, -, e⟩ <;> rw [e]
  · exact hquiet.waiting
  · refine Eq.trans ?_ hquiet.waiting
    unfold storeChannel
    simp only
    split
    · exact (sendChunk_quiet (registeredEvent_unacked _ _ id)).waiting
    · rfl

theorem claim_ctx (n : Nat) (s : State) : (claim n s).2.ctx = s.ctx := by
  unfold claim
  split
  · rfl
  split
  · rfl
  · exact claimRegion_ctx n s

/-- A push answers in a state with the same context, whether its claim is granted or refused. -/
theorem portPush_answers_ctx (b : List Byte) (s : State) : ∃ r t, portPush b s = answer r t ∧ t.ctx = s.ctx := by
  have hclaim := claim_ctx b.length s
  unfold portPush
  rcases hc : claim b.length s with ⟨_ | start, u⟩ <;> rw [hc] at hclaim
  · exact ⟨_, _, rfl, hclaim⟩
  · simp only
    split <;> exact ⟨_, _, rfl, hclaim⟩

/-- The answer of an operation leaves the wait as it is. -/
theorem waiting_of_answer {r : Ret} {u t : State} (he : answer r u = .next t) (h : u.ctx.waitForAck = true) :
    t.ctx.waitForAck = true := by
  cases he; exact h

/-- `deinit` gives the waiting caller FAILED and leaves the flag, which nothing reads any more (log 9). -/
theorem deinitBlock_waiting (s : State) : (deinitBlock s).ctx.waitForAck = s.ctx.waitForAck := by
  obtain ⟨-, hctx, -⟩ := deinitAll_parts (failOpenWait s)
  have hopen : (failOpenWait s).ctx.waitForAck = s.ctx.waitForAck := by
    unfold failOpenWait
    split <;> rfl
  exact (congrArg Ctx.waitForAck hctx).trans hopen

/-- No port operation but `reset` ends a wait. -/
theorem execPort_waiting {op : PortOp} {s t : State} (hi : s.ctx.initialised = true) (hw : s.ctx.waitForAck = true)
    (hop : op ≠ .reset) (he : execPort op s = .next t) : t.ctx.waitForAck = true := by
  cases op
  case reset => exact absurd rfl hop
  case init c =>
    rw [show execPort (.init c) s = .fault .reinit from if_pos hi] at he
    cases he
  all_goals replace he := (guarded_next he).2
  case deinit => exact waiting_of_answer he ((deinitBlock_waiting s).trans hw)
  case sbPeekU16 =>
    unfold portPeekU16 at he
    split at he
    · cases he
    · exact waiting_of_answer he hw
  case sbClaim n =>
    have hclaim := claim_ctx n s
    unfold portClaim at he
    split at he <;> rename_i e <;> rw [e] at hclaim <;> exact waiting_of_answer he (hclaim ▸ hw)
  case sbFill =>
    unfold portFill at he
    split at he
    · exact waiting_of_answer he hw
    · cases he
  case sbCommit =>
    unfold portCommit at he
    split at he
    · exact waiting_of_answer he hw
    split at he
    · cases he
    · exact waiting_of_answer he hw
  case sbConsume n =>
    unfold portConsume at he
    split at he
    · exact waiting_of_answer he hw
    split at he
    · cases he
    · exact waiting_of_answer he (consumeBytes_ctx n s ▸ hw)
  case sbPush b =>
    obtain ⟨r, u, e, hctx⟩ := portPush_answers_ctx b s
    exact waiting_of_answer (e ▸ he) (hctx ▸ hw)
  case registryRegister d => exact waiting_of_answer he ((registerChannel_waiting d s).trans hw)
  case registryUnregister => cases he
  case registryDeinitAll =>
    obtain ⟨-, hctx, -⟩ := deinitAll_parts s
    exact waiting_of_answer he (hctx ▸ hw)
  case send | sendAck | sendStatus => exact waiting_of_answer he (sendChunk_waiting hw _)
  case tick => cases he; exact hw
  case dispatchDone =>
    unfold portDispatchDone at he
    split at he <;> cases he
    exact hw
  case sbAvailableToRead | sbAvailableToWrite | sbDataPtr | registryFind | registryFindTransport =>
    exact waiting_of_answer he hw

theorem execPort_concludes {op : PortOp} {s t : State} (hi : s.ctx.initialised = true) (hw : s.ctx.waitForAck = true)
    (he : execPort op s = .next t) : Concludes s t := by
  by_cases hop : op = .reset
  · subst hop
    cases (guarded_next he).2
    exact .inr ((protocolReset_hears hw).before (.emit nofun _) rfl)
  · exact .inl (execPort_waiting hi hw hop he)

/-- Settles O57: a step is a port operation or a transition, and in a wait that is WAIT_ACK's (10_state.md R36); no status
has the code of PENDING. -/
theorem waitEndsWithOneResult : Obligations.WaitEndsWithOneResult := by
  intro s t hinv hi hw hended hrestart he
  have hconcludes : Concludes s t := by
    have hsame : ∀ rest, Puts NoResult s (s.withInputs rest) := fun _ => .of_silent rfl rfl
    rcases runInputs_next _ s he with ⟨op, rest, -, e⟩ | ⟨rest, hsuffix, -⟩ | ⟨rest, -, e⟩
    · exact (execPort_concludes (s := s.withInputs rest) hi hw e).behind (hsame rest)
    · exact absurd (hsuffix.mem List.mem_cons_self) hrestart
    · exact (transition_concludes (s := s.withInputs rest) hw ((hinv.live hi).wait.flag.mp hw) e).behind (hsame rest)
  rcases hconcludes with hwaits | ⟨hstatus, pre, post, hheard, hothers⟩
  · exact absurd (hended.symm.trans hwaits) Bool.false_ne_true
  · have hfinal : t.ctx.ackStatus ≠ pendingCode := fun hpending => hinv.params.pendingUnused (hpending ▸ hstatus)
    exact ⟨⟨hstatus, hfinal⟩, pre, post, hheard, hothers⟩

end Sys2Proof.Machine

/-! ### O42, O43, O44: the responses that end a wait (44_reliable_delivery.md R428, R431, R432, R444) -/

namespace Sys2Proof.Machine

theorem respond_ends {p : Rx} {s : State} {finish : State → State} (hi : s.ctx.initialised = true)
    (h : endsWait s p = true) : respond p s finish = .next (finish s) := by
  simp [respond, hi, h]

/-- The length field of a packet that fits (30_encoding.md R143). -/
theorem lengthOk_of_payload {s : State} {p : Rx} (hlength : p.hdr.length = BitVec.ofNat 16 p.payload.length)
    (hlen : p.payload.length < 65536) (hfits : p.payload.length ≤ s.ctx.cfg.maxPayload.toNat) :
    lengthOk s p.hdr = true := by
  rw [lengthOk, hlength, decide_eq_true_iff, BitVec.le_def, BitVec.toNat_ofNat, Nat.mod_eq_of_lt hlen]
  exact hfits

/-- All that a response must pass to end the wait (R428). -/
theorem endsWait_of_matches {s : State} {p : Rx} (hs : s.ctx.state = .waitAck) (hresponse : isResponse p.hdr.flags = true)
    (hop : p.hdr.opcode = s.ctx.ackOpcode) (hsequence : p.hdr.sequence = s.ctx.ackSequence)
    (hheader : headerOk s p = true) (hlength : lengthOk s p.hdr = true)
    (hpayload : payloadCrcMatches s.par s.ctx.cfg.crcEn p.payload p.payloadCrc = true) : endsWait s p = true := by
  simp [endsWait, ackMatch, payloadOk, hs, hresponse, hop, hsequence, hheader, hlength, hpayload]

/-- An ACK that ends the last transaction of a send (R431, R437). -/
theorem endAck_last {s : State} (h : s.ctx.fragRest = []) : endAck s =
    { s with
      ctx := endedCtx s.ctx s.par.statusCode.success
      env := { s.env with outputs := s.env.outputs ++ [.sendResult s.par.statusCode.success] } } := by
  have hctx : endedCtx s.ctx s.par.statusCode.success =
      { endedCtx s.ctx s.par.statusCode.success with fragRest := s.ctx.fragRest } := by rw [h]; rfl
  unfold endAck
  rw [if_pos (by simp [h]), hctx]
  rfl

/-- Settles O42: the ACK passes every check, and no chunk is left. -/
theorem ackEndsWait : Obligations.AckEndsWait := by
  intro op u f s hi hs hop hsequence hheader hlen hfits hpayload hrest
  have hends : endsWait s (Instr.ack op u f).rx = true :=
    endsWait_of_matches hs (isResponse_ackFlags u) hop hsequence hheader (lengthOk_of_payload rfl hlen hfits) hpayload
  exact (respond_ends hi hends).trans (congrArg _ (endAck_last hrest))

/-- Settles O44: the NAK passes every check, and `failWait` ends the wait with its status. -/
theorem nakEndsWait : Obligations.NakEndsWait := by
  intro op a u f s hi hs hop hsequence hheader hlen hfits hpayload
  have hends : endsWait s (Instr.nak op a u f).rx = true :=
    endsWait_of_matches hs (isResponse_nakFlags a u) hop hsequence hheader (lengthOk_of_payload rfl hlen hfits) hpayload
  exact respond_ends hi hends

/-! #### The next chunk (R444) -/

/-- The state in which an ACK has ended its transaction, before the next chunk is sent (R431, R436). -/
def State.acknowledged (s : State) : State := exitWait (setAckStatus (codeOf s .success) s)

theorem endAck_next {s : State} {c : Chunk} {more : List Chunk} (h : s.ctx.fragRest = c :: more) :
    endAck s = continueFragments s.acknowledged := by
  have hleft : ¬ s.acknowledged.ctx.fragRest.isEmpty = true := by
    rw [show s.acknowledged.ctx.fragRest = c :: more from h]; exact Bool.false_ne_true
  exact if_neg hleft

section
variable {s t : State} {c : Chunk} {more : List Chunk}

theorem continueFragments_pending (h : s.ctx.fragRest = c :: more)
    (hsend : sendOne c (setFragRest more s) = (.pending, t)) : continueFragments s = t := by
  unfold continueFragments
  simp only [h, hsend]

theorem continueFragments_success (h : s.ctx.fragRest = c :: more)
    (hsend : sendOne c (setFragRest more s) = (.success, t)) :
    continueFragments s = sendResult (codeOf s .success) (setAckStatus (codeOf s .success) (setFragRest [] t)) := by
  unfold continueFragments
  simp only [h, hsend, if_true]

theorem continueFragments_failed (h : s.ctx.fragRest = c :: more)
    (hsend : sendOne c (setFragRest more s) = (.failed, t)) :
    continueFragments s = sendResult (codeOf s .failed) (setAckStatus (codeOf s .failed) (setFragRest [] t)) := by
  unfold continueFragments
  simp only [h, hsend, reduceCtorEq, if_false]

end

/-- Settles O43: the ACK hands over to `continueFragments`, which sends the next chunk with `send_one`. -/
theorem ackSendsNextFragment : Obligations.AckSendsNextFragment := by
  intro op u f s c more hi hs hends hrest sq bytes seq' fails
  have hheld : s.acknowledged.ctx.fragRest = c :: more := hrest
  have hexec {t : State} (h : continueFragments s.acknowledged = t) : exec (.ack op u f) s = .next t :=
    (respond_ends hi hends).trans (congrArg _ ((endAck_next hrest).trans h))
  have hfails {fl : Byte} (hpkt : chunkPkt s.acknowledged c = chunkPktWith s c fl) : fails fl := fun e hf =>
    hexec (continueFragments_failed hheld (sendOne_held_fails (s := s.acknowledged) rfl hpkt hf))
  split
  next hacked =>
    have ha : effAckRequired s.ctx.cfg.ackEn c.flags c.ackRequired = true := effAckRequired_iff.mpr hacked
    refine ⟨fun rest htakes => ?_, hfails (chunkPkt_acked (s := s.acknowledged) ha)⟩
    exact hexec (continueFragments_pending hheld
      (sendOne_held_taken (s := s.acknowledged) (left := more) htakes rfl ha))
  next hunacked =>
    have ha : effAckRequired s.ctx.cfg.ackEn c.flags c.ackRequired = false :=
      (Bool.not_eq_true _).mp (mt effAckRequired_iff.mp hunacked)
    refine ⟨fun rest htakes => ?_, hfails (chunkPkt_unacked (s := s.acknowledged) ha)⟩
    refine (hexec (continueFragments_success hheld
      (sendOne_unacked_taken (s := setFragRest more s.acknowledged) htakes ha))).trans ?_
    simp only [sendResult, emit, State.withEnv, State.afterSent, setAckStatus, setFragRest, State.withCtx,
      List.append_assoc]
    rfl

end Sys2Proof.Machine

/-! ### O46: the scan step of WAIT_ACK (44_reliable_delivery.md R427-R430)

The scan looks at the buffer, the parameters and the context, so a choice that the environment makes before it leaves its
result as it is. -/

namespace Sys2Proof.Machine

theorem waitScan_withEnv (s : State) (e : Env) : ∀ fuel k, waitScan (s.withEnv e) fuel k = waitScan s fuel k := by
  intro fuel
  induction fuel with
  | zero => exact fun _ => rfl
  | succ n ih =>
    intro k
    simp only [waitScan, ih]
    rfl

theorem waitStep_withEnv_eq_none_iff (s : State) (e : Env) : waitStep (s.withEnv e) = none ↔ waitStep s = none := by
  simp only [waitStep, State.withEnv_sb, State.withEnv_ctx, waitScan_withEnv]
  cases waitScan s (s.sb.used + 1) s.ctx.scanOffset with
  | response k => simp
  | sync k => simp
  | stopped k => by_cases hk : k = s.ctx.scanOffset <;> simp [hk]

/-- The choice at the deadline is drawn from the environment and changes nothing else (log 6). -/
theorem draw_withEnv {s t : State} {a : Bool} (h : draw s = (a, t)) : ∃ e, t = s.withEnv e := by
  obtain ⟨ans, n, hdraw⟩ := draw_frame s
  rw [h] at hdraw
  exact ⟨_, hdraw⟩

theorem ScanFires.withEnv {s v : State} (h : ScanFires s v) : ∃ e, v = s.withEnv e := by
  rcases h with ⟨-, rfl⟩ | ⟨-, hdraw⟩
  · exact ⟨v.env, rfl⟩
  · exact draw_withEnv hdraw

theorem transition_waitAck {s : State} (hi : s.ctx.initialised = true) (hs : s.ctx.state = .waitAck) :
    transition s = waitTransition s := by
  simp [transition, hi, hs]

theorem timeoutEnabled_iff {s : State} (hs : s.ctx.state = .waitAck) :
    timeoutEnabled s = true ↔ s.ctx.timeoutCur ≤ s.ctx.elapsed := by
  simp [timeoutEnabled, hs]

/-- Before the deadline the scan step is the only one (R430). -/
theorem waitTransition_early {s : State} (hs : s.ctx.state = .waitAck) (h : s.ctx.elapsed < s.ctx.timeoutCur) :
    waitTransition s = waitStep s :=
  if_neg (mt (timeoutEnabled_iff hs).mp (BitVec.not_le.mpr h))

/-- Where the scan step fires it is the step (R430). -/
theorem step_of_scanFires {s v : State} {r : Host.Outcome State Fault Refusal} (hin : s.env.inputs = [])
    (hi : s.ctx.initialised = true) (hs : s.ctx.state = .waitAck) (hfires : ScanFires s v)
    (hscan : waitStep v = some r) : step s = r := by
  refine step_of_transition hin ((transition_waitAck hi hs).trans ?_)
  obtain ⟨e, hv⟩ := hfires.withEnv
  rcases hfires with ⟨hearly, rfl⟩ | ⟨hdeadline, hdraw⟩
  · rw [waitTransition_early hs hearly, hscan]
  · have henabled : waitStep s ≠ none := by
      rw [Ne, ← waitStep_withEnv_eq_none_iff s e, ← hv, hscan]
      exact Option.some_ne_none r
    obtain ⟨q, hq⟩ := Option.ne_none_iff_exists'.mp henabled
    unfold waitTransition
    rw [if_pos ((timeoutEnabled_iff hs).mpr hdeadline)]
    simp only [hq, hdraw, hscan]

/-! #### Where the scan ends -/

section
variable {s : State} {j fuel : Nat}

/-- A scan ends at a complete, valid response it comes to (R427, R428). -/
theorem waitScan_response (hfuel : s.sb.used < fuel + j) (hword : syncWordAt s j = true) (hheader : headerOkAt s j = true)
    (hfits : (hdrAt s j).length ≤ s.ctx.cfg.maxPayload) (hmatch : ackMatch s (hdrAt s j) = true)
    (hcomplete : j + sizeAt s j ≤ s.sb.used) (hpayload : payloadOkAt s j = true) :
    waitScan s fuel j = .response j := by
  have hsize := sizeAt_ge s j
  obtain ⟨m, rfl⟩ : ∃ m, fuel = m + 1 := ⟨fuel - 1, by omega⟩
  rw [waitScan, if_neg (by omega), hword, if_neg (by simp), if_neg (by simp [Config.headerSize]; omega), hheader,
    if_neg (by simp [lengthOk, hfits]), if_pos hmatch, if_neg (by omega), hpayload, if_neg (by simp)]

/-- A scan ends at a SYNC command it comes to (R427, 43_framing_fsm.md R363). -/
theorem waitScan_sync (hfuel : s.sb.used < fuel + j) (h10 : j + 10 ≤ s.sb.used) (hword : syncWordAt s j = true)
    (hother : ackMatch s (hdrAt s j) = false) (hyes : syncCmdAt s j = .yes) : waitScan s fuel j = .sync j := by
  obtain ⟨hheader, -, -, -, hlength, -, -⟩ := syncCmdAt_yes hyes
  obtain ⟨m, rfl⟩ : ∃ m, fuel = m + 1 := ⟨fuel - 1, by omega⟩
  rw [waitScan, if_neg (by omega), hword, if_neg (by simp), if_neg (by simp [Config.headerSize]; omega), hheader, hlength,
    if_neg (by simp), if_neg (by simp [hother]), hyes]

end

/-- A packet flagged ACK or NAK is one of the two responses (30_encoding.md R151). -/
theorem classify_of_isResponse {p : Rx} (h : isResponse p.hdr.flags = true) :
    ∃ i, classify p = some i ∧ ((∃ op u f, i = .ack op u f) ∨ ∃ op a u f, i = .nak op a u f) := by
  have hbits : ∀ fl : Byte, isResponse fl = true → fl.getLsbD 1 = false → fl.getLsbD 0 = true := by decide
  unfold classify
  cases hnak : p.hdr.flags.getLsbD 1 with
  | true => exact ⟨_, if_pos rfl, .inr ⟨_, _, _, _, rfl⟩⟩
  | false => exact ⟨_, (if_neg Bool.false_ne_true).trans (if_pos (hbits _ h hnak)), .inl ⟨_, _, _, rfl⟩⟩

theorem isResponse_of_ackMatch {s : State} {h : Hdr} (hm : ackMatch s h = true) : isResponse h.flags = true := by
  simp only [ackMatch, Bool.and_eq_true] at hm
  exact hm.1.1

/-- A response at offset 0 is consumed and counted; elsewhere it stays where it is (R427). -/
theorem takeResponse_zero (s : State) : takeResponse 0 s = takeAt 0 s := rfl

theorem takeResponse_of_ne {k : Nat} (h : k ≠ 0) (s : State) : takeResponse k s = s := if_neg h

/-- A SYNC command found by a scan is the instruction `sync` on channel 0 (43_framing_fsm.md R363). -/
theorem classify_of_syncCmdAt {s : State} {j : Nat} (h : syncCmdAt s j = .yes) :
    ∃ u f, classify (rxAt s j) = some (.sync u f) ∧ f.channel = 0#8 := by
  obtain ⟨-, hop, -⟩ := syncCmdAt_yes h
  have hdefined : classify (rxAt s j) ≠ none := by
    intro hnone
    have hundefined := opcodeDefined_of_classify_none hnone
    rw [rxAt_hdr, hop] at hundefined
    exact absurd hundefined (by decide)
  obtain ⟨i, hclass⟩ := Option.ne_none_iff_exists'.mp hdefined
  obtain ⟨u, f, rfl, hchannel⟩ := sync_of_syncCmdAt_yes h hclass
  exact ⟨u, f, hclass, hchannel⟩

/-- Settles O46: the scan comes to `j` and ends there in one of three ways; the step is then `waitStep` after the choice. -/
theorem waitScanRunsResponse : Obligations.WaitScanRunsResponse := by
  intro s v j hin hi hs hfires hpasses n counted
  obtain ⟨fuel, hfuel, hcomes⟩ := waitScan_passes hpasses (s.sb.used + 1) (by omega)
  obtain ⟨e, rfl⟩ := hfires.withEnv
  have hscan : waitScan (s.withEnv e) (s.sb.used + 1) s.ctx.scanOffset = waitScan s fuel j :=
    (waitScan_withEnv s e _ _).trans hcomes
  have hstep {r} (h : waitStep (s.withEnv e) = some r) : step s = r := step_of_scanFires hin hi hs hfires h
  refine ⟨fun hword hheader hfits hmatch hcomplete hpayload => ?response, fun h10 hword hother hyes => ?sync,
    fun hstops => ?stopped⟩
  case response =>
    rw [waitScan_response hfuel hword hheader hfits hmatch hcomplete hpayload] at hscan
    obtain ⟨i, hclass, hkind⟩ := classify_of_isResponse (p := rxAt s j) (by
      rw [rxAt_hdr]; exact isResponse_of_ackMatch hmatch)
    refine ⟨i, takeResponse j (s.withEnv e), hclass, ?_, hkind, fun hj => takeResponse_of_ne hj _, fun hj => ?_⟩
    · refine hstep ?_
      simp only [waitStep, State.withEnv_sb, State.withEnv_ctx, hscan]
      exact congrArg some (runReceived_of_classify hclass _)
    · subst hj
      obtain ⟨hpar, hreg, henv, hctx⟩ := takeAt_parts 0 (s.withEnv e)
      rw [takeResponse_zero]
      refine ⟨(readable_takeAt 0 _).trans ?_, hctx, hpar, hreg, henv⟩
      rw [Nat.zero_add]
      rfl
  case sync =>
    rw [waitScan_sync hfuel h10 hword hother hyes] at hscan
    obtain ⟨u, f, hclass, hchannel⟩ := classify_of_syncCmdAt hyes
    obtain ⟨hpar, hreg, henv, hctx⟩ := takeAt_parts j (s.withEnv e)
    refine ⟨u, f, takeAt j (s.withEnv e), hclass, hchannel, hstep ?_, readable_takeAt j _, hctx, hpar, hreg, henv⟩
    simp only [waitStep, State.withEnv_sb, State.withEnv_ctx, hscan]
    exact congrArg some (runReceived_of_classify hclass _)
  case stopped =>
    rw [waitScan_stops hstops] at hscan hcomes
    split
    next hstays =>
      have hnone : waitStep s = none := by
        simp only [waitStep, hcomes]
        exact if_pos hstays
      exact ⟨hnone, fun hearly => by rw [transition_waitAck hi hs, waitTransition_early hs hearly, hnone]⟩
    next hmoves =>
      have hmove : waitStep (s.withEnv e) = some (.next ((s.withEnv e).enter .waitAck j)) := by
        simp only [waitStep, State.withEnv_sb, State.withEnv_ctx, hscan]
        exact if_neg hmoves
      rw [hstep hmove, State.enter, ← hs]
      rfl

end Sys2Proof.Machine

/-! ### O53, O54: the timeout step (44_reliable_delivery.md R430, R433, R434, R439) -/

namespace Sys2Proof.Machine

theorem TimeoutFires.withEnv {s v : State} (h : TimeoutFires s v) : ∃ e, v = s.withEnv e := by
  obtain ⟨-, ⟨-, rfl⟩ | ⟨-, hdraw⟩⟩ := h
  · exact ⟨v.env, rfl⟩
  · exact draw_withEnv hdraw

/-- Where the timeout step fires it is the transition (R430). -/
theorem transition_of_timeoutFires {s v : State} (hi : s.ctx.initialised = true) (hs : s.ctx.state = .waitAck)
    (h : TimeoutFires s v) : transition s = some (.next (timeoutStep v)) := by
  obtain ⟨hdeadline, hchosen⟩ := h
  rw [transition_waitAck hi hs, waitTransition, if_pos ((timeoutEnabled_iff hs).mpr hdeadline)]
  rcases hchosen with ⟨hnone, rfl⟩ | ⟨hsome, hdraw⟩
  · simp only [hnone]
  · obtain ⟨q, hq⟩ := Option.ne_none_iff_exists'.mp hsome
    simp only [hq, hdraw]

/-- The state in which the kept packet is sent again: one retry less, the timeout doubled, the packet marked and the
retransmission counted (R433). -/
def State.resending (s : State) (again : Pkt) : State :=
  s.withCtx
    { s.ctx with
      retriesLeft := s.ctx.retriesLeft - 1#8
      timeoutCur := sat32 (2 * s.ctx.timeoutCur.toNat)
      txHold := some again
      stats := { s.ctx.stats with retransmits := s.ctx.stats.retransmits + 1#32 } }

/-- A retransmission is one write of the marked packet, and a new start of the timeout (R433). -/
theorem retransmit_eq {s : State} {p : Pkt} (hp : s.ctx.txHold = some p) :
    let u := (transmitOnce (rtxPkt s.par p) (s.resending (rtxPkt s.par p))).2
    retransmit s = u.withCtx { u.ctx with elapsed := 0#32 } := by
  have hmarked : countRetransmit (markHold (s.withCtx
      { s.ctx with
        retriesLeft := s.ctx.retriesLeft - 1#8
        timeoutCur := sat32 (2 * s.ctx.timeoutCur.toNat) })) = s.resending (rtxPkt s.par p) := by
    simp only [countRetransmit, markHold, State.withCtx, hp]
    rfl
  simp only [retransmit, hmarked]
  rfl

/-- RTX is not EVENT (30_encoding.md R144). -/
theorem eventBit_rtx (flags : Byte) : rtxFlags flags &&& 0x20#8 = flags &&& 0x20#8 := by
  rw [rtxFlags, BitVec.and_or_distrib_right]
  exact BitVec.or_zero

/-- The whole next state of an exhausted wait (R434). -/
theorem exhaust_eq (s : State) : exhaust s =
    { s with
      ctx := { resetCtx s.ctx with ackStatus := s.par.statusCode.timeout }
      env := { s.env with
        outputs := s.env.outputs ++ unlockCalls s ++ [.sendResult s.par.statusCode.timeout] } } := by
  unfold exhaust
  rw [protocolReset_idle (s := setFragRest [] (exitWait s)) rfl]
  rfl

/-- Settles O53: the step is `retransmit`, whose write ends as `transmit_once` does. -/
theorem timeoutRetransmits : Obligations.TimeoutRetransmits := by
  intro s v p hin hi hs hfires hretries hp again bytes waits counted
  obtain ⟨e, rfl⟩ := hfires.withEnv
  have hstep : step s = .next (retransmit (s.withEnv e)) := by
    rw [step_of_transition hin (transition_of_timeoutFires hi hs hfires), timeoutStep]
    exact congrArg _ (if_neg hretries)
  have hwrite {u : State} (h : (transmitOnce again ((s.withEnv e).resending again)).2 = u) :
      step s = .next (u.withCtx { u.ctx with elapsed := 0#32 }) := by
    subst h
    exact hstep.trans (congrArg _ (retransmit_eq (s := s.withEnv e) hp))
  refine ⟨fun rest htakes => ?_, fun e' hfails => ?_⟩
  · have htaken := transmitOnce_taken (s := (s.withEnv e).resending again) htakes again
    have hstats : counted.afterWrite again.hdr.flags = counted.afterWrite p.hdr.flags :=
      Stats.afterWrite_congr (eventBit_rtx p.hdr.flags) counted
    refine (hwrite (congrArg Prod.snd htaken)).trans ?_
    exact congrArg (fun n => Host.Outcome.next
      { s with
        ctx := waits n
        env := { e with answers := rest, outputs := e.outputs ++ [Output.tWrite bytes true] } }) hstats
  · have hfailed := transmitOnce_fails (s := (s.withEnv e).resending again) (p := again) hfails
    exact hwrite (congrArg Prod.snd hfailed)

/-- Settles O54: the step is `exhaust`. -/
theorem timeoutExhausts : Obligations.TimeoutExhausts := by
  intro s v hin hi hs hfires hretries
  obtain ⟨e, rfl⟩ := hfires.withEnv
  rw [step_of_transition hin (transition_of_timeoutFires hi hs hfires), timeoutStep]
  exact congrArg _ ((if_pos hretries).trans (exhaust_eq (s.withEnv e)))

end Sys2Proof.Machine

/-! ### O55: the retransmissions of a wait without a response (44_reliable_delivery.md R438, 30_encoding.md R176)

With no byte to scan the timeout is the only transition of the wait, so after each tick and its pump the block has `Settled`
again: in the wait between two deadlines, or past the last one. -/

namespace Sys2Proof.Machine

/-- The tick at which retransmission `i` of a wait with timeout `T` comes (R438). -/
def dueAt (T i : Nat) : Nat := (2 ^ i - 1) * T

theorem dueAt_succ (T i : Nat) : dueAt T (i + 1) = dueAt T i + 2 ^ i * T := by
  unfold dueAt
  have hpos : 0 < 2 ^ i := Nat.two_pow_pos i
  rw [← Nat.add_mul]
  congr 1
  omega

theorem dueAt_mono {T i j : Nat} (h : i ≤ j) : dueAt T i ≤ dueAt T j :=
  Nat.mul_le_mul_right T (Nat.sub_le_sub_right (Nat.pow_le_pow_right (by decide) h) 1)

/-- A tick is in the interval of one retransmission only. -/
theorem dueAt_unique {T n i j : Nat} (hi : dueAt T i ≤ n) (hi' : n < dueAt T (i + 1)) (hj : dueAt T j ≤ n)
    (hj' : n < dueAt T (j + 1)) : i = j := by
  rcases Nat.lt_trichotomy i j with h | h | h
  · have hle : dueAt T (i + 1) ≤ dueAt T j := dueAt_mono h
    omega
  · exact h
  · have hle : dueAt T (j + 1) ≤ dueAt T i := dueAt_mono h
    omega

/-- `u` is in the wait that started in `s`, `n` ticks later and after `i` retransmissions. -/
structure InWait (s u : State) (n i : Nat) : Prop where
  initialised : u.ctx.initialised = true
  state : u.ctx.state = .waitAck
  waiting : u.ctx.waitForAck = true
  scan : u.ctx.scanOffset = 0
  held : ∃ p, u.ctx.txHold = some p
  empty : u.sb.used = 0
  par : u.par = s.par
  defaultCfg : u.ctx.defaultCfg = s.ctx.defaultCfg
  now : u.ctx.now = s.ctx.now + BitVec.ofNat 32 n
  seq : u.ctx.seq = s.ctx.seq
  retransmits : u.ctx.stats.retransmits = s.ctx.stats.retransmits + BitVec.ofNat 32 i
  retries : u.ctx.retriesLeft.toNat + i = s.ctx.retriesLeft.toNat
  timeout : u.ctx.timeoutCur.toNat = 2 ^ i * s.ctx.timeoutCur.toNat
  elapsed : u.ctx.elapsed.toNat + dueAt s.ctx.timeoutCur.toNat i = n

/-- `u` is past the end of the wait that started in `s`, `n` ticks later. -/
structure WaitOver (s u : State) (n : Nat) : Prop where
  initialised : u.ctx.initialised = true
  state : u.ctx.state = .sync
  waiting : u.ctx.waitForAck = false
  empty : u.sb.used = 0
  now : u.ctx.now = s.ctx.now + BitVec.ofNat 32 n
  status : u.ctx.ackStatus = s.par.statusCode.timeout
  retransmits : u.ctx.stats.retransmits = s.ctx.stats.retransmits + BitVec.ofNat 32 s.ctx.retriesLeft.toNat
  seq : u.ctx.seq = 0#8
  cfg : u.ctx.cfg = s.ctx.defaultCfg
  due : dueAt s.ctx.timeoutCur.toNat (s.ctx.retriesLeft.toNat + 1) ≤ n

/-- `n` ticks after the wait started in `s`, with no transition left to fire. -/
def Settled (s u : State) (n : Nat) : Prop :=
  (∃ i, InWait s u n i ∧ u.ctx.elapsed.toNat < u.ctx.timeoutCur.toNat) ∨ WaitOver s u n

/-! #### The transition of each of them -/

/-- With fewer than two bytes to scan there is no scan step (R427). -/
theorem waitStep_empty {s : State} (hused : s.sb.used = 0) (hscan : s.ctx.scanOffset = 0) : waitStep s = none := by
  have hstopped : waitScan s (s.sb.used + 1) s.ctx.scanOffset = .stopped s.ctx.scanOffset :=
    waitScan_stops (.inl (by omega))
  simp only [waitStep, hstopped, if_true]

theorem InWait.transition_early {s u : State} {n i : Nat} (h : InWait s u n i)
    (hearly : u.ctx.elapsed.toNat < u.ctx.timeoutCur.toNat) : transition u = none := by
  rw [transition_waitAck h.initialised h.state, waitTransition_early h.state hearly, waitStep_empty h.empty h.scan]

theorem InWait.transition_due {s u : State} {n i : Nat} (h : InWait s u n i)
    (hdue : u.ctx.timeoutCur.toNat ≤ u.ctx.elapsed.toNat) : transition u = some (.next (timeoutStep u)) :=
  transition_of_timeoutFires h.initialised h.state ⟨hdue, .inl ⟨waitStep_empty h.empty h.scan, rfl⟩⟩

theorem WaitOver.transition {s u : State} {n : Nat} (h : WaitOver s u n) : transition u = none := by
  simp [Machine.transition, h.initialised, h.state, h.empty]

theorem Settled.transition {s u : State} {n : Nat} (h : Settled s u n) : transition u = none := by
  rcases h with ⟨i, hwait, hearly⟩ | hover
  · exact hwait.transition_early hearly
  · exact hover.transition

/-! #### A tick, and the timeout that it may bring -/

theorem ofNat_add_one (v : Word) (n : Nat) : v + BitVec.ofNat 32 n + 1#32 = v + BitVec.ofNat 32 (n + 1) := by
  rw [BitVec.add_assoc, BitVec.ofNat_add]

theorem WaitOver.tick {s u : State} {n : Nat} (h : WaitOver s u n) : WaitOver s (tick u) (n + 1) :=
  { h with
    now := (congrArg (· + 1#32) h.now).trans (ofNat_add_one _ n)
    due := Nat.le_succ_of_le h.due }

/-- In the wait a tick before the deadline adds one; it does not saturate (10_state.md R43). -/
theorem InWait.elapsed_tick {s u : State} {n i : Nat} (h : InWait s u n i)
    (hearly : u.ctx.elapsed.toNat < u.ctx.timeoutCur.toNat) :
    (Machine.tick u).ctx.elapsed.toNat = u.ctx.elapsed.toNat + 1 := by
  have hlt := u.ctx.timeoutCur.isLt
  rw [tick_ctx]
  simp only [h.waiting, if_true, sat32, BitVec.toNat_ofNat]
  omega

theorem InWait.tick {s u : State} {n i : Nat} (h : InWait s u n i) (hearly : u.ctx.elapsed.toNat < u.ctx.timeoutCur.toNat) :
    InWait s (tick u) (n + 1) i := by
  exact { h with
    now := (congrArg (· + 1#32) h.now).trans (ofNat_add_one _ n)
    elapsed := by rw [h.elapsed_tick hearly, ← h.elapsed]; omega }

/-- What a retransmission does and keeps, whatever the transport answers (R433). -/
theorem retransmit_parts {s : State} {p : Pkt} (hp : s.ctx.txHold = some p) :
    (retransmit s).par = s.par ∧ (retransmit s).sb = s.sb ∧ (retransmit s).env.inputs = s.env.inputs ∧
    ∃ st : Stats, st.retransmits = s.ctx.stats.retransmits + 1#32 ∧
      (retransmit s).ctx = { s.ctx with
        retriesLeft := s.ctx.retriesLeft - 1#8
        timeoutCur := sat32 (2 * s.ctx.timeoutCur.toNat)
        elapsed := 0#32, txHold := some (rtxPkt s.par p), stats := st } := by
  rw [retransmit_eq hp]
  obtain ⟨hquiet, hseq⟩ := transmitOnce_quiet (rtxPkt s.par p) (s.resending (rtxPkt s.par p))
  have hframed : Framed True True _ _ := .transmitOnce (rtxPkt s.par p) (s.resending (rtxPkt s.par p))
  have hcount := congrArg Frozen.retransmits hframed.frozen
  obtain ⟨st, sq, hctx⟩ := hquiet.ctx
  refine ⟨hquiet.par, hquiet.sb, hquiet.inputs, st, ?_, ?_⟩
  · exact (congrArg (fun c => c.stats.retransmits) hctx).symm.trans hcount
  · obtain rfl : sq = s.ctx.seq := (congrArg Ctx.seq hctx).symm.trans hseq
    rw [State.withCtx_ctx, hctx]
    rfl

section
variable {s u : State} {n i : Nat}

/-- A deadline with a retry left starts the next interval. -/
theorem InWait.retransmit (h : InWait s u n i) (hdue : u.ctx.elapsed.toNat = u.ctx.timeoutCur.toNat)
    (hleft : u.ctx.retriesLeft ≠ 0#8)
    (hfits : 2 ^ (s.ctx.retriesLeft.toNat + 1) * s.ctx.timeoutCur.toNat < 2 ^ 32) :
    InWait s (retransmit u) n (i + 1) := by
  obtain ⟨p, hp⟩ := h.held
  obtain ⟨hpar, hsb, -, st, hst, hctx⟩ := retransmit_parts hp
  have hretries := h.retries
  have helapsed := h.elapsed
  have hpos : 0 < u.ctx.retriesLeft.toNat := Nat.pos_of_ne_zero fun h0 => hleft (BitVec.eq_of_toNat_eq h0)
  have hdouble : 2 * u.ctx.timeoutCur.toNat = 2 ^ (i + 1) * s.ctx.timeoutCur.toNat := by
    rw [h.timeout, Nat.pow_succ']; exact (Nat.mul_assoc ..).symm
  have hbound : 2 ^ (i + 1) * s.ctx.timeoutCur.toNat < 2 ^ 32 :=
    Nat.lt_of_le_of_lt (Nat.mul_le_mul_right _ (Nat.pow_le_pow_right (by decide) (by omega))) hfits
  exact
    { initialised := by rw [hctx]; exact h.initialised
      state := by rw [hctx]; exact h.state
      waiting := by rw [hctx]; exact h.waiting
      scan := by rw [hctx]; exact h.scan
      held := ⟨_, by rw [hctx]⟩
      empty := by rw [hsb]; exact h.empty
      par := by rw [hpar]; exact h.par
      defaultCfg := by rw [hctx]; exact h.defaultCfg
      now := by rw [hctx]; exact h.now
      seq := by rw [hctx]; exact h.seq
      retransmits := by rw [hctx]; exact (hst.trans (congrArg (· + 1#32) h.retransmits)).trans (ofNat_add_one _ i)
      retries := by
        rw [hctx]
        show (u.ctx.retriesLeft - 1#8).toNat + (i + 1) = _
        bv_omega
      timeout := by
        rw [hctx]
        show (sat32 (2 * u.ctx.timeoutCur.toNat)).toNat = _
        rw [sat32, hdouble, BitVec.toNat_ofNat]
        omega
      elapsed := by
        rw [hctx, dueAt_succ, ← h.timeout]
        show 0 + _ = n
        omega }

/-- A retransmission starts the timeout again (R433). -/
theorem retransmit_elapsed (u : State) : (Machine.retransmit u).ctx.elapsed = 0#32 := rfl

/-- A deadline without a retry left ends the wait. -/
theorem InWait.exhaust (h : InWait s u n i) (hdue : u.ctx.elapsed.toNat = u.ctx.timeoutCur.toNat)
    (hleft : u.ctx.retriesLeft = 0#8) : WaitOver s (exhaust u) n := by
  have hlast : i = s.ctx.retriesLeft.toNat := by
    have hretries := h.retries
    rw [hleft] at hretries
    exact (Nat.zero_add i).symm.trans hretries
  rw [exhaust_eq]
  exact
    { initialised := h.initialised
      state := rfl
      waiting := rfl
      empty := h.empty
      now := h.now
      status := congrArg (fun p => p.statusCode.timeout) h.par
      retransmits := hlast ▸ h.retransmits
      seq := rfl
      cfg := h.defaultCfg
      due := by rw [← hlast, dueAt_succ, ← h.timeout, ← hdue, Nat.add_comm, h.elapsed] }

/-! #### One tick and its pump (30_encoding.md R176) -/

/-- A deadline leaves the block settled, and takes no pending action. -/
theorem InWait.settled (h : InWait s u n i) (hle : u.ctx.elapsed.toNat ≤ u.ctx.timeoutCur.toNat)
    (hT : 1 ≤ s.ctx.timeoutCur.toNat) (hfits : 2 ^ (s.ctx.retriesLeft.toNat + 1) * s.ctx.timeoutCur.toNat < 2 ^ 32) :
    Settled s u n ∨
      (Machine.transition u = some (.next (timeoutStep u)) ∧ Settled s (timeoutStep u) n ∧
        (timeoutStep u).env.inputs = u.env.inputs) := by
  rcases Nat.lt_or_ge u.ctx.elapsed.toNat u.ctx.timeoutCur.toNat with hearly | hdeadline
  · exact .inl (.inl ⟨i, h, hearly⟩)
  · refine .inr ⟨h.transition_due hdeadline, ?_⟩
    have hdue := Nat.le_antisymm hle hdeadline
    unfold timeoutStep
    split
    next hleft => exact ⟨.inr (h.exhaust hdue hleft), by rw [exhaust_eq]⟩
    next hleft =>
      have hnext := h.retransmit hdue hleft hfits
      obtain ⟨p, hp⟩ := h.held
      obtain ⟨-, -, hinputs, -⟩ := retransmit_parts hp
      refine ⟨.inl ⟨i + 1, hnext, ?_⟩, hinputs⟩
      rw [retransmit_elapsed, hnext.timeout]
      exact Nat.mul_pos (Nat.two_pow_pos _) hT

end

theorem InWait.withInputs {s u : State} {n i : Nat} (h : InWait s u n i) (is : List Input) :
    InWait s (u.withInputs is) n i := { h with }

theorem WaitOver.withInputs {s u : State} {n : Nat} (h : WaitOver s u n) (is : List Input) :
    WaitOver s (u.withInputs is) n := { h with }

theorem Settled.withInputs {s u : State} {n : Nat} (h : Settled s u n) (is : List Input) :
    Settled s (u.withInputs is) n :=
  h.imp (fun ⟨i, hwait, hearly⟩ => ⟨i, hwait.withInputs is, hearly⟩) fun hover => hover.withInputs is

theorem Settled.initialised {s u : State} {n : Nat} (h : Settled s u n) : u.ctx.initialised = true := by
  rcases h with ⟨i, hwait, -⟩ | hover
  · exact hwait.initialised
  · exact hover.initialised

/-- What is pending between two ticks: nothing, or a pump that finds nothing to do. -/
def IdleInputs (is : List Input) : Prop := is = [] ∨ is = [.pump]

/-- From a settled block the next step is the pending tick. -/
theorem Settled.step_tick {s u : State} {n : Nat} {pre rest : List Input} (h : Settled s u n) (hpre : IdleInputs pre)
    (hin : u.env.inputs = pre ++ .port .tick :: rest) : step u = .next (tick (u.withInputs rest)) := by
  have htick : runInputs (.port .tick :: rest) u = .next (Machine.tick (u.withInputs rest)) :=
    guarded_initialised (s := u.withInputs rest) h.initialised _
  unfold step
  rw [hin]
  rcases hpre with rfl | rfl
  · exact htick
  · have hnone : Machine.transition (u.withInputs (.pump :: .port .tick :: rest)) = none := (h.withInputs _).transition
    show runInputs (.pump :: .port .tick :: rest) u = _
    rw [runInputs, hnone]
    exact htick

/-- A pump takes the enabled transition and stays pending (30_encoding.md R175). -/
theorem step_pump {u : State} {rest : List Input} {r : Host.Outcome State Fault Refusal}
    (hin : u.env.inputs = .pump :: rest) (h : transition u = some r) : step u = r := by
  have hsame : u.withInputs (.pump :: rest) = u := by rw [← hin]; rfl
  unfold step
  rw [hin, runInputs, hsame, h]

theorem reaches_trans {a b c : State} (h : Reaches a b) (g : Reaches b c) : Reaches a c := by
  induction h with
  | here => exact g
  | later hstep _ ih => exact .later hstep (ih g)

section
variable {s : State} (hT : 1 ≤ s.ctx.timeoutCur.toNat)
  (hfits : 2 ^ (s.ctx.retriesLeft.toNat + 1) * s.ctx.timeoutCur.toNat < 2 ^ 32)
include hT hfits

/-- One tick and its pump. -/
theorem Settled.tick_pump {u : State} {n : Nat} {pre rest : List Input} (h : Settled s u n) (hpre : IdleInputs pre)
    (hin : u.env.inputs = pre ++ .port .tick :: .pump :: rest) :
    ∃ t, Reaches u t ∧ Settled s t (n + 1) ∧ t.env.inputs = .pump :: rest := by
  have hstep := h.step_tick hpre hin
  rcases h.withInputs (.pump :: rest) with ⟨i, hwait, hearly⟩ | hover
  · have hle := (hwait.elapsed_tick hearly).trans_le (Nat.succ_le_of_lt hearly)
    rcases (hwait.tick hearly).settled hle hT hfits with hsettled | ⟨hfires, hsettled, hinputs⟩
    · exact ⟨_, .later hstep (.here _), hsettled, rfl⟩
    · exact ⟨_, .later hstep (.later (step_pump rfl hfires) (.here _)), hsettled, hinputs⟩
  · exact ⟨_, .later hstep (.here _), .inr hover.tick, rfl⟩

/-- Any number of ticks. -/
theorem Settled.ticks {k : Nat} : ∀ {u : State} {n : Nat} {pre : List Input}, Settled s u n → IdleInputs pre →
    u.env.inputs = pre ++ tickInputs k → ∃ t, Reaches u t ∧ Settled s t (n + k) ∧ IdleInputs t.env.inputs := by
  induction k with
  | zero =>
    intro u n pre h hpre hin
    exact ⟨u, .here u, h, by rw [hin, tickInputs, List.append_nil]; exact hpre⟩
  | succ k ih =>
    intro u n pre h hpre hin
    obtain ⟨t, hreach, hsettled, hleft⟩ := h.tick_pump hT hfits hpre hin
    obtain ⟨t', hreach', hsettled', hidle⟩ := ih (pre := [.pump]) hsettled (.inr rfl) hleft
    exact ⟨t', reaches_trans hreach hreach', by rwa [Nat.add_right_comm, Nat.add_assoc] at hsettled', hidle⟩

end

/-- Settles O55: the block is settled at the start, so it is after `n` ticks and pumps; the interval `n` lies in tells how many
retransmissions there were. -/
theorem retryDoubling : Obligations.RetryDoubling := by
  intro s p n hi hs hw hscan helapsed hhold hused hdispatch hT hfits
  have hstart : InWait s (s.withInputs (tickInputs n)) 0 0 :=
    { initialised := hi, state := hs, waiting := hw, scan := hscan, held := ⟨p, hhold⟩, empty := hused, par := rfl
      defaultCfg := rfl
      now := (BitVec.add_zero _).symm
      seq := rfl
      retransmits := (BitVec.add_zero _).symm
      retries := rfl
      timeout := (Nat.one_mul _).symm
      elapsed := by simp [dueAt, helapsed] }
  have hearly : s.ctx.elapsed.toNat < s.ctx.timeoutCur.toNat := by rw [helapsed]; exact hT
  have hsettled : Settled s (s.withInputs (tickInputs n)) 0 := .inl ⟨0, hstart, hearly⟩
  obtain ⟨t, hreach, hend, hidle⟩ := hsettled.ticks hT hfits (.inl rfl) rfl
  rw [Nat.zero_add] at hend
  rcases hend with ⟨i, hwait, hearly⟩ | hover
  · have hsince : dueAt s.ctx.timeoutCur.toNat i ≤ n := hwait.elapsed ▸ Nat.le_add_left _ _
    have huntil : n < dueAt s.ctx.timeoutCur.toNat (i + 1) := by
      rw [dueAt_succ, ← hwait.timeout]
      have := hwait.elapsed
      omega
    refine ⟨t, hreach, hidle, hwait.transition_early hearly, hwait.now, fun j hj hjdue hjuntil => ?_, fun hlate => ?_⟩
    · obtain rfl : i = j := dueAt_unique hsince huntil hjdue hjuntil
      exact ⟨hwait.state, hwait.retransmits, hwait.retries, hwait.timeout, hwait.elapsed, hwait.seq⟩
    · have hi := hwait.retries
      have hmono : dueAt s.ctx.timeoutCur.toNat (i + 1) ≤ dueAt s.ctx.timeoutCur.toNat (s.ctx.retriesLeft.toNat + 1) :=
        dueAt_mono (by omega)
      exact absurd hlate (Nat.not_le.mpr (Nat.lt_of_lt_of_le huntil hmono))
  · refine ⟨t, hreach, hidle, hover.transition, hover.now, fun j hj _ hjuntil => ?_, fun _ =>
      ⟨hover.state, hover.waiting, hover.status, hover.retransmits, hover.seq, hover.cfg⟩⟩
    have hmono : dueAt s.ctx.timeoutCur.toNat (j + 1) ≤ dueAt s.ctx.timeoutCur.toNat (s.ctx.retriesLeft.toNat + 1) :=
      dueAt_mono (Nat.succ_le_succ hj)
    exact absurd hjuntil (Nat.not_lt.mpr (Nat.le_trans hmono hover.due))

end Sys2Proof.Machine

/-! ### O35 to O41: the protocol, system and channel opcodes (45_opcodes.md R500-R539)

A packet that passes the dispatch stage meets its handler in the state with the sequence number advanced. The four checks ahead
of the re-lock interval are shared by all opcodes, so that they pass is proved once for the opcodes of channel 0 and once for
those of the other channels. -/

namespace Sys2Proof.Machine

/-! #### A command that passes the dispatch stage (43_framing_fsm.md R364-R374) -/

section
variable {s t : State} {f : Frame} {flags op : Byte}

/-- Behind the first four checks only the re-lock interval is left (R374). -/
theorem rejection_of_passes {p : Rx} (hchannel : p.hdr.opcode.toNat ≤ 0x13 ↔ p.hdr.channel = 0#8)
    (hcrc : payloadOk s p = true) (hop : p.hdr.opcode.toNat ∈ commandCodes) (htarget : chanTargetOk s p.hdr = true) :
    rejection s p =
      if p.hdr.opcode = 0x22#8 ∧ lockTooSoon s p.hdr.channel = true then some .busy else none := by
  have hpayload : ¬ (s.ctx.cfg.crcEn = true ∧ p.payload ≠ [] ∧ p.payloadCrc ≠ crc32 s.par.crc32 p.payload) := by
    rw [← payloadOk_eq_false_iff, hcrc]; exact nofun
  rw [rejection_eq, if_neg (not_not.mpr hchannel), if_neg hpayload, if_neg (not_not.mpr hop), if_neg (not_not.mpr htarget)]

/-- A protocol or system opcode on channel 0 names no target, so a good payload CRC is all it needs (R365, R366, R368). -/
theorem rejection_channelZero (hch : f.channel = 0#8)
    (hcrc : payloadCrcMatches s.par s.ctx.cfg.crcEn f.payload f.payloadCrc = true)
    (hop : op.toNat ∈ commandCodes) (hlow : op.toNat ≤ 0x13) : rejection s (f.rx flags op) = none := by
  have hnolock : op ≠ 0x22#8 := fun h => absurd (h ▸ hlow : (0x22#8 : Byte).toNat ≤ 0x13) (by decide)
  have htarget : chanTargetOk s (f.rx flags op).hdr = true := chanTargetOk_untargeted (hlow.trans (by decide)) s
  exact (rejection_of_passes (p := f.rx flags op) (iff_of_true hlow hch) hcrc hop htarget).trans
    (if_neg fun h => hnolock h.1)

/-- What is left of the checks for a channel opcode that finds its target (R368). -/
theorem rejection_targeted (hch : f.channel ≠ 0#8)
    (hcrc : payloadCrcMatches s.par s.ctx.cfg.crcEn f.payload f.payloadCrc = true)
    (hop : op.toNat ∈ commandCodes) (hhigh : ¬ op.toNat ≤ 0x13) (htarget : chanTargetOk s (f.rx flags op).hdr = true) :
    rejection s (f.rx flags op) = if op = 0x22#8 ∧ lockTooSoon s f.channel = true then some .busy else none :=
  rejection_of_passes (p := f.rx flags op) (iff_of_false hhigh hch) hcrc hop htarget

theorem accept_passed {p : Rx} (hi : s.ctx.initialised = true) (hr : rejection s p = none) (handle : State → State) :
    accept p s handle = .next (handle (s.afterAccept p.hdr)) := by
  rw [accept_handled hi hr, acceptSeq_afterAccept]

theorem acceptDelivered_passed {p : Rx} (hi : s.ctx.initialised = true) (hr : rejection s p = none) :
    acceptDelivered p s = .next ((s.afterAccept p.hdr).afterDelivery ⟨p.hdr, p.payload⟩) :=
  accept_passed hi hr (deliver p)

theorem afterAccept_of_exempt {h : Hdr} (he : exempt h = true) : s.afterAccept h = s := by
  unfold State.afterAccept; rw [if_pos he]

/-- A command carries neither ACK nor NAK, so of the three bits of R355 only EVENT can be set (30_encoding.md R151). -/
theorem commandFlags_and_unsequenced (u : UpperFlags) : commandFlags u &&& 0x23#8 = commandFlags u &&& 0x20#8 := by
  revert u; decide

/-! #### Commands that the block answers (R501-R504) -/

/-- The answer to a packet on channel 0 (44_reliable_delivery.md R426). -/
theorem responseBytes_channelZero (hch : f.channel = 0#8) (par : Config.Params) (flag : Byte) (pl : List Byte) :
    responseBytes par (f.rx flags op).hdr flag pl = buildPacket par f.sequence 0x00#8 flag op pl :=
  congrArg (fun channel => buildPacket par f.sequence channel flag op pl) hch

/-- A protocol opcode whose handler answers with an ACK of one packet, written or not. -/
theorem accept_answered {g : State → List Byte} {pl : List Byte} (hi : s.ctx.initialised = true) (hch : f.channel = 0#8)
    (hr : rejection s (f.rx flags op) = none) (hpl : g (s.afterAccept (f.rx flags op).hdr) = pl)
    (hfits : pl.length ≤ s.ctx.cfg.maxPayload.toNat)
    (ht : WriteEnds (s.afterAccept (f.rx flags op).hdr) (buildPacket s.par f.sequence 0x00#8 0x01#8 op pl) t) :
    accept (f.rx flags op) s (fun u => sendAck (f.rx flags op).hdr (g u) u) = .next t := by
  rw [← responseBytes_channelZero (flags := flags) hch] at ht
  rw [accept_passed hi hr, hpl]
  exact congrArg _ (sendAck_ends (f.rx flags op).hdr hfits ht)

end

/-- The `caps` word holds one feature in each of its four low bits (30_encoding.md R164). -/
theorem capsWord_eq (c : Config.Cfg) : capsWord c =
    BitVec.ofNat 32 (c.crcEn.toNat + 2 * c.seqEn.toNat + 4 * c.ackEn.toNat + 8 * c.evtEn.toNat) := by
  have hbits : ∀ crc seq ack evt : Bool,
      (if crc then 1#32 else 0#32) ||| (if seq then 2#32 else 0#32) ||| (if ack then 4#32 else 0#32)
        ||| (if evt then 8#32 else 0#32) =
      BitVec.ofNat 32 (crc.toNat + 2 * seq.toNat + 4 * ack.toNat + 8 * evt.toNat) := by decide
  exact hbits c.crcEn c.seqEn c.ackEn c.evtEn

/-- Settles O36: each query passes the checks, and its answer fits one packet. -/
theorem queriesAnswered : Obligations.QueriesAnswered := by
  intro u f s hi hch hcrc hmax hversion answered c n
  have hpasses {op : Byte} (hop : op.toNat ∈ commandCodes) (hlow : op.toNat ≤ 0x13) :
      rejection s (f.rx (commandFlags u) op) = none := rejection_channelZero hch hcrc hop hlow
  refine ⟨fun t ht => ?caps, fun hlayout t ht => ?stats, fun t ht => ?version⟩
  case caps =>
    exact accept_answered (g := fun v => capsPayload v.ctx.cfg) hi hch (hpasses (by decide) (by decide))
      (by rw [capsPayload, capsWord_eq]; rfl) (le_trans (by decide : 16 ≤ 50) hmax) ht
  case stats =>
    exact accept_answered (g := fun v => statsPayload v.par.statsLayout v.ctx.stats) hi hch
      (hpasses (by decide) (by decide)) (by simp only [State.afterAccept, hlayout]; rfl)
      (le_trans (by decide : 28 ≤ 50) hmax) ht
  case version =>
    exact accept_answered (g := fun v => v.par.versionPayload) hi hch (hpasses (by decide) (by decide)) rfl
      (hversion.trans hmax) ht

/-! #### SET_CAPS (R502) -/

/-- The payload asks for a configuration that may be negotiated (R502). -/
def AsksLegalCaps (cap : Nat) (payload : List Byte) : Prop :=
  payload.length = 16 ∧ 50 ≤ (le16 payload 4).toNat ∧ (le16 payload 4).toNat ≤ cap - 14

theorem negotiable_iff (s : State) (mp : Half) : negotiable s mp = true ↔ 50 ≤ mp.toNat ∧ mp.toNat ≤ s.par.cap - 14 := by
  rw [negotiable, Bool.and_eq_true, decide_eq_true_iff, decide_eq_true_iff]; rfl

theorem setCaps_legal {p : Rx} {s : State} (h : AsksLegalCaps s.par.cap p.payload) :
    setCaps p s = (sendAck p.hdr [] s).withCtx
      { (sendAck p.hdr [] s).ctx with cfg := negotiated s.ctx.cfg p.payload } := by
  obtain ⟨hlength, hrange⟩ := h
  have hok := (negotiable_iff s (le16 p.payload 4)).mpr hrange
  unfold setCaps
  rw [if_neg (not_not.mpr hlength), hok, if_neg (by decide)]
  simp only [(sendAck_quiet p.hdr [] s).cfg]

theorem setCaps_illegal {p : Rx} {s : State} (h : ¬ AsksLegalCaps s.par.cap p.payload) :
    setCaps p s = sendStatus p.hdr .invalid s := by
  unfold setCaps
  split
  next => rfl
  next hlength =>
    refine if_pos ?_
    rw [Bool.not_eq_true', ← Bool.not_eq_true, negotiable_iff]
    exact fun hrange => h ⟨not_not.mp hlength, hrange⟩

/-- Settles O37: the ACK leaves the configuration alone, and the new one applies behind it. -/
theorem setCapsApplied : Obligations.SetCapsApplied := by
  intro u f s hi hch hcrc hlength hmin hmax caps new
  have hr : rejection s (f.rx (commandFlags u) 0x02#8) = none := rejection_channelZero hch hcrc (by decide) (by decide)
  have hexec := (accept_passed hi hr (setCaps (Instr.setCaps u f).rx)).trans
    (congrArg _ (setCaps_legal ⟨hlength, hmin, hmax⟩))
  refine ⟨⟨_, hexec, rfl⟩, fun t ht => ?_⟩
  rw [← responseBytes_channelZero (flags := commandFlags u) hch] at ht
  obtain rfl := sendAck_ends (Instr.setCaps u f).rx.hdr (Nat.zero_le _) ht
  exact hexec

/-- Settles O38: what O37 does not accept is refused. -/
theorem setCapsRefused : Obligations.SetCapsRefused := by
  intro u f s t hi hch hcrc hmax hillegal ht
  have hr : rejection s (f.rx (commandFlags u) 0x02#8) = none := rejection_channelZero hch hcrc (by decide) (by decide)
  rw [← responseBytes_channelZero (flags := commandFlags u) hch] at ht
  have hnak : setCaps (Instr.setCaps u f).rx (s.afterAccept (Instr.setCaps u f).rx.hdr) = t :=
    (setCaps_illegal (p := (Instr.setCaps u f).rx) (s := s.afterAccept _) hillegal).trans (sendStatus_ends _ .invalid hmax ht)
  exact (accept_passed hi hr (setCaps (Instr.setCaps u f).rx)).trans (congrArg _ hnak)

/-! #### SYNC (R500, 43_framing_fsm.md R380, 44_reliable_delivery.md R435, 70_reset_and_hazards.md R702) -/

/-- The state a SYNC leaves before its ACK: an open wait has ended with FAILED, and the block is reset. -/
def State.afterSync (s : State) : State :=
  { s with
    ctx := { resetCtx s.ctx with
      ackStatus := if s.ctx.waitForAck then s.par.statusCode.failed else s.ctx.ackStatus }
    env := { s.env with
      outputs := s.env.outputs ++ (if s.ctx.waitForAck then [.sendResult s.par.statusCode.failed] else [])
        ++ unlockCalls s } }

theorem syncFound_eq (h : Hdr) {s : State} (hwait : s.ctx.waitForAck = true ↔ s.ctx.state = .waitAck) :
    syncFound h s = sendAck h [] s.afterSync := by
  unfold syncFound
  refine congrArg (sendAck h []) ?_
  cases hw : s.ctx.waitForAck with
  | false =>
    have hstate : s.ctx.state ≠ .waitAck := fun hs => Bool.false_ne_true (hw.symm.trans (hwait.mpr hs))
    have hidle : (s.withCtx { s.ctx with scanOffset := 0 }).ctx.waitForAck = false := hw
    rw [if_neg hstate, protocolReset_idle hidle]
    simp only [State.afterSync, hw, Bool.false_eq_true, if_false, List.append_nil]
    rfl
  | true =>
    rw [if_pos (hwait.mp hw)]
    refine (protocolReset_idle (s := (failWait _ s).withCtx _) rfl).trans ?_
    simp only [State.afterSync, hw, if_true]
    rfl

/-- An ACK without payload changes nothing of the context but the counters (44_reliable_delivery.md R421, R426). -/
theorem sendAck_nil_ctx (h : Hdr) (s : State) : ∃ st, (sendAck h [] s).ctx = { s.ctx with stats := st } := by
  obtain ⟨st, sq, hctx⟩ := (sendAck_quiet h [] s).ctx
  have hseq : (sendAck h [] s).ctx.seq = s.ctx.seq := by
    rw [sendAck, sendChunk_short (Nat.zero_le _)]; exact sendOne_seq rfl s
  rw [hctx] at hseq
  exact ⟨st, by rw [hctx, show sq = s.ctx.seq from hseq]⟩

/-- Settles O35: SYNC is exempt, and its ACK goes out from the reset state. -/
theorem syncResets : Obligations.SyncResets := by
  intro u f s hi hch hcrc hwait told r
  have hr : rejection s (f.rx (commandFlags u) 0x00#8) = none := rejection_channelZero hch hcrc (by decide) (by decide)
  have hexempt : exempt (Instr.sync u f).rx.hdr = true := (exempt_iff _).mpr (.inr (.inl rfl))
  have hexec : exec (.sync u f) s = .next (sendAck (Instr.sync u f).rx.hdr [] r) := by
    refine (accept_passed hi hr (syncFound (Instr.sync u f).rx.hdr)).trans ?_
    exact congrArg _ ((congrArg _ (afterAccept_of_exempt hexempt)).trans (syncFound_eq _ hwait))
  obtain ⟨st, hctx⟩ := sendAck_nil_ctx (Instr.sync u f).rx.hdr r
  obtain ⟨new, hnew⟩ := (Appends.sendAck (Instr.sync u f).rx.hdr [] r).outputs
  refine ⟨⟨_, st, new, hexec, hctx, hnew.symm⟩, fun t ht => ?_⟩
  rw [← responseBytes_channelZero (flags := commandFlags u) hch] at ht
  exact hexec.trans (congrArg _ (sendAck_ends (Instr.sync u f).rx.hdr (Nat.zero_le _) ht))

/-! #### Packets for the dispatcher (R510-R539, 43_framing_fsm.md R371, R372) -/

/-- The sequence advance of a command whose opcode is not exempt hangs on the EVENT bit (R371, R355). -/
theorem afterAccept_command (s : State) (f : Frame) (u : UpperFlags) {op : Byte} (hop : isExemptOpcode op = false) :
    s.afterAccept (f.rx (commandFlags u) op).hdr = s.withCtx
      { s.ctx with seq := if commandFlags u &&& 0x20#8 = 0#8 then s.ctx.seq + 1#8 else s.ctx.seq } := by
  have hexempt : exempt (f.rx (commandFlags u) op).hdr = true ↔ commandFlags u &&& 0x20#8 ≠ 0#8 := by
    rw [← commandFlags_and_unsequenced]
    have hnamed : ¬ (op = 0x00#8 ∨ op = 0x13#8 ∨ op = 0x29#8) := by simpa [isExemptOpcode, and_assoc] using hop
    exact (exempt_iff _).trans (or_iff_left hnamed)
  unfold State.afterAccept
  simp only [hexempt, ite_not]
  rfl

/-- Settles O39: the three opcodes are not exempt, and SYSTEM_EVENT is. -/
theorem systemPacketDelivered : Obligations.SystemPacketDelivered := by
  intro u f s hi hch hcrc
  have hpasses {op : Byte} (hop : op.toNat ∈ commandCodes) (hlow : op.toNat ≤ 0x13) :
      rejection s (f.rx (commandFlags u) op) = none := rejection_channelZero hch hcrc hop hlow
  have hsequenced {op : Byte} (hop : op.toNat ∈ commandCodes) (hlow : op.toNat ≤ 0x13)
      (hexempt : isExemptOpcode op = false) :
      acceptDelivered (f.rx (commandFlags u) op) s = .next
        ((s.withCtx { s.ctx with seq := if commandFlags u &&& 0x20#8 = 0#8 then s.ctx.seq + 1#8 else s.ctx.seq }).afterDelivery
          ⟨(f.rx (commandFlags u) op).hdr, f.payload⟩) := by
    rw [acceptDelivered_passed hi (hpasses hop hlow), afterAccept_command s f u hexempt]
    rfl
  refine ⟨fun i hmem => ?sequenced, ?event⟩
  case sequenced =>
    simp only [List.mem_cons, List.not_mem_nil, or_false] at hmem
    rcases hmem with rfl | rfl | rfl <;> exact hsequenced (by decide) (by decide) (by decide)
  case event =>
    have hexempt : exempt (Instr.systemEvent u f).rx.hdr = true := (exempt_iff _).mpr (.inr (.inr (.inl rfl)))
    refine (acceptDelivered_passed hi (hpasses (by decide) (by decide))).trans ?_
    exact congrArg (fun v => Host.Outcome.next (State.afterDelivery v _)) (afterAccept_of_exempt hexempt)

/-- Settles O40: the opcodes differ in what the target check asks of the registry. -/
theorem channelPacketDelivered : Obligations.ChannelPacketDelivered := by
  intro u f s hi hch hcrc delivered has
  have hdelivered {op : Byte} (hop : op.toNat ∈ commandCodes) (hhigh : ¬ op.toNat ≤ 0x13) (hnolock : op ≠ 0x22#8)
      (htarget : chanTargetOk s (f.rx (commandFlags u) op).hdr = true) :
      acceptDelivered (f.rx (commandFlags u) op) s = .next
        ((s.afterAccept (f.rx (commandFlags u) op).hdr).afterDelivery ⟨(f.rx (commandFlags u) op).hdr, f.payload⟩) :=
    acceptDelivered_passed hi ((rejection_targeted hch hcrc hop hhigh htarget).trans (if_neg fun h => hnolock h.1))
  have hneeds {op : Byte} {o : ChannelOp} (hrow : (op.toNat, o) ∈ requiredOps) (hhas : has o) :
      chanTargetOk s (f.rx (commandFlags u) op).hdr = true := (chanTargetOk_iff_channelHas hrow s).mpr hhas
  refine ⟨?list, fun h => ?poll, fun h => ?unlock, fun h => ?shape, fun h => ?size, fun h => ?read, fun h => ?write,
    fun h => ?ioctl, fun h => ?event⟩
  case list =>
    have hlow : (0x20#8 : Byte).toNat ≤ 0x20 := by decide
    exact hdelivered (by decide) (by decide) (by decide) (chanTargetOk_untargeted hlow s)
  case read => exact hdelivered (by decide) (by decide) (by decide) ((chanTargetOk_read_iff rfl s).mpr h)
  case event =>
    obtain ⟨d, hd⟩ := Option.isSome_iff_exists.mp h
    have hhigh : 0x20 < (0x29#8 : Byte).toNat := by decide
    have htarget : chanTargetOk s (Instr.event u f).rx.hdr = true :=
      (chanTargetOk_targeted_iff hhigh s).mpr ⟨d, hd, rfl⟩
    have hexempt : exempt (Instr.event u f).rx.hdr = true := (exempt_iff _).mpr (.inr (.inr (.inr rfl)))
    exact ⟨hdelivered (by decide) (by decide) (by decide) htarget,
      congrArg (fun v => v.ctx.seq) (afterAccept_of_exempt (s := s) hexempt)⟩
  all_goals exact hdelivered (by decide) (by decide) (by decide) (hneeds (by decide) h)

/-! #### LOCK (R532, 43_framing_fsm.md R374) -/

theorem lockTooSoon_iff (s : State) (channel : Byte) : lockTooSoon s channel = true ↔
    ∃ t0, lastLock s channel.toNat = some t0 ∧ s.ctx.now - t0 < s.ctx.cfg.lockInterval := by
  unfold lockTooSoon
  cases lastLock s channel.toNat <;> simp

/-- Settles O41: behind the target check only the re-lock interval is left. -/
theorem lockDeliveredOrBusy : Obligations.LockDeliveredOrBusy := by
  intro u f s hi hch hcrc hlock
  have hrow : ((0x22#8 : Byte).toNat, ChannelOp.lock) ∈ requiredOps := by decide
  have hr := rejection_targeted (flags := commandFlags u) (op := 0x22#8) hch hcrc (by decide) (by decide)
    ((chanTargetOk_iff_channelHas hrow s).mpr hlock)
  refine ⟨fun hlate => ?delivered, fun t0 t ht0 hsoon hmax ht => ?busy⟩
  case delivered =>
    have hnone : ¬ lockTooSoon s f.channel = true := by
      rw [lockTooSoon_iff]
      rintro ⟨t0, ht0, hsoon⟩
      exact hlate t0 ht0 hsoon
    exact accept_passed hi (hr.trans (if_neg fun h => hnone h.2)) fun v =>
      deliver (Instr.lock u f).rx (setLastLock f.channel.toNat (some v.ctx.now) v)
  case busy =>
    have hbusy := hr.trans (if_pos ⟨rfl, (lockTooSoon_iff s f.channel).mpr ⟨t0, ht0, hsoon⟩⟩)
    exact (exec_rejected (i := .lock u f) hi (isResponse_commandFlags u) hbusy).trans
      (congrArg _ (reject_writeEnds hmax ht))

end Sys2Proof.Machine

/-! ### O16: the model's faults (60_exceptions.md R601)

A port operation first asks whether the block is initialised, then for its own condition. A transition asks for none: it fires
on an initialised block only, and there a packet always runs. -/

namespace Sys2Proof.Machine

/-! #### Transitions never fault -/

theorem runReceived_runs {s : State} (hi : s.ctx.initialised = true) (p : Rx) : ∃ t, runReceived p s = .next t := by
  cases hp : classify p with
  | some i => rw [runReceived_of_classify hp]; exact exec_runs hi i
  | none => rw [runReceived_undefined hp]; exact accept_runs hi p id

theorem takeAt_initialised (k : Nat) (s : State) : (takeAt k s).ctx.initialised = s.ctx.initialised := by simp [takeAt]

theorem takeResponse_initialised (k : Nat) (s : State) :
    (takeResponse k s).ctx.initialised = s.ctx.initialised := by
  unfold takeResponse
  split
  next => exact takeAt_initialised 0 s
  next => rfl

theorem afterFetch_initialised (s : State) : (afterFetch s).ctx.initialised = s.ctx.initialised := by simp [afterFetch]

theorem payloadStep_runs {s : State} (hi : s.ctx.initialised = true) : ∃ t, payloadStep s = .next t := by
  unfold payloadStep
  split
  next => exact runReceived_runs ((afterFetch_initialised s).trans hi) _
  next => exact ⟨_, rfl⟩

section
variable {s : State} {r : Host.Outcome State Fault Refusal}

theorem recoveryStep_runs (hi : s.ctx.initialised = true) (he : recoveryStep s = some r) : ∃ t, r = .next t := by
  unfold recoveryStep at he
  split at he
  next k _ => cases he; exact runReceived_runs ((takeAt_initialised k s).trans hi) _
  next =>
    split at he
    next => cases he; exact ⟨_, rfl⟩
    next => cases (Option.ite_none_left_eq_some.mp he).2; exact ⟨_, rfl⟩

theorem waitStep_runs (hi : s.ctx.initialised = true) (he : waitStep s = some r) : ∃ t, r = .next t := by
  unfold waitStep at he
  split at he
  next k _ => cases he; exact runReceived_runs ((takeResponse_initialised k s).trans hi) _
  next k _ => cases he; exact runReceived_runs ((takeAt_initialised k s).trans hi) _
  next => cases (Option.ite_none_left_eq_some.mp he).2; exact ⟨_, rfl⟩

theorem waitTransition_runs (hi : s.ctx.initialised = true) (he : waitTransition s = some r) : ∃ t, r = .next t := by
  unfold waitTransition at he
  split at he
  next =>
    split at he
    next => cases he; exact ⟨_, rfl⟩
    next =>
      have hdrawn : (draw s).2.ctx = s.ctx := draw_ctx s
      split at he
      next => cases he; exact ⟨_, rfl⟩
      next u hd =>
        rw [hd] at hdrawn
        exact waitStep_runs ((congrArg Ctx.initialised hdrawn).trans hi) he
  next => exact waitStep_runs hi he

theorem transition_runs (he : transition s = some r) : ∃ t, r = .next t := by
  have hi := initialised_of_transition he
  unfold transition at he
  replace he := (Option.ite_none_left_eq_some.mp he).2
  cases hs : s.ctx.state <;> simp only [hs] at he
  case waitAck => exact waitTransition_runs hi he
  all_goals replace he := (Option.ite_none_left_eq_some.mp he).2
  case sync => cases he; exact ⟨_, rfl⟩
  case header => cases he; exact ⟨_, rfl⟩
  case payload => cases he; exact payloadStep_runs hi
  case syncRecovery => exact recoveryStep_runs hi he

end

/-! #### When a port operation faults -/

/-- The guard faults on an uninitialised block (10_state.md R32), so only the initialised one is left to judge. -/
theorem guarded_faults {s : State} {r : Host.Outcome State Fault Refusal} {P : Prop}
    (h : s.ctx.initialised = true → P) : if s.ctx.initialised = false then guarded s r = .fault .uninit else P := by
  split
  next hi => exact if_neg (Bool.eq_false_iff.mp hi)
  next hi => exact h (Bool.eq_true_of_not_eq_false hi)

/-- `init` is the one operation without the guard, and an invalid configuration is an answer, not a fault
(70_reset_and_hazards.md R700, R701). -/
theorem portInit_runs {s : State} (hi : s.ctx.initialised = false) (c : Config.Cfg) : ∃ t, portInit c s = .next t := by
  unfold portInit
  rw [if_neg (Bool.eq_false_iff.mp hi)]
  split <;> exact ⟨_, rfl⟩

/-- An operation that is answered runs on an initialised block. -/
theorem guarded_runs_of_answers {s : State} {q : Host.Outcome State Fault Refusal} (hi : s.ctx.initialised = true)
    (h : ∃ r t, q = answer r t) : ∃ t, guarded s q = .next t := by
  obtain ⟨r, t, rfl⟩ := h
  exact ⟨_, guarded_initialised hi _⟩

/-- A claim is answered, whether it is granted or refused (40_staging_buffer.md R206). -/
theorem portClaim_answers (n : Nat) (s : State) : ∃ r t, portClaim n s = answer r t := by
  unfold portClaim
  split <;> exact ⟨_, _, rfl⟩

theorem fillAllowed_iff {s : State} {i len : Nat} :
    fillAllowed i len s = true ↔ s.sb.wr ≤ i ∧ i + len ≤ s.sb.wr + s.sb.claimLen := by simp [fillAllowed]

/-- A commit of 0 bytes is within any claim (40_staging_buffer.md R209, R213). -/
theorem execPort_commit_runs {s : State} {n : Nat} (hi : s.ctx.initialised = true) (h : n ≤ s.sb.claimLen) :
    ∃ t, execPort (.sbCommit n) s = .next t := by
  rcases Nat.eq_zero_or_pos n with rfl | h0
  · exact ⟨_, execPort_commit_zero hi⟩
  · exact ⟨_, execPort_commit hi h0 h⟩

/-- A consume of 0 bytes is within any buffer (40_staging_buffer.md R210, R213). -/
theorem execPort_consume_runs {s : State} {n : Nat} (hi : s.ctx.initialised = true) (h : n ≤ s.sb.used) :
    ∃ t, execPort (.sbConsume n) s = .next t := by
  rcases Nat.eq_zero_or_pos n with rfl | h0
  · exact ⟨_, execPort_consume_zero hi⟩
  · exact ⟨_, execPort_consume hi h0 h⟩

/-- Settles O16: `guarded_faults` settles the uninitialised block for every operation but `init`; then an operation has its own
condition, always faults (`registry_unregister`), or never does. -/
theorem faultsExactlyAsListed : Obligations.FaultsExactlyAsListed := by
  refine ⟨fun s op => ?_, fun s r => transition_runs⟩
  cases op
  case init c =>
    dsimp only
    split
    next hi => exact if_pos hi
    next hi => exact portInit_runs (Bool.eq_false_of_not_eq_true hi) c
  all_goals refine guarded_faults fun hi => ?_
  case sbPeekU16 =>
    dsimp only
    split
    next h => exact (guarded_initialised hi (portPeekU16 s)).trans (if_pos h)
    next h => exact ⟨_, (guarded_initialised hi (portPeekU16 s)).trans (if_neg h)⟩
  case sbFill i v =>
    dsimp only
    split
    next h => exact ⟨_, (guarded_initialised hi (portFill i v s)).trans (if_pos (fillAllowed_iff.mpr h))⟩
    next h => exact (guarded_initialised hi (portFill i v s)).trans (if_neg (mt fillAllowed_iff.mp h))
  case sbCommit n =>
    dsimp only
    split
    next h => exact execPort_commit_over hi h
    next h => exact execPort_commit_runs hi (Nat.le_of_not_lt h)
  case sbConsume n =>
    dsimp only
    split
    next h => exact execPort_consume_over hi h
    next h => exact execPort_consume_runs hi (Nat.le_of_not_lt h)
  case registryUnregister => exact guarded_initialised hi _
  case dispatchDone =>
    dsimp only
    split
    next h => exact (guarded_initialised hi (portDispatchDone s)).trans (if_neg (Bool.eq_false_iff.mp h))
    next h =>
      exact ⟨_, (guarded_initialised hi (portDispatchDone s)).trans (if_pos (Bool.eq_true_of_not_eq_false h))⟩
  case sbClaim n => exact guarded_runs_of_answers hi (portClaim_answers n s)
  case sbPush b => exact guarded_runs_of_answers hi (portPush_answers b s)
  case reset | deinit | sbAvailableToRead | sbAvailableToWrite | sbDataPtr | registryRegister | registryFind |
      registryFindTransport | registryDeinitAll | send | sendAck | sendStatus | tick =>
    exact ⟨_, guarded_initialised hi _⟩

end Sys2Proof.Machine

/-! ### O21, O22, O23: init, reset, deinit and the device restart (70_reset_and_hazards.md R700-R705)

`init` asks whether the configuration is valid. `reset` and `deinit` first end an open wait with FAILED, then call the hooks of
the registered channels in ascending id order. -/

namespace Sys2Proof.Machine

/-! #### init (R700, R701) -/

theorem validCfg_iff (cap : Nat) (c : Config.Cfg) : validCfg cap c = true ↔
    50 ≤ c.maxPayload.toNat ∧ c.maxPayload.toNat ≤ cap - 14 ∧ 1 ≤ c.baseTimeout.toNat := by
  simp only [validCfg, Bool.and_eq_true, decide_eq_true_eq, BitVec.le_def, and_assoc]
  rfl

theorem execPort_init {s : State} (hi : s.ctx.initialised = false) (c : Config.Cfg) : execPort (.init c) s =
    if validCfg s.par.cap c then answer (.status .success) (initBlock c s) else answer (.status .invalid) s :=
  if_neg (Bool.eq_false_iff.mp hi)

/-- Settles O22: both ends of `execPort_init`; that `initBlock` takes the configuration is by its definition. -/
theorem initAcceptsExactlyTheValid : Obligations.InitAcceptsExactlyTheValid := by
  intro s c hi
  rw [execPort_init hi]
  split
  next h => exact ⟨initBlock c s, if_pos ((validCfg_iff _ c).mpr h), rfl, rfl, rfl⟩
  next h => exact if_neg (mt (validCfg_iff _ c).mp h)

/-! #### The end of an open wait, and the unlock hooks (R702, R703) -/

/-- The whole next state, with a wait in progress and without one (R702, R703). -/
theorem failOpenWait_eq (s : State) : failOpenWait s =
    { s with
      ctx := { s.ctx with ackStatus := if s.ctx.waitForAck then s.par.statusCode.failed else s.ctx.ackStatus }
      env := { s.env with
        outputs := s.env.outputs ++ if s.ctx.waitForAck then [.sendResult s.par.statusCode.failed] else [] } } := by
  cases h : s.ctx.waitForAck with
  | true => exact failOpenWait_waiting h
  | false =>
    rw [failOpenWait_idle h]
    simp only [Bool.false_eq_true, if_false, List.append_nil]

/-- The hooks `reset` calls are those of the lockable channels that have one, ids ascending (R702). -/
theorem unlockCalls_eq (s : State) :
    unlockCalls s = ((List.range s.par.nch).filter (unlocksAt s)).map .hookUnlock := by
  rw [unlockCalls, ← List.filterMap_eq_map', List.filterMap_filter]
  refine List.filterMap_congr fun id _ => ?_
  unfold unlocksAt
  cases registryFind s id <;> rfl

/-- Settles O21: a valid `init` writes `initBlock`; a reset is `failOpenWait`, the cleared fields and the unlock hooks, which
are looked up in a registry that neither changes. -/
theorem stateAfterInitAndReset : Obligations.StateAfterInitAndReset := by
  refine ⟨fun s c hi hmin hmax htimeout => ?init, fun s hi => ?reset⟩
  case init =>
    rw [execPort_init hi, if_pos ((validCfg_iff _ c).mpr ⟨hmin, hmax, htimeout⟩)]
    rfl
  case reset =>
    refine (guarded_initialised hi (portReset s)).trans ?_
    rw [portReset, protocolReset, failOpenWait_eq, ← unlockCalls_eq]
    rfl

/-! #### The uninitialised block (R703, R704, 10_state.md R32) -/

theorem execPort_uninitialised {op : PortOp} {s : State} (hi : s.ctx.initialised = false) (hop : ∀ c, op ≠ .init c) :
    execPort op s = .fault .uninit := by
  cases op
  case init c => exact absurd rfl (hop c)
  all_goals exact if_neg (Bool.eq_false_iff.mp hi)

theorem step_restart {s : State} {rest : List Input} (h : s.env.inputs = .restart :: rest) :
    step s = .next (powerOn (s.withInputs rest)) := by
  rw [step, h, runInputs]

theorem deinitBlock_env (s : State) : (deinitBlock s).env = { s.env with
    outputs := s.env.outputs ++ (if s.ctx.waitForAck then [.sendResult s.par.statusCode.failed] else [])
      ++ ((List.range s.par.nch).filter (tearsDownAt s)).map .hookTeardown } := by
  change (deinitAll (failOpenWait s)).env = _
  rw [deinitAll_eq_unregisterAll, unregisterAll_env List.nodup_range, failOpenWait_eq]
  rfl

/-- A caller that waits reads FAILED after `deinit` (log 9). -/
theorem deinitBlock_ackStatus {s : State} (hw : s.ctx.waitForAck = true) :
    (deinitBlock s).ctx.ackStatus = s.par.statusCode.failed := by
  obtain ⟨-, hctx, -⟩ := deinitAll_parts (failOpenWait s)
  change (deinitAll (failOpenWait s)).ctx.ackStatus = _
  rw [hctx, failOpenWait_waiting hw]
  rfl

/-- Settles O23: a restart is `powerOn` and `deinit` is `deinitBlock`; both leave the block uninitialised. -/
theorem deinitLeavesUninitialised : Obligations.DeinitLeavesUninitialised := by
  refine ⟨fun s rest hin => ?restart, fun s hi _ => ?deinit⟩
  case restart =>
    exact ⟨_, step_restart hin, rfl, rfl, rfl, fun _ => execPort_uninitialised rfl⟩
  case deinit =>
    refine ⟨_, guarded_initialised hi (portDeinit s), rfl, deinitBlock_ackStatus, ?env, fun _ => execPort_uninitialised rfl⟩
    case env => rw [emit_env, deinitBlock_env]

end Sys2Proof.Machine
